-- ==== Sys2Proof/Word.lean ====
section
/-!
DEFINITION. The word types of the MIPS CPU: 32-bit words, bytes and register numbers
(spec/00_scope.md section 6.1, spec/10_state.md R10).
-/
namespace Sys2Proof

/-- A 32-bit word: a general register, `hi`, `lo`, `pc`, a CP0 register, an address (R10, R12, R13, R18, R50). -/
abbrev Word := BitVec 32

/-- A byte of 8 bits (R50). -/
abbrev Byte := BitVec 8

/-- A register number: one of the 5-bit fields `s`, `t`, `d` taken as an unsigned number 0 to 31 (R95). -/
abbrev Reg := BitVec 5

/-- The 16-bit immediate field `imm` of an I-type word (R92). -/
abbrev Imm := BitVec 16

end Sys2Proof
end

