-- ==== Sys2Proof/Config.lean ====
section
/-!
DEFINITION. What an implementation fixes and what the spec leaves open: the named parameters of
spec/00_scope.md section 4 (spec/92_eei_decisions.md) and the free values. A parameter with a default is
a definition; an OPEN parameter and a free value are opaque constants with no body, so that a claim holds
for every value of them.
-/
namespace Sys2Proof

/-- How sltiu extends its immediate (parameter SLTIU_IMM_EXT). -/
inductive ImmExt where
  | zero
  | sign
  deriving DecidableEq, Repr

/-- BRANCH_OFFSET_SHIFT: a branch immediate counts instructions (R151). DESIGN CHOICE: the spec's default 2 (log 7). -/
def Config.branchOffsetShift : Nat := 2

/-- SLTIU_IMM_EXT: the source's zero extension (R117). DESIGN CHOICE: the spec's default (log 8). -/
def Config.sltiuImmExt : ImmExt := .zero

/-- COP0_S_MFC0: the `s` field of mfc0 (R99). DESIGN CHOICE: the spec's default (log 9). -/
def Config.cop0SMfc0 : BitVec 5 := 0b00000#5

/-- COP0_S_MTC0: the `s` field of mtc0 (R99). DESIGN CHOICE: the spec's default (log 9). -/
def Config.cop0SMtc0 : BitVec 5 := 0b00100#5

/-- STRICT_UNUSED_FIELDS: unused fields must be 0 (R102). DESIGN CHOICE: the spec's default (log 10). -/
def Config.strictUnusedFields : Bool := true

/-- NESTED_TRAP_UPDATES_EPC: trap entry runs in full when `exl` is already 1 (R200).
DESIGN CHOICE: the spec's default (log 11). -/
def Config.nestedTrapUpdatesEpc : Bool := true

/-- TIMER_IRQ_HOLD, OPEN (R210): true, the timer line stays 1 until `compare` is written; false, it is a pulse (log 12). -/
opaque Config.timerIrqHold : Bool

/-- The cycles beyond the first that a step takes (R208), a draw for each step (log 13). -/
opaque Config.extraCycles : Nat → Nat

/-- CYCLES_PER_STEP, OPEN (R208, R237): the cycles k ≥ 1 of the step with number `n`. -/
def Config.cyclesPerStep (n : Nat) : Nat := Config.extraCycles n + 1

/-- IFETCH_HAZARD_WINDOW, OPEN (R81): for how many instructions after a store a fetch of the stored word has no
specified result (log 14). -/
opaque Config.ifetchHazardWindow : Nat

/-- The bytes beyond the first that the serial input buffer can hold (log 15). -/
opaque Config.serialExtraCapacity : Nat

/-- SERIAL_BUF_CAPACITY ≥ 1, OPEN (R211, U15). -/
def Config.serialBufCapacity : Nat := Config.serialExtraCapacity + 1

/-- Which byte is lost when a byte arrives at a full buffer, the arriving one (true) or the oldest (false): free for
each arrival (U15, log 15). -/
opaque Config.serialDropsArriving : Nat → Bool

/-- A status byte that says "no data" (free, log 16). -/
opaque Config.serialStatusEmptyByte : Byte

/-- How far a status byte that says "data" lies from it (free, log 16). -/
opaque Config.serialStatusOffset : Nat

/-- What any other status byte says (free, log 16). -/
opaque Config.serialStatusOther : Byte → Bool

/-- The byte a read of the status register would choose (free for each read, log 16). -/
opaque Config.serialStatusDraw : Nat → Byte

/-- A status byte that says "data", different from the one that says "no data". -/
def Config.serialStatusDataByte : Byte :=
  Config.serialStatusEmptyByte + BitVec.ofNat 8 (Config.serialStatusOffset % 255 + 1)

/-- SERIAL_STATUS_HAS_DATA, OPEN (R214): what a byte read from the status register says. It is any predicate on
bytes that is true of some byte and false of some byte. -/
def Config.serialStatusHasData (b : Byte) : Bool :=
  if b = Config.serialStatusDataByte then true
  else if b = Config.serialStatusEmptyByte then false
  else Config.serialStatusOther b

/-- The byte read from the status register at step `n`: any byte of which SERIAL_STATUS_HAS_DATA is true exactly when
the buffer is not empty (R214). -/
def Config.serialStatusByte (n : Nat) (notEmpty : Bool) : Byte :=
  if Config.serialStatusHasData (Config.serialStatusDraw n) = notEmpty then Config.serialStatusDraw n
  else if notEmpty then Config.serialStatusDataByte else Config.serialStatusEmptyByte

/-- What the undescribed bits of a CP0 register read as at step `n` (R19, U1; free for each read, log 17). -/
opaque Config.cp0UndescribedBits : Nat → Word

end Sys2Proof
end

