-- ==== Sys2Proof/Syntax.lean ====
section
/-!
DEFINITION. The abstract syntax: one constructor for each of the 46 rows of spec/opcode_table.json
(spec/30_encoding.md R96). The operands are the variable fields of the word, in the order in which they stand in it
from the most significant bit down (R91 to R94); for mfc0 and mtc0 `d` is the number of the CP0 register (R174).
-/
namespace Sys2Proof

/-- An instruction (R96): the word's variable fields. -/
inductive Instr where
  /-- `addu`, add word (R111). -/
  | addu (s t d : Reg)
  /-- `addiu`, add immediate word (R112). -/
  | addiu (s t : Reg) (imm : Imm)
  /-- `subu`, subtract word (R113). -/
  | subu (s t d : Reg)
  /-- `slt`, set on less than (R114). -/
  | slt (s t d : Reg)
  /-- `slti`, set on less than immediate (R115). -/
  | slti (s t : Reg) (imm : Imm)
  /-- `sltu`, set on less than unsigned (R116). -/
  | sltu (s t d : Reg)
  /-- `sltiu`, set on less than unsigned immediate (R117). -/
  | sltiu (s t : Reg) (imm : Imm)
  /-- `mult`, multiply word (R118). -/
  | mult (s t : Reg)
  /-- `mflo`, move from lo (R119). -/
  | mflo (d : Reg)
  /-- `mtlo`, move to lo (R120). -/
  | mtlo (s : Reg)
  /-- `mfhi`, move from hi (R121). -/
  | mfhi (d : Reg)
  /-- `mthi`, move to hi (R122). -/
  | mthi (s : Reg)
  /-- `and`, and (R123). -/
  | and (s t d : Reg)
  /-- `andi`, and immediate (R124). -/
  | andi (s t : Reg) (imm : Imm)
  /-- `lui`, load upper immediate (R125). -/
  | lui (t : Reg) (imm : Imm)
  /-- `nor`, not or (R126). -/
  | nor (s t d : Reg)
  /-- `or`, or (R127). -/
  | or (s t d : Reg)
  /-- `ori`, or immediate (R128). -/
  | ori (s t : Reg) (imm : Imm)
  /-- `xor`, exclusive or (R129). -/
  | xor (s t d : Reg)
  /-- `xori`, exclusive or immediate (R130). -/
  | xori (s t : Reg) (imm : Imm)
  /-- `sll`, shift word left logical (R131). -/
  | sll (t d : Reg) (sa : BitVec 5)
  /-- `sllv`, shift word left logical variable (R132). -/
  | sllv (s t d : Reg)
  /-- `sra`, shift word right arithmetic (R133). -/
  | sra (t d : Reg) (sa : BitVec 5)
  /-- `srav`, shift word right arithmetic variable (R134). -/
  | srav (s t d : Reg)
  /-- `srl`, shift word right logical (R135). -/
  | srl (t d : Reg) (sa : BitVec 5)
  /-- `srlv`, shift word right logical variable (R136). -/
  | srlv (s t d : Reg)
  /-- `beq`, branch on equal (R141). -/
  | beq (s t : Reg) (imm : Imm)
  /-- `bne`, branch on not equal (R142). -/
  | bne (s t : Reg) (imm : Imm)
  /-- `bgez`, branch on greater than or equal to zero (R143). -/
  | bgez (s : Reg) (imm : Imm)
  /-- `bgtz`, branch on greater than zero (R144). -/
  | bgtz (s : Reg) (imm : Imm)
  /-- `blez`, branch on less than or equal to zero (R145). -/
  | blez (s : Reg) (imm : Imm)
  /-- `bltz`, branch on less than zero (R146). -/
  | bltz (s : Reg) (imm : Imm)
  /-- `j`, jump (R147). -/
  | j (address : BitVec 26)
  /-- `jal`, jump and link (R148). -/
  | jal (address : BitVec 26)
  /-- `jr`, jump register (R149). -/
  | jr (s : Reg)
  /-- `jalr`, jump and link register (R150). -/
  | jalr (s d : Reg)
  /-- `lw`, load word (R161). -/
  | lw (s t : Reg) (imm : Imm)
  /-- `sw`, store word (R162). -/
  | sw (s t : Reg) (imm : Imm)
  /-- `lb`, load byte (R163). -/
  | lb (s t : Reg) (imm : Imm)
  /-- `lbu`, load byte unsigned (R164). -/
  | lbu (s t : Reg) (imm : Imm)
  /-- `sb`, store byte (R165). -/
  | sb (s t : Reg) (imm : Imm)
  /-- `syscall`, system call (R170). -/
  | syscall
  /-- `eret`, exception return (R173). -/
  | eret
  /-- `mfc0`, move from coprocessor 0 (R174). -/
  | mfc0 (t d : Reg)
  /-- `mtc0`, move to coprocessor 0 (R175). -/
  | mtc0 (t d : Reg)
  /-- `tlbwi`, write indexed TLB entry (R176). -/
  | tlbwi
  deriving DecidableEq, Repr

end Sys2Proof
end

