-- ==== Sys2Proof/Decode.lean ====
section
/-!
DEFINITION. The decoder, total on any word and rejecting by name, and the encoder, both written from the encoding
tables of spec/30_encoding.md (R91 to R102). Decoding depends on the word alone (R104).
-/
namespace Sys2Proof

/-! ### The fields of a word (R91 to R93) -/

/-- Bits 31-26, `op`. -/
def opField (w : Word) : BitVec 6 := w.extractLsb' 26 6
/-- Bits 25-21, `s`. -/
def sField (w : Word) : Reg := w.extractLsb' 21 5
/-- Bits 20-16, `t`. -/
def tField (w : Word) : Reg := w.extractLsb' 16 5
/-- Bits 15-11, `d`. -/
def dField (w : Word) : Reg := w.extractLsb' 11 5
/-- Bits 10-6, `sa`. -/
def saField (w : Word) : BitVec 5 := w.extractLsb' 6 5
/-- Bits 5-0, `func`. -/
def funcField (w : Word) : BitVec 6 := w.extractLsb' 0 6
/-- Bits 15-0, `imm`. -/
def immField (w : Word) : Imm := w.extractLsb' 0 16
/-- Bits 25-0, `address`. -/
def addressField (w : Word) : BitVec 26 := w.extractLsb' 0 26

/-! ### The formats (R91 to R94) -/

/-- A word of the R-type layout, with its `op`. -/
def rWord (op : BitVec 6) (s t d : Reg) (sa : BitVec 5) (func : BitVec 6) : Word :=
  op ++ s ++ t ++ d ++ sa ++ func

/-- A word of the I-type layout. -/
def iWord (op : BitVec 6) (s t : Reg) (imm : Imm) : Word := op ++ s ++ t ++ imm

/-- A word of the J-type layout. -/
def jWord (op : BitVec 6) (address : BitVec 26) : Word := op ++ address

/-! ### The encoder -/

/-- The word of an instruction, every unused field 0 (R96 to R100, R102). -/
def encode : Instr → Word
  | .addu s t d => rWord 0b000000#6 s t d 0#5 0b100001#6
  | .addiu s t imm => iWord 0b001001#6 s t imm
  | .subu s t d => rWord 0b000000#6 s t d 0#5 0b100011#6
  | .slt s t d => rWord 0b000000#6 s t d 0#5 0b101010#6
  | .slti s t imm => iWord 0b001010#6 s t imm
  | .sltu s t d => rWord 0b000000#6 s t d 0#5 0b101011#6
  | .sltiu s t imm => iWord 0b001011#6 s t imm
  | .mult s t => rWord 0b000000#6 s t 0#5 0#5 0b011000#6
  | .mflo d => rWord 0b000000#6 0#5 0#5 d 0#5 0b010010#6
  | .mtlo s => rWord 0b000000#6 s 0#5 0#5 0#5 0b010011#6
  | .mfhi d => rWord 0b000000#6 0#5 0#5 d 0#5 0b010000#6
  | .mthi s => rWord 0b000000#6 s 0#5 0#5 0#5 0b010001#6
  | .and s t d => rWord 0b000000#6 s t d 0#5 0b100100#6
  | .andi s t imm => iWord 0b001100#6 s t imm
  | .lui t imm => iWord 0b001111#6 0#5 t imm
  | .nor s t d => rWord 0b000000#6 s t d 0#5 0b100111#6
  | .or s t d => rWord 0b000000#6 s t d 0#5 0b100101#6
  | .ori s t imm => iWord 0b001101#6 s t imm
  | .xor s t d => rWord 0b000000#6 s t d 0#5 0b100110#6
  | .xori s t imm => iWord 0b001110#6 s t imm
  | .sll t d sa => rWord 0b000000#6 0#5 t d sa 0b000000#6
  | .sllv s t d => rWord 0b000000#6 s t d 0#5 0b000100#6
  | .sra t d sa => rWord 0b000000#6 0#5 t d sa 0b000011#6
  | .srav s t d => rWord 0b000000#6 s t d 0#5 0b000111#6
  | .srl t d sa => rWord 0b000000#6 0#5 t d sa 0b000010#6
  | .srlv s t d => rWord 0b000000#6 s t d 0#5 0b000110#6
  | .beq s t imm => iWord 0b000100#6 s t imm
  | .bne s t imm => iWord 0b000101#6 s t imm
  | .bgez s imm => iWord 0b000001#6 s 0b00001#5 imm
  | .bgtz s imm => iWord 0b000111#6 s 0#5 imm
  | .blez s imm => iWord 0b000110#6 s 0#5 imm
  | .bltz s imm => iWord 0b000001#6 s 0b00000#5 imm
  | .j address => jWord 0b000010#6 address
  | .jal address => jWord 0b000011#6 address
  | .jr s => rWord 0b000000#6 s 0#5 0#5 0#5 0b001000#6
  | .jalr s d => rWord 0b000000#6 s 0#5 d 0#5 0b001001#6
  | .lw s t imm => iWord 0b100011#6 s t imm
  | .sw s t imm => iWord 0b101011#6 s t imm
  | .lb s t imm => iWord 0b100000#6 s t imm
  | .lbu s t imm => iWord 0b100100#6 s t imm
  | .sb s t imm => iWord 0b101000#6 s t imm
  | .syscall => 0x0000000c#32
  | .eret => 0x42000018#32
  | .mfc0 t d => rWord 0b010000#6 Config.cop0SMfc0 t d 0#5 0b000000#6
  | .mtc0 t d => rWord 0b010000#6 Config.cop0SMtc0 t d 0#5 0b000000#6
  | .tlbwi => 0x42000002#32

/-! ### The opcode table -/

/-- The row of spec/opcode_table.json of an instruction: its `mask` and its `match`. -/
def opcodeRow : Instr → Word × Word
  | .addu _ _ _ => (0xfc0007ff#32, 0x00000021#32)
  | .addiu _ _ _ => (0xfc000000#32, 0x24000000#32)
  | .subu _ _ _ => (0xfc0007ff#32, 0x00000023#32)
  | .slt _ _ _ => (0xfc0007ff#32, 0x0000002a#32)
  | .slti _ _ _ => (0xfc000000#32, 0x28000000#32)
  | .sltu _ _ _ => (0xfc0007ff#32, 0x0000002b#32)
  | .sltiu _ _ _ => (0xfc000000#32, 0x2c000000#32)
  | .mult _ _ => (0xfc00ffff#32, 0x00000018#32)
  | .mflo _ => (0xffff07ff#32, 0x00000012#32)
  | .mtlo _ => (0xfc1fffff#32, 0x00000013#32)
  | .mfhi _ => (0xffff07ff#32, 0x00000010#32)
  | .mthi _ => (0xfc1fffff#32, 0x00000011#32)
  | .and _ _ _ => (0xfc0007ff#32, 0x00000024#32)
  | .andi _ _ _ => (0xfc000000#32, 0x30000000#32)
  | .lui _ _ => (0xffe00000#32, 0x3c000000#32)
  | .nor _ _ _ => (0xfc0007ff#32, 0x00000027#32)
  | .or _ _ _ => (0xfc0007ff#32, 0x00000025#32)
  | .ori _ _ _ => (0xfc000000#32, 0x34000000#32)
  | .xor _ _ _ => (0xfc0007ff#32, 0x00000026#32)
  | .xori _ _ _ => (0xfc000000#32, 0x38000000#32)
  | .sll _ _ _ => (0xffe0003f#32, 0x00000000#32)
  | .sllv _ _ _ => (0xfc0007ff#32, 0x00000004#32)
  | .sra _ _ _ => (0xffe0003f#32, 0x00000003#32)
  | .srav _ _ _ => (0xfc0007ff#32, 0x00000007#32)
  | .srl _ _ _ => (0xffe0003f#32, 0x00000002#32)
  | .srlv _ _ _ => (0xfc0007ff#32, 0x00000006#32)
  | .beq _ _ _ => (0xfc000000#32, 0x10000000#32)
  | .bne _ _ _ => (0xfc000000#32, 0x14000000#32)
  | .bgez _ _ => (0xfc1f0000#32, 0x04010000#32)
  | .bgtz _ _ => (0xfc1f0000#32, 0x1c000000#32)
  | .blez _ _ => (0xfc1f0000#32, 0x18000000#32)
  | .bltz _ _ => (0xfc1f0000#32, 0x04000000#32)
  | .j _ => (0xfc000000#32, 0x08000000#32)
  | .jal _ => (0xfc000000#32, 0x0c000000#32)
  | .jr _ => (0xfc1fffff#32, 0x00000008#32)
  | .jalr _ _ => (0xfc1f07ff#32, 0x00000009#32)
  | .lw _ _ _ => (0xfc000000#32, 0x8c000000#32)
  | .sw _ _ _ => (0xfc000000#32, 0xac000000#32)
  | .lb _ _ _ => (0xfc000000#32, 0x80000000#32)
  | .lbu _ _ _ => (0xfc000000#32, 0x90000000#32)
  | .sb _ _ _ => (0xfc000000#32, 0xa0000000#32)
  | .syscall => (0xffffffff#32, 0x0000000c#32)
  | .eret => (0xffffffff#32, 0x42000018#32)
  | .mfc0 _ _ => (0xffe007ff#32, 0x40000000#32)
  | .mtc0 _ _ => (0xffe007ff#32, 0x40800000#32)
  | .tlbwi => (0xffffffff#32, 0x42000002#32)

/-! ### The decoder -/

/-- The R-type group, selected by `func` alone (R97, R102). -/
def decodeRGroup (w : Word) : Option Instr :=
  let s := sField w
  let t := tField w
  let d := dField w
  let sa := saField w
  match funcField w with
  | 0b000000#6 => some (.sll t d sa)
  | 0b000010#6 => some (.srl t d sa)
  | 0b000011#6 => some (.sra t d sa)
  | 0b000100#6 => some (.sllv s t d)
  | 0b000110#6 => some (.srlv s t d)
  | 0b000111#6 => some (.srav s t d)
  | 0b001000#6 => some (.jr s)
  | 0b001001#6 => some (.jalr s d)
  | 0b001100#6 => some .syscall
  | 0b010000#6 => some (.mfhi d)
  | 0b010001#6 => some (.mthi s)
  | 0b010010#6 => some (.mflo d)
  | 0b010011#6 => some (.mtlo s)
  | 0b011000#6 => some (.mult s t)
  | 0b100001#6 => some (.addu s t d)
  | 0b100011#6 => some (.subu s t d)
  | 0b100100#6 => some (.and s t d)
  | 0b100101#6 => some (.or s t d)
  | 0b100110#6 => some (.xor s t d)
  | 0b100111#6 => some (.nor s t d)
  | 0b101010#6 => some (.slt s t d)
  | 0b101011#6 => some (.sltu s t d)
  | _ => none

/-- `op = 000001`, selected by `t` (R98). -/
def decodeRegimm (w : Word) : Option Instr :=
  match tField w with
  | 0b00000#5 => some (.bltz (sField w) (immField w))
  | 0b00001#5 => some (.bgez (sField w) (immField w))
  | _ => none

/-- The coprocessor-0 group (R99): tlbwi and eret are whole words (R100), mfc0 and mtc0 are selected by `s`, and every
other combination is reserved. -/
def decodeCop0 (w : Word) : Option Instr :=
  if w = 0x42000002#32 then some .tlbwi
  else if w = 0x42000018#32 then some .eret
  else if sField w = Config.cop0SMfc0 then some (.mfc0 (tField w) (dField w))
  else if sField w = Config.cop0SMtc0 then some (.mtc0 (tField w) (dField w))
  else none

/-- The instruction that the bits the source gives select: `op`, `func`, and `t` or `s` where used (R96 to R99);
`none` is an illegal word (R101). -/
def decodeSource (w : Word) : Option Instr :=
  let s := sField w
  let t := tField w
  let imm := immField w
  match opField w with
  | 0b000000#6 => decodeRGroup w
  | 0b000001#6 => decodeRegimm w
  | 0b000010#6 => some (.j (addressField w))
  | 0b000011#6 => some (.jal (addressField w))
  | 0b000100#6 => some (.beq s t imm)
  | 0b000101#6 => some (.bne s t imm)
  | 0b000110#6 => some (.blez s imm)
  | 0b000111#6 => some (.bgtz s imm)
  | 0b001001#6 => some (.addiu s t imm)
  | 0b001010#6 => some (.slti s t imm)
  | 0b001011#6 => some (.sltiu s t imm)
  | 0b001100#6 => some (.andi s t imm)
  | 0b001101#6 => some (.ori s t imm)
  | 0b001110#6 => some (.xori s t imm)
  | 0b001111#6 => some (.lui t imm)
  | 0b010000#6 => decodeCop0 w
  | 0b100000#6 => some (.lb s t imm)
  | 0b100011#6 => some (.lw s t imm)
  | 0b100100#6 => some (.lbu s t imm)
  | 0b101000#6 => some (.sb s t imm)
  | 0b101011#6 => some (.sw s t imm)
  | _ => none

/-- What a word is. -/
inductive Decoded where
  /-- One of the 46 instructions, every unused field 0 (R96, R102). -/
  | instr (i : Instr)
  /-- An illegal word: executing it raises reserved instruction (R101). -/
  | reserved
  /-- A word that selects an instruction but has a non-zero unused field: it has no specified behaviour (R102, U8). -/
  | unusedFieldSet
  deriving DecidableEq, Repr

/-- The decoder. A word is the instruction that its source bits select if every unused field is 0, that is, if the
encoder gives the word back. Otherwise it has no specified behaviour (R102, STRICT_UNUSED_FIELDS = true); with false
the fields are ignored, but syscall stays an exact word (R100, R102). -/
def decodeWord (w : Word) : Decoded :=
  match decodeSource w with
  | none => .reserved
  | some i =>
    if encode i = w then .instr i
    else if Config.strictUnusedFields || decide (i = .syscall) then .unusedFieldSet
    else .instr i

/-- The word of four bytes, the first at the lowest address (R51, R52). -/
def wordOfBytes (b0 b1 b2 b3 : Byte) : Word := b3 ++ b2 ++ b1 ++ b0

/-- Byte `n` of a word, byte 0 at the lowest address (R51). -/
def byteOfWord (w : Word) (n : Nat) : Byte := w.extractLsb' (8 * n) 8

/-- The decoder on the four bytes of an instruction as memory holds them (R52). -/
def decodeBytes (b0 b1 b2 b3 : Byte) : Decoded := decodeWord (wordOfBytes b0 b1 b2 b3)

/-- The instruction the decoder reads from an opcode-table word of `nbits` bits, stored byte by byte as the hardware
stores it. -/
def decodeTableWord (nbits w : Nat) : Option Instr :=
  let v : Word := BitVec.ofNat 32 (w % 2 ^ nbits)
  match decodeBytes (byteOfWord v 0) (byteOfWord v 1) (byteOfWord v 2) (byteOfWord v 3) with
  | .instr i => some i
  | .reserved => none
  | .unusedFieldSet => none

end Sys2Proof
end

