-- ==== Sys2Proof/Machine/State.lean ====
section
/-!
DEFINITION. The state of the machine as plain data (spec/10_state.md), the exceptions it takes, the reasons why it
stops, and the state right after reset (spec/70_reset_and_hazards.md R230 to R232).
-/
namespace Sys2Proof.Machine

/-- The eight exceptions (spec/60_exceptions.md R180); the four address-related ones carry the address of the access,
which trap entry puts into `badaddr` (R198). -/
inductive Exn where
  /-- Code 0, an interrupt (R181). -/
  | int
  /-- Code 2, TLB miss on load or fetch (R182). -/
  | tlbl (va : Word)
  /-- Code 3, TLB miss on store (R183). -/
  | tlbs (va : Word)
  /-- Code 4, address error on load or fetch (R184). -/
  | adel (va : Word)
  /-- Code 5, address error on store (R185). -/
  | ades (va : Word)
  /-- Code 8, syscall (R187). -/
  | sys
  /-- Code 10, reserved instruction (R188). -/
  | ri
  /-- Code 23, debug (R189). -/
  | debug
  deriving DecidableEq, Repr

/-- Why the machine stops with a fault. -/
inductive Fault where
  /-- Raised by a load, store or fetch whose physical address lies in none of the five device ranges: nothing answers
  there and the spec has no bus-error exception (R74, U4, log 22). Safe: the model stops where the hardware may go on. -/
  | noDevice (pa : Word)
  deriving DecidableEq, Repr

/-- Why an instruction is given no meaning. Every reason but the first is a behaviour that
spec/93_implementation_defined.md leaves undefined with the treatment `refuse`. All are safe: the model stops where the
hardware may go on. -/
inductive Refusal where
  /-- Raised by an arm of `exec` whose instruction has no meaning yet. Safe. -/
  | notModelled (mnemonic : String)
  /-- Raised by the step on a word that selects an instruction but has a non-zero unused field (R102, U8, log 10). Safe. -/
  | unusedFieldSet
  /-- Raised by mfc0 and mtc0 when `d` names none of the 13 registers (R33, U2, log 26). Safe. -/
  | cp0NumberUnnamed
  /-- Raised by a translation for which two or more TLB entries hold the page (R65, U3, log 21). Safe. -/
  | tlbMultipleMatch
  /-- Raised by the ten branches and jumps and by eret in a delay slot (R154, R173, U7, log 24). Safe. -/
  | controlInDelaySlot
  /-- Raised by eret in user mode (R173, U10, conflict C12, log 25). Safe. -/
  | eretInUserMode
  /-- Raised by a fetch of a word that one of the last IFETCH_HAZARD_WINDOW instructions stored (R81, U14, log 14). Safe. -/
  | fetchAfterStore
  /-- Raised by a store to ROM (R75, U5, log 23). Safe. -/
  | romWrite
  /-- Raised by a byte load from ROM (R75, U5, log 23). Safe. -/
  | romByteRead
  /-- Raised by a store to Flash (R75, U6, conflict C13, log 23). Safe. -/
  | flashWrite
  /-- Raised by a byte load from Flash (R75, U5, log 23). Safe. -/
  | flashByteRead
  /-- Raised by a load or fetch from the VGA controller (R75, U5, U16, log 23). Safe. -/
  | vgaRead
  /-- Raised by a word store to the VGA controller (R75, U5, log 23). Safe. -/
  | vgaWordWrite
  /-- Raised by a word load, word store or fetch at the serial registers (R75, U13, log 23). Safe. -/
  | serialWordAccess
  /-- Raised by a byte access at a serial offset other than 0 and 4 (R211, U13, log 23). Safe. -/
  | serialOffset
  /-- Raised by a byte store to the serial status register (R211, U13, log 23). Safe. -/
  | serialStatusWrite
  deriving DecidableEq, Repr

/-- The result of an operation within one instruction: a value, an exception to take, or a stop. -/
inductive Res (α : Type) where
  | ok (a : α)
  | raise (e : Exn)
  | fault (f : Fault)
  | refuse (r : Refusal)
  deriving DecidableEq, Repr

/-- The 13 registers of coprocessor 0, 32 bits each (R18); the fields of each stand in R20 to R32. -/
structure Cp0 where
  /-- Register 0 (R20). -/
  index : Word
  /-- Register 2 (R21). -/
  entrylo0 : Word
  /-- Register 3 (R22). -/
  entrylo1 : Word
  /-- Register 8 (R24). -/
  badaddr : Word
  /-- Register 9 (R25). -/
  count : Word
  /-- Register 10 (R23). -/
  entryhi : Word
  /-- Register 11 (R26). -/
  compare : Word
  /-- Register 12 (R27). -/
  status : Word
  /-- Register 13 (R28). -/
  cause : Word
  /-- Register 14 (R29). -/
  epc : Word
  /-- Register 15 (R30). -/
  ebase : Word
  /-- Register 18 (R31). -/
  watchlo : Word
  /-- Register 19 (R32). -/
  watchhi : Word
  deriving DecidableEq, Repr

/-- The names of the 13 registers of coprocessor 0 (R18). -/
inductive Cp0Reg where
  | index | entrylo0 | entrylo1 | badaddr | count | entryhi | compare | status | cause | epc | ebase | watchlo | watchhi
  deriving DecidableEq, Repr

/-- One TLB entry: a pair of consecutive virtual pages, the even page (0) and the odd page (1) (R34). -/
structure TlbEntry where
  vpn : BitVec 19
  ppn0 : BitVec 20
  valid0 : Bool
  write0 : Bool
  ppn1 : BitVec 20
  valid1 : Bool
  write1 : Bool
  deriving DecidableEq, Repr

/-- Memory by physical address, addresses strictly rising, no entry equal to what an unlisted address reads as
(`Memory.wf`). It holds RAM, ROM, the Flash cells and the VGA characters (R69 to R73). -/
abbrev Memory := List Host.Cell

/-- The state of the machine. -/
structure State where
  /-- The general registers x[0] to x[31] (R10); x[0] holds 0 (R11). -/
  regs : Vector Word 32
  /-- The upper multiply register (R12). -/
  hi : Word
  /-- The lower multiply register (R12). -/
  lo : Word
  /-- The address of the instruction being executed (R13). -/
  pc : Word
  /-- The address of the instruction executed next (R14). -/
  npc : Word
  /-- The instruction at `pc` stands in a delay slot (R14). -/
  ds : Bool
  /-- Coprocessor 0 (R18). -/
  cp0 : Cp0
  /-- The TLB (R34). -/
  tlb : Vector TlbEntry 16
  /-- The interrupt lines as sampled in the current step (R35, R186). -/
  irq : BitVec 8
  /-- `count` has met `compare` since `compare` was last written; read only under TIMER_IRQ_HOLD (R210). -/
  timerHeld : Bool
  /-- RAM, ROM, Flash cells and VGA characters by physical address (R36, R67). -/
  mem : Memory
  /-- The serial controller's input buffer, oldest byte first (R36, R211). -/
  serialIn : List Byte
  /-- The bytes sent to the serial output, oldest first (R36, R213). -/
  serialOut : List Byte
  /-- The model's own: what the outside world sends to the serial controller in the coming steps (R215, log 18). -/
  arrivals : List (Option Byte)
  /-- The model's own: the number of steps taken, to which the free values are applied (log 19). -/
  ticks : Nat
  /-- The model's own: the number of instructions begun (R81, log 14). -/
  insns : Nat
  /-- The model's own: RAM words by number, each with the instruction that last stored to it (R81, log 14). -/
  storeLog : List (Nat × Nat)
  deriving DecidableEq, Repr

/-- A TLB entry after reset: a page pair that no lookup presents, nothing valid. DESIGN CHOICE: the spec leaves the
TLB's reset content open; this is the start state of its test vectors (R231, log 3). -/
def resetTlbEntry (vpn : BitVec 19) : TlbEntry :=
  { vpn := vpn, ppn0 := 0, valid0 := false, write0 := false, ppn1 := 0, valid1 := false, write1 := false }

/-- The 16 TLB entries after reset (log 3). -/
def resetTlb : Vector TlbEntry 16 :=
  #v[resetTlbEntry 0x40000, resetTlbEntry 0x40001, resetTlbEntry 0x40002, resetTlbEntry 0x40003,
     resetTlbEntry 0x40004, resetTlbEntry 0x40005, resetTlbEntry 0x40006, resetTlbEntry 0x40007,
     resetTlbEntry 0x40008, resetTlbEntry 0x40009, resetTlbEntry 0x4000a, resetTlbEntry 0x4000b,
     resetTlbEntry 0x4000c, resetTlbEntry 0x4000d, resetTlbEntry 0x4000e, resetTlbEntry 0x4000f]

/-- Coprocessor 0 after reset: `um` = 0 and `ie` = 0 (R230); everything else DESIGN CHOICE (R231, log 2): watchlo and
watchhi 1, which differs from every pc that can be executed, as item 2 of R233 asks of a model, and the rest 0. -/
def resetCp0 : Cp0 :=
  { index := 0, entrylo0 := 0, entrylo1 := 0, badaddr := 0, count := 0, entryhi := 0, compare := 0, status := 0,
    cause := 0, epc := 0, ebase := 0, watchlo := 1, watchhi := 1 }

/-- The machine right after reset: it begins at 0xbfc00000, in kernel mode, all interrupts off, x[0] = 0 (R230); what
R231 leaves open has the value that the logs 1 to 5 name. -/
def State.reset : State :=
  { regs := Vector.replicate 32 0
    hi := 0
    lo := 0
    pc := 0xbfc00000
    npc := 0xbfc00004
    ds := false
    cp0 := resetCp0
    tlb := resetTlb
    irq := 0
    timerHeld := false
    mem := []
    serialIn := []
    serialOut := []
    arrivals := []
    ticks := 0
    insns := 0
    storeLog := [] }

end Sys2Proof.Machine
end

