-- ==== Sys2Proof/Machine/Memory.lean ====
section
/-!
DEFINITION. Memory as a sorted list of (physical address, byte) pairs: reading and writing one byte, its canonical
form, and the log of stores in the same sorted shape.
-/
namespace Sys2Proof.Machine

/-- What an address that is not listed reads as. DESIGN CHOICE: the spec leaves the contents of RAM, VGA memory, ROM
and Flash at reset open (R231, R232, log 4). -/
def unlistedByte : Byte := 0#8

/-- The byte at address `a`. -/
def memGet : Memory → Nat → Byte
  | [], _ => unlistedByte
  | (a', b) :: m, a => if a = a' then b else memGet m a

/-- Memory with byte `b` at address `a`, in canonical form: a byte equal to the unlisted one is not listed. -/
def memPut : Memory → Nat → Byte → Memory
  | [], a, b => if b = unlistedByte then [] else [(a, b)]
  | (a', b') :: m, a, b =>
    if a < a' then if b = unlistedByte then (a', b') :: m else (a, b) :: (a', b') :: m
    else if a = a' then if b = unlistedByte then m else (a, b) :: m
    else (a', b') :: memPut m a b

/-- Every listed address is above `a`. -/
def allAbove {α : Type} (a : Nat) : List (Nat × α) → Bool
  | [] => true
  | (a', _) :: m => decide (a < a') && allAbove a m

/-- The addresses are strictly rising. -/
def rising {α : Type} : List (Nat × α) → Bool
  | [] => true
  | (a, _) :: m => allAbove a m && rising m

/-- No entry equals what an unlisted address reads as. -/
def noneUnlisted : Memory → Bool
  | [] => true
  | (_, b) :: m => (b != unlistedByte) && noneUnlisted m

/-- The canonical form of memory. -/
def Memory.wf (m : Memory) : Bool := rising m && noneUnlisted m

/-- Memory with the word `w` at addresses `a` to `a + 3`, little-endian (R51). -/
def memPutWord (m : Memory) (a : Nat) (w : Word) : Memory :=
  memPut (memPut (memPut (memPut m a (w.extractLsb' 0 8)) (a + 1) (w.extractLsb' 8 8))
    (a + 2) (w.extractLsb' 16 8)) (a + 3) (w.extractLsb' 24 8)

/-- The word at addresses `a` to `a + 3`, little-endian (R51). -/
def memGetWord (m : Memory) (a : Nat) : Word :=
  memGet m (a + 3) ++ memGet m (a + 2) ++ memGet m (a + 1) ++ memGet m a

/-- The number of the instruction that last stored to RAM word `k`, if any did. -/
def logGet : List (Nat × Nat) → Nat → Option Nat
  | [], _ => none
  | (k', n) :: l, k => if k = k' then some n else logGet l k

/-- The log with instruction `n` as the last that stored to RAM word `k`. -/
def logPut : List (Nat × Nat) → Nat → Nat → List (Nat × Nat)
  | [], k, n => [(k, n)]
  | (k', n') :: l, k, n =>
    if k < k' then (k, n) :: (k', n') :: l
    else if k = k' then (k, n) :: l
    else (k', n') :: logPut l k n

/-- The log without RAM word `k`. -/
def logErase : List (Nat × Nat) → Nat → List (Nat × Nat)
  | [], _ => []
  | (k', n') :: l, k => if k = k' then logErase l k else (k', n') :: logErase l k

end Sys2Proof.Machine
end

