-- ==== Sys2Proof/Machine/Operands.lean ====
section
/-!
DEFINITION. How each operand is built (spec/30_encoding.md R95), with the arithmetic that more than one instruction
uses (spec/40_arithmetic.md R118, R131 to R136).
-/
namespace Sys2Proof.Machine

/-- The sign-extended immediate of addiu, slti and the loads and stores (R95). -/
def signExtImm (imm : Imm) : Word := imm.signExtend 32

/-- The zero-extended immediate of andi, ori, xori (R95). -/
def zeroExtImm (imm : Imm) : Word := imm.setWidth 32

/-- The immediate of sltiu: parameter SLTIU_IMM_EXT (R117, conflict C8). -/
def sltiuImm (imm : Imm) : Word :=
  match Config.sltiuImmExt with
  | .zero => zeroExtImm imm
  | .sign => signExtImm imm

/-- The upper immediate of lui, `imm * 65536` (R95, R125). -/
def upperImm (imm : Imm) : Word := imm ++ 0#16

/-- A loaded byte, sign-extended (R163). -/
def signExtByte (b : Byte) : Word := b.signExtend 32

/-- A loaded byte, zero-extended (R164). -/
def zeroExtByte (b : Byte) : Word := b.setWidth 32

/-- The byte a byte store takes from its register: bits 7-0 (R165). -/
def lowByte (w : Word) : Byte := w.extractLsb' 0 8

/-- The amount of a variable shift: the low five bits of the register (R132, decision D4). -/
def shiftAmount (w : Word) : Nat := (w.extractLsb' 0 5).toNat

/-- The effective address of a load or store, modulo 2^32 (R160). -/
def effectiveAddress (base : Word) (imm : Imm) : Word := base + signExtImm imm

/-- The target of a conditional branch at `pc`: `pc + 4` plus the scaled offset (R151, parameter BRANCH_OFFSET_SHIFT). -/
def branchTarget (pc : Word) (imm : Imm) : Word := pc + 4#32 + (signExtImm imm <<< Config.branchOffsetShift)

/-- The target of j and jal at `pc`: within the 256 MB region of `pc + 4` (R147). -/
def jumpTarget (pc : Word) (address : BitVec 26) : Word := (pc + 4#32).extractLsb' 28 4 ++ address ++ 0b00#2

/-- The link value of jal and jalr at `pc` (R148, R150). -/
def linkValue (pc : Word) : Word := pc + 8#32

/-- The signed 64-bit product of mult (R118, decision D3). -/
def signedProduct (a b : Word) : BitVec 64 := BitVec.ofInt 64 (a.toInt * b.toInt)

end Sys2Proof.Machine
end

