-- ==== Sys2Proof/Machine/Ops.lean ====
section
/-!
DEFINITION. The named operations over registers, the program counter and coprocessor 0, taking an exception and
returning from one (spec/10_state.md, spec/60_exceptions.md).
-/
namespace Sys2Proof.Machine

/-- The outcome of a step of this machine. -/
abbrev Out := Host.Outcome State Fault Refusal

/-! ### General registers, `hi` and `lo` -/

/-- x[r]: x[0] reads as 0 at all times (R11). -/
def State.reg (s : State) (r : Reg) : Word := if r = 0#5 then 0#32 else s.regs[r.toNat]'r.isLt

/-- x[r] ← v: a write to x[0] is discarded (R11). -/
def State.setReg (s : State) (r : Reg) (v : Word) : State :=
  if r = 0#5 then s else { s with regs := s.regs.set r.toNat v r.isLt }

/-- hi ← v (R12). -/
def State.setHi (s : State) (v : Word) : State := { s with hi := v }

/-- lo ← v (R12). -/
def State.setLo (s : State) (v : Word) : State := { s with lo := v }

/-! ### The program counter and the delay slot (R15) -/

/-- After an instruction that is no branch or jump: (pc, npc, ds) ← (npc, npc + 4, false). -/
def State.advancePc (s : State) : State := { s with pc := s.npc, npc := s.npc + 4#32, ds := false }

/-- After a branch or jump: (pc, npc, ds) ← (npc, target if taken else npc + 4, true). -/
def State.branchPc (s : State) (taken : Bool) (target : Word) : State :=
  { s with pc := s.npc, npc := if taken then target else s.npc + 4#32, ds := true }

/-- Trap entry and eret: (pc, npc, ds) ← (v, v + 4, false). -/
def State.goto (s : State) (v : Word) : State := { s with pc := v, npc := v + 4#32, ds := false }

/-! ### Coprocessor 0 -/

/-- The CP0 registers replaced. -/
def State.setCp0 (s : State) (c : Cp0) : State := { s with cp0 := c }

/-- Field `im` of status, bits 15-8 (R27). -/
def Cp0.im (c : Cp0) : BitVec 8 := c.status.extractLsb' 8 8
/-- Field `um` of status, bit 4 (R27). -/
def Cp0.um (c : Cp0) : Bool := c.status.getLsbD 4
/-- Field `exl` of status, bit 1 (R27). -/
def Cp0.exl (c : Cp0) : Bool := c.status.getLsbD 1
/-- Field `ie` of status, bit 0 (R27). -/
def Cp0.ie (c : Cp0) : Bool := c.status.getLsbD 0
/-- Field `bd` of cause, bit 31 (R28). -/
def Cp0.bd (c : Cp0) : Bool := c.cause.getLsbD 31
/-- Field `ip` of cause, bits 15-8 (R28). -/
def Cp0.ip (c : Cp0) : BitVec 8 := c.cause.extractLsb' 8 8
/-- Field `ec` of cause, bits 6-2 (R28). -/
def Cp0.ec (c : Cp0) : BitVec 5 := c.cause.extractLsb' 2 5

/-- status with field `exl` replaced and every other bit kept (R27). -/
def statusWithExl (status : Word) (exl : Bool) : Word :=
  status.extractLsb' 2 30 ++ BitVec.ofBool exl ++ status.extractLsb' 0 1

/-- cause with its three fields replaced and the undescribed bits kept (R28, R199). -/
def causeWith (cause : Word) (bd : Bool) (ip : BitVec 8) (ec : BitVec 5) : Word :=
  BitVec.ofBool bd ++ cause.extractLsb' 16 15 ++ ip ++ cause.extractLsb' 7 1 ++ ec ++ cause.extractLsb' 0 2

/-- The register with a number, if one of the 13 has it (R18, R33). -/
def cp0RegOfNumber (d : Reg) : Option Cp0Reg :=
  match d with
  | 0#5 => some .index
  | 2#5 => some .entrylo0
  | 3#5 => some .entrylo1
  | 8#5 => some .badaddr
  | 9#5 => some .count
  | 10#5 => some .entryhi
  | 11#5 => some .compare
  | 12#5 => some .status
  | 13#5 => some .cause
  | 14#5 => some .epc
  | 15#5 => some .ebase
  | 18#5 => some .watchlo
  | 19#5 => some .watchhi
  | _ => none

/-- The word a CP0 register holds. -/
def cp0Get (c : Cp0) : Cp0Reg → Word
  | .index => c.index
  | .entrylo0 => c.entrylo0
  | .entrylo1 => c.entrylo1
  | .badaddr => c.badaddr
  | .count => c.count
  | .entryhi => c.entryhi
  | .compare => c.compare
  | .status => c.status
  | .cause => c.cause
  | .epc => c.epc
  | .ebase => c.ebase
  | .watchlo => c.watchlo
  | .watchhi => c.watchhi

/-- CP0 with all 32 bits of one register written: every register is writable (R18, R175). -/
def cp0Set (c : Cp0) (r : Cp0Reg) (v : Word) : Cp0 :=
  match r with
  | .index => { c with index := v }
  | .entrylo0 => { c with entrylo0 := v }
  | .entrylo1 => { c with entrylo1 := v }
  | .badaddr => { c with badaddr := v }
  | .count => { c with count := v }
  | .entryhi => { c with entryhi := v }
  | .compare => { c with compare := v }
  | .status => { c with status := v }
  | .cause => { c with cause := v }
  | .epc => { c with epc := v }
  | .ebase => { c with ebase := v }
  | .watchlo => { c with watchlo := v }
  | .watchhi => { c with watchhi := v }

/-- The bits of a CP0 register that the spec describes (R20 to R32). -/
def cp0DescribedBits : Cp0Reg → Word
  | .index => 0x0000000f#32
  | .entrylo0 => 0x03ffffc6#32
  | .entrylo1 => 0x03ffffc6#32
  | .entryhi => 0xffffe000#32
  | .status => 0x0000ff13#32
  | .cause => 0x8000ff7c#32
  | .badaddr => 0xffffffff#32
  | .count => 0xffffffff#32
  | .compare => 0xffffffff#32
  | .epc => 0xffffffff#32
  | .ebase => 0xffffffff#32
  | .watchlo => 0xffffffff#32
  | .watchhi => 0xffffffff#32

/-- The value mfc0 reads: the described bits as they are held, the others free (R19, U1, log 17). -/
def readCp0 (s : State) (r : Cp0Reg) : Word :=
  if cp0DescribedBits r = 0xffffffff#32 then cp0Get s.cp0 r
  else (cp0Get s.cp0 r &&& cp0DescribedBits r) |||
    (Config.cp0UndescribedBits s.ticks &&& ~~~ cp0DescribedBits r)

/-- The timer request withdrawn (R210). -/
def State.dropTimerRequest (s : State) : State := { s with timerHeld := false }

/-- CP0[r] ← v; a write to compare withdraws a held timer request (R175, R210). -/
def writeCp0 (s : State) (r : Cp0Reg) (v : Word) : State :=
  if r = .compare then (s.setCp0 (cp0Set s.cp0 r v)).dropTimerRequest else s.setCp0 (cp0Set s.cp0 r v)

/-- User mode: `um` = 1 and `exl` = 0 (R205). -/
def State.userMode (s : State) : Bool := s.cp0.um && !s.cp0.exl

/-! ### Taking an exception (R195) -/

/-- The exception code (R180). -/
def exnCode : Exn → BitVec 5
  | .int => 0#5
  | .tlbl _ => 2#5
  | .tlbs _ => 3#5
  | .adel _ => 4#5
  | .ades _ => 5#5
  | .sys => 8#5
  | .ri => 10#5
  | .debug => 23#5

/-- The entry point: `ebase` for a TLB miss, `ebase + 0x180` for the rest (R196). -/
def exnVector (ebase : Word) : Exn → Word
  | .int => ebase + 0x180#32
  | .tlbl _ => ebase
  | .tlbs _ => ebase
  | .adel _ => ebase + 0x180#32
  | .ades _ => ebase + 0x180#32
  | .sys => ebase + 0x180#32
  | .ri => ebase + 0x180#32
  | .debug => ebase + 0x180#32

/-- badaddr after an exception: written by the address-related ones alone (R198). -/
def exnBadaddr (old : Word) : Exn → Word
  | .int => old
  | .tlbl va => va
  | .tlbs va => va
  | .adel va => va
  | .ades va => va
  | .sys => old
  | .ri => old
  | .debug => old

/-- epc for an exception at the current instruction: the branch before it when it stands in a delay slot (R195). -/
def restartAddress (s : State) : Word := if s.ds then s.pc - 4#32 else s.pc

/-- An exception taken while `exl` is 1 keeps epc and bd: only where NESTED_TRAP_UPDATES_EPC is false (R200, log 11). -/
def keepsEpc (s : State) : Bool := s.cp0.exl && !Config.nestedTrapUpdatesEpc

/-- The CP0 registers after trap entry (R195, R198, R199). -/
def trapCp0 (e : Exn) (s : State) : Cp0 :=
  { s.cp0 with
    epc := if keepsEpc s then s.cp0.epc else restartAddress s
    cause := causeWith s.cp0.cause (if keepsEpc s then s.cp0.bd else s.ds) s.irq (exnCode e)
    badaddr := exnBadaddr s.cp0.badaddr e
    status := statusWithExl s.cp0.status true }

/-- Trap entry: TrapEntry(c, a) of R195. -/
def takeException (e : Exn) (s : State) : State :=
  (s.setCp0 (trapCp0 e s)).goto (if keepsEpc s then s.cp0.ebase + 0x180#32 else exnVector s.cp0.ebase e)

/-- The return from an exception: `exl` ← 0 and on at epc, with no delay slot (R173, R201). -/
def returnFromException (s : State) : State :=
  (s.setCp0 { s.cp0 with status := statusWithExl s.cp0.status false }).goto s.cp0.epc

/-! ### Results of operations -/

/-- Carry on with the value of an operation. -/
def Res.bind {α β : Type} (r : Res α) (f : α → Res β) : Res β :=
  match r with
  | .ok a => f a
  | .raise e => .raise e
  | .fault x => .fault x
  | .refuse x => .refuse x

/-- The outcome of an instruction begun in `s`: an exception it raises abandons it, with no other effect, and is taken
in `s` (00_scope.md section 6.3, R197). -/
def finish (s : State) : Res State → Out
  | .ok s' => .next s'
  | .raise e => .next (takeException e s)
  | .fault x => .fault x
  | .refuse x => .refused x

/-- An instruction that writes one general register and goes on. -/
def writeBack (s : State) (r : Reg) (v : Word) : Out := .next ((s.setReg r v).advancePc)

/-- A branch or jump begun in `s`, to answer `s'`: refused in a delay slot (R154, U7, log 24). -/
def controlTransfer (s s' : State) : Out := if s.ds then .refused .controlInDelaySlot else .next s'

/-- A privileged operation: reserved instruction in user mode, with no other effect (R172). -/
def privileged (s : State) (r : Res State) : Out := finish s (if s.userMode then .raise .ri else r)

end Sys2Proof.Machine
end

