-- ==== Sys2Proof/Machine/Clock.lean ====
section
/-!
DEFINITION. What happens around the instruction of a step: the timer and the serial arrivals of the step's cycles, the
interrupt lines they drive, and the two events tested before the fetch (spec/60_exceptions.md R186 to R194, R208 to
R210, R215, R220).
-/
namespace Sys2Proof.Machine

/-- `compare` is among the k values that `count` passes through, count + 1 to count + k (R210, log 20). -/
def timerReached (count compare : Word) (k : Nat) : Bool := decide ((compare - count - 1#32).toNat < k)

/-- The interrupt lines: line 7 the timer, line 4 the serial controller, every other line 0 (R186, R190). -/
def irqLines (timer serial : Bool) : BitVec 8 := BitVec.ofBool timer ++ 0#2 ++ BitVec.ofBool serial ++ 0#4

/-- The serial buffer after a byte arrives at step `n`, and whether the byte was written into it; a full buffer loses
the arriving or its oldest byte (R211, R215, U15, log 15). -/
def receiveByte (n : Nat) (q : List Byte) (b : Byte) : List Byte × Bool :=
  if q.length < Config.serialBufCapacity then (q ++ [b], true)
  else if Config.serialDropsArriving n then (q, false)
  else ((q ++ [b]).drop 1, true)

/-- The serial buffer after the arrivals of step `n`, and whether a byte was written into it. -/
def receive (n : Nat) (q : List Byte) : List (Option Byte) → List Byte × Bool
  | [] => (q, false)
  | none :: _ => (q, false)
  | some b :: _ => receiveByte n q b

/-- The timer and the outside world during the cycles of one step, before the instruction: `count` advances by k ≥ 1
(R208), a byte may arrive (R215), and the lines are sampled (R191, R192). -/
def State.passTime (s : State) : State :=
  let k := Config.cyclesPerStep s.ticks
  let reached := timerReached s.cp0.count s.cp0.compare k
  let received := receive s.ticks s.serialIn s.arrivals
  { s with
    cp0 := { s.cp0 with count := s.cp0.count + BitVec.ofNat 32 k }
    irq := irqLines (reached || (Config.timerIrqHold && s.timerHeld)) received.2
    timerHeld := s.timerHeld || reached
    serialIn := received.1
    arrivals := s.arrivals.tail
    ticks := s.ticks + 1 }

/-- The interrupt condition (R191). -/
def State.interruptDue (s : State) : Bool := s.cp0.ie && !s.cp0.exl && (s.irq &&& s.cp0.im != 0#8)

/-- The debug condition: `pc` equals watchlo or watchhi on all 32 bits, never masked (R189, R220). -/
def State.watchHit (s : State) : Bool := s.pc = s.cp0.watchlo || s.pc = s.cp0.watchhi

/-- One more instruction begun: fetched and about to execute, an illegal one among them (R81, log 14). -/
def State.beginInsn (s : State) : State := { s with insns := s.insns + 1 }

end Sys2Proof.Machine
end

