-- ==== Sys2Proof/Machine/Flags.lean ====
section
/-!
DEFINITION. The machine has no condition codes and no flags (spec/10_state.md R17): comparisons write 0 or 1 into a
general register and branches compare registers directly. This file holds those comparisons.
-/
namespace Sys2Proof.Machine

/-- The word 1 or 0 that a set-on-less-than writes (R137). -/
def truthWord (c : Bool) : Word := if c then 1#32 else 0#32

/-- Less than on two's-complement values (R114, R115). -/
def lessSigned (a b : Word) : Bool := decide (a.toInt < b.toInt)

/-- Less than on unsigned values (R116, R117). -/
def lessUnsigned (a b : Word) : Bool := decide (a.toNat < b.toNat)

/-- `signed(a) >= 0`: bit 31 is 0 (R143). -/
def atLeastZero (a : Word) : Bool := decide (0 ≤ a.toInt)

/-- `signed(a) > 0` (R144). -/
def aboveZero (a : Word) : Bool := decide (0 < a.toInt)

/-- `signed(a) <= 0` (R145). -/
def atMostZero (a : Word) : Bool := decide (a.toInt ≤ 0)

/-- `signed(a) < 0`: bit 31 is 1 (R146). -/
def belowZero (a : Word) : Bool := decide (a.toInt < 0)

end Sys2Proof.Machine
end

