-- ==== Sys2Proof/Machine/Arithmetic.lean ====
section
/-!
DEFINITION. The 26 arithmetic, logic, shift and multiply-register instructions (spec/40_arithmetic.md). None raises an
exception of its own and none depends on the mode (R110).
-/
namespace Sys2Proof.Machine

/-- `addu $d, $s, $t` (R111). -/
def execAddu (rs rt rd : Reg) (s : State) : Out := writeBack s rd (s.reg rs + s.reg rt)

/-- `addiu $t, $s, imm` (R112). -/
def execAddiu (rs rt : Reg) (imm : Imm) (s : State) : Out := writeBack s rt (s.reg rs + signExtImm imm)

/-- `subu $d, $s, $t` (R113). -/
def execSubu (rs rt rd : Reg) (s : State) : Out := writeBack s rd (s.reg rs - s.reg rt)

/-- `slt $d, $s, $t` (R114). -/
def execSlt (rs rt rd : Reg) (s : State) : Out := writeBack s rd (truthWord (lessSigned (s.reg rs) (s.reg rt)))

/-- `slti $t, $s, imm` (R115). -/
def execSlti (rs rt : Reg) (imm : Imm) (s : State) : Out :=
  writeBack s rt (truthWord (lessSigned (s.reg rs) (signExtImm imm)))

/-- `sltu $d, $s, $t` (R116). -/
def execSltu (rs rt rd : Reg) (s : State) : Out := writeBack s rd (truthWord (lessUnsigned (s.reg rs) (s.reg rt)))

/-- `sltiu $t, $s, imm` (R117). -/
def execSltiu (rs rt : Reg) (imm : Imm) (s : State) : Out :=
  writeBack s rt (truthWord (lessUnsigned (s.reg rs) (sltiuImm imm)))

/-- `mult $s, $t`: {hi, lo} ← the signed 64-bit product (R118). -/
def execMult (rs rt : Reg) (s : State) : Out :=
  let p := signedProduct (s.reg rs) (s.reg rt)
  .next (((s.setHi (p.extractLsb' 32 32)).setLo (p.extractLsb' 0 32)).advancePc)

/-- `mflo $d` (R119). -/
def execMflo (rd : Reg) (s : State) : Out := writeBack s rd s.lo

/-- `mtlo $s` (R120). -/
def execMtlo (rs : Reg) (s : State) : Out := .next ((s.setLo (s.reg rs)).advancePc)

/-- `mfhi $d` (R121). -/
def execMfhi (rd : Reg) (s : State) : Out := writeBack s rd s.hi

/-- `mthi $s` (R122). -/
def execMthi (rs : Reg) (s : State) : Out := .next ((s.setHi (s.reg rs)).advancePc)

/-- `and $d, $s, $t` (R123). -/
def execAnd (rs rt rd : Reg) (s : State) : Out := writeBack s rd (s.reg rs &&& s.reg rt)

/-- `andi $t, $s, imm` (R124). -/
def execAndi (rs rt : Reg) (imm : Imm) (s : State) : Out := writeBack s rt (s.reg rs &&& zeroExtImm imm)

/-- `lui $t, imm` (R125). -/
def execLui (rt : Reg) (imm : Imm) (s : State) : Out := writeBack s rt (upperImm imm)

/-- `nor $d, $s, $t` (R126). -/
def execNor (rs rt rd : Reg) (s : State) : Out := writeBack s rd (~~~ (s.reg rs ||| s.reg rt))

/-- `or $d, $s, $t` (R127). -/
def execOr (rs rt rd : Reg) (s : State) : Out := writeBack s rd (s.reg rs ||| s.reg rt)

/-- `ori $t, $s, imm` (R128). -/
def execOri (rs rt : Reg) (imm : Imm) (s : State) : Out := writeBack s rt (s.reg rs ||| zeroExtImm imm)

/-- `xor $d, $s, $t` (R129). -/
def execXor (rs rt rd : Reg) (s : State) : Out := writeBack s rd (s.reg rs ^^^ s.reg rt)

/-- `xori $t, $s, imm` (R130). -/
def execXori (rs rt : Reg) (imm : Imm) (s : State) : Out := writeBack s rt (s.reg rs ^^^ zeroExtImm imm)

/-- `sll $d, $t, sa` (R131). -/
def execSll (rt rd : Reg) (sa : BitVec 5) (s : State) : Out := writeBack s rd (s.reg rt <<< sa.toNat)

/-- `sllv $d, $t, $s` (R132). -/
def execSllv (rs rt rd : Reg) (s : State) : Out := writeBack s rd (s.reg rt <<< shiftAmount (s.reg rs))

/-- `sra $d, $t, sa` (R133). -/
def execSra (rt rd : Reg) (sa : BitVec 5) (s : State) : Out := writeBack s rd ((s.reg rt).sshiftRight sa.toNat)

/-- `srav $d, $t, $s` (R134). -/
def execSrav (rs rt rd : Reg) (s : State) : Out :=
  writeBack s rd ((s.reg rt).sshiftRight (shiftAmount (s.reg rs)))

/-- `srl $d, $t, sa` (R135). -/
def execSrl (rt rd : Reg) (sa : BitVec 5) (s : State) : Out := writeBack s rd (s.reg rt >>> sa.toNat)

/-- `srlv $d, $t, $s` (R136). -/
def execSrlv (rs rt rd : Reg) (s : State) : Out := writeBack s rd (s.reg rt >>> shiftAmount (s.reg rs))

end Sys2Proof.Machine
end

