-- ==== Sys2Proof/Machine/Branch.lean ====
section
/-!
DEFINITION. The 10 branch and jump instructions, each with one delay slot (spec/41_branch.md). In a delay slot none of
them has a specified behaviour (R154).
-/
namespace Sys2Proof.Machine

/-- `beq $s, $t, label` (R141). -/
def execBeq (rs rt : Reg) (imm : Imm) (s : State) : Out :=
  controlTransfer s (s.branchPc (s.reg rs == s.reg rt) (branchTarget s.pc imm))

/-- `bne $s, $t, label` (R142). -/
def execBne (rs rt : Reg) (imm : Imm) (s : State) : Out :=
  controlTransfer s (s.branchPc (s.reg rs != s.reg rt) (branchTarget s.pc imm))

/-- `bgez $s, label` (R143). -/
def execBgez (rs : Reg) (imm : Imm) (s : State) : Out :=
  controlTransfer s (s.branchPc (atLeastZero (s.reg rs)) (branchTarget s.pc imm))

/-- `bgtz $s, label` (R144). -/
def execBgtz (rs : Reg) (imm : Imm) (s : State) : Out :=
  controlTransfer s (s.branchPc (aboveZero (s.reg rs)) (branchTarget s.pc imm))

/-- `blez $s, label` (R145). -/
def execBlez (rs : Reg) (imm : Imm) (s : State) : Out :=
  controlTransfer s (s.branchPc (atMostZero (s.reg rs)) (branchTarget s.pc imm))

/-- `bltz $s, label` (R146). -/
def execBltz (rs : Reg) (imm : Imm) (s : State) : Out :=
  controlTransfer s (s.branchPc (belowZero (s.reg rs)) (branchTarget s.pc imm))

/-- `j label` (R147). -/
def execJ (address : BitVec 26) (s : State) : Out :=
  controlTransfer s (s.branchPc true (jumpTarget s.pc address))

/-- `jal label`: the link register is x[31] (R148). -/
def execJal (address : BitVec 26) (s : State) : Out :=
  controlTransfer s ((s.setReg 31#5 (linkValue s.pc)).branchPc true (jumpTarget s.pc address))

/-- `jr $s` (R149). -/
def execJr (rs : Reg) (s : State) : Out := controlTransfer s (s.branchPc true (s.reg rs))

/-- `jalr $d, $s`: the target is read before the link is written (R150). -/
def execJalr (rs rd : Reg) (s : State) : Out :=
  controlTransfer s ((s.setReg rd (linkValue s.pc)).branchPc true (s.reg rs))

end Sys2Proof.Machine
end

