-- ==== Sys2Proof/Machine/Devices.lean ====
section
/-!
DEFINITION. The physical address map and the devices behind it (spec/20_memory.md R67 to R75,
spec/60_exceptions.md R211 to R219).
-/
namespace Sys2Proof.Machine

/-- The five devices of the physical address map (R67). -/
inductive Device where
  | ram
  | vga
  | flash
  | serial
  | rom
  deriving DecidableEq, Repr

/-- The device whose range contains a physical address, if any does (R67, R68). -/
def deviceAt (pa : Word) : Option Device :=
  if pa.toNat ≤ 0x003fffff then some .ram
  else if 0x10000000 ≤ pa.toNat ∧ pa.toNat ≤ 0x10000fff then some .vga
  else if 0x1e000000 ≤ pa.toNat ∧ pa.toNat ≤ 0x1effffff then some .flash
  else if 0x1fd003f8 ≤ pa.toNat ∧ pa.toNat ≤ 0x1fd003ff then some .serial
  else if 0x1fc00000 ≤ pa.toNat ∧ pa.toNat ≤ 0x1fc001ff then some .rom
  else none

/-- The offset of a serial register in its region, whose base 0x1fd003f8 is a multiple of 8 (R72). -/
def serialOffset (pa : Word) : BitVec 3 := pa.extractLsb' 0 3

/-- The offset in the VGA region, whose base 0x10000000 is a multiple of 4096 (R73). -/
def vgaOffset (pa : Word) : BitVec 12 := pa.extractLsb' 0 12

/-- Memory replaced. -/
def State.setMem (s : State) (m : Memory) : State := { s with mem := m }

/-- The serial input buffer replaced. -/
def State.setSerialIn (s : State) (q : List Byte) : State := { s with serialIn := q }

/-- A byte sent to the serial output (R213). -/
def State.sendSerial (s : State) (b : Byte) : State := { s with serialOut := s.serialOut ++ [b] }

/-- The RAM word at `pa` marked as stored by the current instruction (R81, log 14). -/
def State.logStore (s : State) (pa : Word) : State :=
  { s with storeLog := logPut s.storeLog (pa.toNat / 4) s.insns }

/-- A read of the serial data register: the oldest byte, which it removes, or 0xff when the buffer is empty (R212). -/
def readSerialData (s : State) : Byte × State :=
  match s.serialIn with
  | [] => (0xff#8, s)
  | b :: q => (b, s.setSerialIn q)

/-- A read of the serial status register: whether the buffer holds data, in a format the spec leaves open; no side
effect (R214, log 16). -/
def readSerialStatus (s : State) : Byte := Config.serialStatusByte s.ticks (!s.serialIn.isEmpty)

/-- PhysRead(pa, 1) (R68 to R75). -/
def physReadByte (s : State) (pa : Word) : Res (Byte × State) :=
  match deviceAt pa with
  | none => .fault (.noDevice pa)
  | some .ram => .ok (memGet s.mem pa.toNat, s)
  | some .vga => .refuse .vgaRead
  | some .flash => .refuse .flashByteRead
  | some .serial =>
    if serialOffset pa = 0#3 then .ok (readSerialData s)
    else if serialOffset pa = 4#3 then .ok (readSerialStatus s, s)
    else .refuse .serialOffset
  | some .rom => .refuse .romByteRead

/-- PhysRead(pa, 4), `pa` a multiple of 4 (R68 to R75). A Flash word is one 16-bit cell, its upper half 0 (R71). -/
def physReadWord (s : State) (pa : Word) : Res Word :=
  match deviceAt pa with
  | none => .fault (.noDevice pa)
  | some .ram => .ok (memGetWord s.mem pa.toNat)
  | some .vga => .refuse .vgaRead
  | some .flash => .ok (0#16 ++ memGet s.mem (pa.toNat + 1) ++ memGet s.mem pa.toNat)
  | some .serial => .refuse .serialWordAccess
  | some .rom => .ok (memGetWord s.mem pa.toNat)

/-- A byte written to the VGA controller: the 2400 character cells hold it, the rest of the range has no effect a
program can observe (R216, U16, log 27). -/
def writeVgaByte (s : State) (pa : Word) (b : Byte) : State :=
  if (vgaOffset pa).toNat < 2400 then s.setMem (memPut s.mem pa.toNat b) else s

/-- PhysWrite(pa, 1, b) (R68 to R75). -/
def physWriteByte (s : State) (pa : Word) (b : Byte) : Res State :=
  match deviceAt pa with
  | none => .fault (.noDevice pa)
  | some .ram => .ok ((s.setMem (memPut s.mem pa.toNat b)).logStore pa)
  | some .vga => .ok (writeVgaByte s pa b)
  | some .flash => .refuse .flashWrite
  | some .serial =>
    if serialOffset pa = 0#3 then .ok (s.sendSerial b)
    else if serialOffset pa = 4#3 then .refuse .serialStatusWrite
    else .refuse .serialOffset
  | some .rom => .refuse .romWrite

/-- PhysWrite(pa, 4, w), `pa` a multiple of 4 (R68 to R75). -/
def physWriteWord (s : State) (pa : Word) (w : Word) : Res State :=
  match deviceAt pa with
  | none => .fault (.noDevice pa)
  | some .ram => .ok ((s.setMem (memPutWord s.mem pa.toNat w)).logStore pa)
  | some .vga => .refuse .vgaWordWrite
  | some .flash => .refuse .flashWrite
  | some .serial => .refuse .serialWordAccess
  | some .rom => .refuse .romWrite

end Sys2Proof.Machine
end

