-- ==== Sys2Proof/Machine/Mmu.lean ====
section
/-!
DEFINITION. Address translation, the checked loads and stores, and instruction fetch (spec/20_memory.md R54 to R66,
R81).
-/
namespace Sys2Proof.Machine

/-- The kind of an access (R60). -/
inductive AccessKind where
  | fetch
  | load
  | store
  deriving DecidableEq, Repr

/-- Address error of an access: AdES for a store, AdEL for a load or fetch (R54, R57, R64). -/
def addressError (kind : AccessKind) (va : Word) : Exn :=
  match kind with
  | .fetch => .adel va
  | .load => .adel va
  | .store => .ades va

/-- TLB miss of an access: TLBS for a store, TLBL for a load or fetch (R60, R64). -/
def tlbMiss (kind : AccessKind) (va : Word) : Exn :=
  match kind with
  | .fetch => .tlbl va
  | .load => .tlbl va
  | .store => .tlbs va

/-- Bit 31 is 1: a kernel address (R57). -/
def kernelAddress (va : Word) : Bool := va.getLsbD 31

/-- `va[31:30] = 0b10`: 0x80000000 to 0xbfffffff, mapped linearly (R58). -/
def linearAddress (va : Word) : Bool := va.extractLsb' 30 2 = 0b10#2

/-- The physical address of a linear one: `0b000 ++ va[28:0]` (R58). -/
def linearPhysical (va : Word) : Word := 0b000#3 ++ va.extractLsb' 0 29

/-- The TLB entries whose vpn is that of the address (R59). -/
def tlbMatches (s : State) (va : Word) : List TlbEntry :=
  s.tlb.toList.filter (fun e => e.vpn = va.extractLsb' 13 19)

/-- The translation by one entry: the page by bit 12, then valid, then write (R60, R61). -/
def translateByEntry (e : TlbEntry) (va : Word) (kind : AccessKind) : Res Word :=
  let odd := va.getLsbD 12
  let ppn := if odd then e.ppn1 else e.ppn0
  let valid := if odd then e.valid1 else e.valid0
  let write := if odd then e.write1 else e.write0
  if valid = false then .raise (tlbMiss kind va)
  else if kind = .store ∧ write = false then .raise (.ades va)
  else .ok (ppn ++ va.extractLsb' 0 12)

/-- The translation of a mapped address: a miss when no entry matches, no meaning when several do (R59, R65, log 21). -/
def translateMapped (s : State) (va : Word) (kind : AccessKind) : Res Word :=
  match tlbMatches s va with
  | [] => .raise (tlbMiss kind va)
  | [e] => translateByEntry e va kind
  | _ :: _ :: _ => .refuse .tlbMultipleMatch

/-- Translate(va, kind) (R60). -/
def translateAddr (s : State) (va : Word) (kind : AccessKind) : Res Word :=
  if s.userMode && kernelAddress va then .raise (addressError kind va)
  else if linearAddress va then .ok (linearPhysical va)
  else translateMapped s va kind

/-- The address is a multiple of 4 (R54). -/
def wordAligned (va : Word) : Bool := va.extractLsb' 0 2 = 0#2

/-- MemRead(va, 1) (R62), with the state after a read that has a side effect (R76). -/
def loadByte (s : State) (va : Word) : Res (Byte × State) :=
  (translateAddr s va .load).bind (physReadByte s)

/-- MemRead(va, 4) (R62). -/
def loadWord (s : State) (va : Word) : Res Word :=
  if wordAligned va then (translateAddr s va .load).bind (physReadWord s)
  else .raise (addressError .load va)

/-- MemWrite(va, 1, b) (R63). -/
def storeByte (s : State) (va : Word) (b : Byte) : Res State :=
  (translateAddr s va .store).bind (fun pa => physWriteByte s pa b)

/-- MemWrite(va, 4, w) (R63). -/
def storeWord (s : State) (va : Word) (w : Word) : Res State :=
  if wordAligned va then (translateAddr s va .store).bind (fun pa => physWriteWord s pa w)
  else .raise (addressError .store va)

/-- One of the last IFETCH_HAZARD_WINDOW instructions before the next stored to the word at `pa` (R81, U14, log 14). -/
def storedWithinWindow (s : State) (pa : Word) : Bool :=
  match logGet s.storeLog (pa.toNat / 4) with
  | none => false
  | some n => decide (s.insns + 1 ≤ n + Config.ifetchHazardWindow)

/-- Fetch(pc): the instruction word at `pc`, checked as a word load (R55, R64). -/
def fetch (s : State) : Res Word :=
  if wordAligned s.pc then
    (translateAddr s s.pc .fetch).bind fun pa =>
      if storedWithinWindow s pa then .refuse .fetchAfterStore else physReadWord s pa
  else .raise (addressError .fetch s.pc)

/-- `s` with the word `w` placed from outside where it fetches: the bytes of the word at the physical address of `pc`,
in RAM or ROM, or the cell in Flash; no store of the machine counts as having made it (R232, log 6). -/
def placeFetchWord (s : State) (w : Word) : State :=
  match translateAddr s s.pc .fetch with
  | .ok pa =>
    match deviceAt pa with
    | some .ram =>
      { s.setMem (memPutWord s.mem pa.toNat w) with storeLog := logErase s.storeLog (pa.toNat / 4) }
    | some .rom => s.setMem (memPutWord s.mem pa.toNat w)
    | some .flash =>
      s.setMem (memPut (memPut s.mem pa.toNat (w.extractLsb' 0 8)) (pa.toNat + 1) (w.extractLsb' 8 8))
    | _ => s
  | _ => s

end Sys2Proof.Machine
end

