-- ==== Sys2Proof/Machine/LoadStore.lean ====
section
/-!
DEFINITION. The 5 load and store instructions (spec/42_load_store.md). The base register is read before anything is
written, and an access that raises an exception changes nothing (R160, R197).
-/
namespace Sys2Proof.Machine

/-- `lw $t, imm($s)` (R161). -/
def execLw (rs rt : Reg) (imm : Imm) (s : State) : Out :=
  finish s ((loadWord s (effectiveAddress (s.reg rs) imm)).bind fun w => .ok ((s.setReg rt w).advancePc))

/-- `sw $t, imm($s)` (R162). -/
def execSw (rs rt : Reg) (imm : Imm) (s : State) : Out :=
  finish s ((storeWord s (effectiveAddress (s.reg rs) imm) (s.reg rt)).bind fun s' => .ok s'.advancePc)

/-- `lb $t, imm($s)` (R163). -/
def execLb (rs rt : Reg) (imm : Imm) (s : State) : Out :=
  finish s ((loadByte s (effectiveAddress (s.reg rs) imm)).bind fun r =>
    .ok ((r.2.setReg rt (signExtByte r.1)).advancePc))

/-- `lbu $t, imm($s)` (R164). -/
def execLbu (rs rt : Reg) (imm : Imm) (s : State) : Out :=
  finish s ((loadByte s (effectiveAddress (s.reg rs) imm)).bind fun r =>
    .ok ((r.2.setReg rt (zeroExtByte r.1)).advancePc))

/-- `sb $t, imm($s)` (R165). -/
def execSb (rs rt : Reg) (imm : Imm) (s : State) : Out :=
  finish s ((storeByte s (effectiveAddress (s.reg rs) imm) (lowByte (s.reg rt))).bind fun s' => .ok s'.advancePc)

end Sys2Proof.Machine
end

