-- ==== Sys2Proof/Machine/Privileged.lean ====
section
/-!
DEFINITION. The 4 privileged instructions (spec/44_privileged.md).
-/
namespace Sys2Proof.Machine

/-- `eret`: no delay slot; in a delay slot and in user mode it has no specified behaviour (R173, R154, logs 24, 25). -/
def execEret (s : State) : Out :=
  if s.ds then .refused .controlInDelaySlot
  else if s.userMode then .refused .eretInUserMode
  else .next (returnFromException s)

/-- `mfc0 $t, $d`: reserved instruction in user mode; a number that names no register has no specified effect
(R172, R174, R33, log 26). -/
def execMfc0 (rt d : Reg) (s : State) : Out :=
  privileged s
    (match cp0RegOfNumber d with
     | some r => .ok ((s.setReg rt (readCp0 s r)).advancePc)
     | none => .refuse .cp0NumberUnnamed)

/-- `mtc0 $t, $d`: reserved instruction in user mode; a number that names no register has no specified effect
(R172, R175, R33, log 26). -/
def execMtc0 (rt d : Reg) (s : State) : Out :=
  privileged s
    (match cp0RegOfNumber d with
     | some r => .ok ((writeCp0 s r (s.reg rt)).advancePc)
     | none => .refuse .cp0NumberUnnamed)

/-- The TLB entry that the four CP0 registers describe (R176). -/
def tlbEntryOfCp0 (c : Cp0) : TlbEntry :=
  { vpn := c.entryhi.extractLsb' 13 19
    ppn0 := c.entrylo0.extractLsb' 6 20
    valid0 := c.entrylo0.getLsbD 1
    write0 := c.entrylo0.getLsbD 2
    ppn1 := c.entrylo1.extractLsb' 6 20
    valid1 := c.entrylo1.getLsbD 1
    write1 := c.entrylo1.getLsbD 2 }

/-- The entry that tlbwi writes: bits 3-0 of index (R20, R176). -/
def tlbIndex (c : Cp0) : BitVec 4 := c.index.extractLsb' 0 4

/-- TLB[i] ← e (R34). -/
def State.setTlb (s : State) (i : BitVec 4) (e : TlbEntry) : State :=
  { s with tlb := s.tlb.set i.toNat e i.isLt }

/-- `tlbwi`: reserved instruction in user mode (R172, R176). -/
def execTlbwi (s : State) : Out :=
  privileged s (.ok ((s.setTlb (tlbIndex s.cp0) (tlbEntryOfCp0 s.cp0)).advancePc))

end Sys2Proof.Machine
end

