-- ==== Sys2Proof/Machine/Trap.lean ====
section
/-!
DEFINITION. The trap instruction (spec/43_trap.md).
-/
namespace Sys2Proof.Machine

/-- `syscall`: raises Sys, always, in either mode (R170). -/
def execSyscall (s : State) : Out := finish s (.raise .sys)

end Sys2Proof.Machine
end

