-- ==== Sys2Proof/Machine/Dispatch.lean ====
section
/-!
DEFINITION. The meaning of every instruction: one arm for each constructor of `Instr`, one call of its meaning
(spec/30_encoding.md R96). The operands stand in the order of the word's fields.
-/
namespace Sys2Proof.Machine

-- What executing `i` in `s` does.
def exec (i : Instr) (s : State) : Host.Outcome State Fault Refusal :=
  match i with
  | .addu rs rt rd => Sys2Proof.Machine.execAddu rs rt rd s
  | .addiu rs rt imm => Sys2Proof.Machine.execAddiu rs rt imm s
  | .subu rs rt rd => Sys2Proof.Machine.execSubu rs rt rd s
  | .slt rs rt rd => Sys2Proof.Machine.execSlt rs rt rd s
  | .slti rs rt imm => Sys2Proof.Machine.execSlti rs rt imm s
  | .sltu rs rt rd => Sys2Proof.Machine.execSltu rs rt rd s
  | .sltiu rs rt imm => Sys2Proof.Machine.execSltiu rs rt imm s
  | .mult rs rt => Sys2Proof.Machine.execMult rs rt s
  | .mflo rd => Sys2Proof.Machine.execMflo rd s
  | .mtlo rs => Sys2Proof.Machine.execMtlo rs s
  | .mfhi rd => Sys2Proof.Machine.execMfhi rd s
  | .mthi rs => Sys2Proof.Machine.execMthi rs s
  | .and rs rt rd => Sys2Proof.Machine.execAnd rs rt rd s
  | .andi rs rt imm => Sys2Proof.Machine.execAndi rs rt imm s
  | .lui rt imm => Sys2Proof.Machine.execLui rt imm s
  | .nor rs rt rd => Sys2Proof.Machine.execNor rs rt rd s
  | .or rs rt rd => Sys2Proof.Machine.execOr rs rt rd s
  | .ori rs rt imm => Sys2Proof.Machine.execOri rs rt imm s
  | .xor rs rt rd => Sys2Proof.Machine.execXor rs rt rd s
  | .xori rs rt imm => Sys2Proof.Machine.execXori rs rt imm s
  | .sll rt rd sa => Sys2Proof.Machine.execSll rt rd sa s
  | .sllv rs rt rd => Sys2Proof.Machine.execSllv rs rt rd s
  | .sra rt rd sa => Sys2Proof.Machine.execSra rt rd sa s
  | .srav rs rt rd => Sys2Proof.Machine.execSrav rs rt rd s
  | .srl rt rd sa => Sys2Proof.Machine.execSrl rt rd sa s
  | .srlv rs rt rd => Sys2Proof.Machine.execSrlv rs rt rd s
  | .beq rs rt imm => Sys2Proof.Machine.execBeq rs rt imm s
  | .bne rs rt imm => Sys2Proof.Machine.execBne rs rt imm s
  | .bgez rs imm => Sys2Proof.Machine.execBgez rs imm s
  | .bgtz rs imm => Sys2Proof.Machine.execBgtz rs imm s
  | .blez rs imm => Sys2Proof.Machine.execBlez rs imm s
  | .bltz rs imm => Sys2Proof.Machine.execBltz rs imm s
  | .j address => Sys2Proof.Machine.execJ address s
  | .jal address => Sys2Proof.Machine.execJal address s
  | .jr rs => Sys2Proof.Machine.execJr rs s
  | .jalr rs rd => Sys2Proof.Machine.execJalr rs rd s
  | .lw rs rt imm => Sys2Proof.Machine.execLw rs rt imm s
  | .sw rs rt imm => Sys2Proof.Machine.execSw rs rt imm s
  | .lb rs rt imm => Sys2Proof.Machine.execLb rs rt imm s
  | .lbu rs rt imm => Sys2Proof.Machine.execLbu rs rt imm s
  | .sb rs rt imm => Sys2Proof.Machine.execSb rs rt imm s
  | .syscall => Sys2Proof.Machine.execSyscall s
  | .eret => Sys2Proof.Machine.execEret s
  | .mfc0 rt rd => Sys2Proof.Machine.execMfc0 rt rd s
  | .mtc0 rt rd => Sys2Proof.Machine.execMtc0 rt rd s
  | .tlbwi => Sys2Proof.Machine.execTlbwi s

end Sys2Proof.Machine
end

