-- ==== Sys2Proof/Machine/Cycle.lean ====
section
/-!
DEFINITION. What one step does once time has passed: the events in their order of priority, the fetch, and the
instruction (spec/60_exceptions.md R191 to R194).
-/
namespace Sys2Proof.Machine

/-- The step of a fetched word: its instruction, or reserved instruction for an illegal word (R101, R188); an illegal
word is an instruction executed too, so it counts for the window of R81. -/
def runWord (s : State) (w : Word) : Host.Outcome State Fault Refusal :=
  match decodeWord w with
  | .instr i => exec i s.beginInsn
  | .reserved => .next (takeException .ri s.beginInsn)
  | .unusedFieldSet => .refused .unusedFieldSet

/-- The step after time has passed: interrupt, debug, fetch, then the instruction (R194). -/
def stepAt (s : State) : Host.Outcome State Fault Refusal :=
  if s.interruptDue then .next (takeException .int s)
  else if s.watchHit then .next (takeException .debug s)
  else
    match fetch s with
    | .ok w => runWord s w
    | .raise e => .next (takeException e s)
    | .fault f => .fault f
    | .refuse r => .refused r

end Sys2Proof.Machine
end

