-- ==== Sys2Proof/Machine/Step.lean ====
section
/-!
DEFINITION. One step of the machine (spec/10_state.md R15 with spec/60_exceptions.md R191, R194, R195), and the load of
one instruction where the next step fetches.
-/
namespace Sys2Proof.Machine

/-- One instruction or one trap entry (R15, R192). -/
def step (s : State) : Host.Outcome State Fault Refusal := stepAt s.passTime

/-- `s` with the instruction whose bits are `w` stored where its next step fetches (log 6). -/
def State.withFetchWord (s : State) (nbits w : Nat) : State := placeFetchWord s (BitVec.ofNat 32 (w % 2 ^ nbits))

end Sys2Proof.Machine
end

