-- ==== Sys2Proof/Machine/Boot.lean ====
section
/-!
DEFINITION. What may be relied on between power-up and the end of a boot program (spec/70_reset_and_hazards.md R230,
R231, R233): the states the machine can power up in, and the conditions of R233 on the watch registers and the TLB.
-/
namespace Sys2Proof.Machine

/-- A state the machine can power up in: what R230 fixes; all that R231 leaves unspecified (RESET_UNSPECIFIED) is
arbitrary. The model's own log of stores is empty (log 14). -/
def atPowerUp (s : State) : Bool :=
  decide (s.pc = 0xbfc00000#32 ∧ s.npc = 0xbfc00004#32 ∧ s.regs[0] = 0#32) && !s.ds && !s.cp0.um && !s.cp0.ie &&
    s.storeLog.isEmpty

/-- Neither watch register equals `pc`: what R233, item 2, has a model assume of every pc executed before they are
written (R189, R220). -/
def watchSpares (s : State) (pc : Word) : Bool := pc != s.cp0.watchlo && pc != s.cp0.watchhi

/-- A vpn that no lookup presents: its addresses are linear (R58, R82). -/
def neverLookedUp (vpn : BitVec 19) : Bool := vpn.extractLsb' 17 2 = 0b10#2

/-- The 16 vpns are distinct, so that no lookup can match twice (R65; R233, item 4). -/
def distinctVpns (s : State) : Bool := decide (∀ i j : Fin 16, s.tlb[i].vpn = s.tlb[j].vpn → i = j)

/-- An entry that maps no page: not valid, or never looked up (R82; R233, item 4). -/
def mapsNothing (e : TlbEntry) : Bool := neverLookedUp e.vpn || (!e.valid0 && !e.valid1)

/-- The TLB as R233, item 4, has software leave it before the first mapped access. -/
def tlbPrepared (s : State) : Bool := distinctVpns s && decide (∀ i : Fin 16, mapsNothing s.tlb[i] = true)

end Sys2Proof.Machine
end

