-- ==== Sys2Proof/WellFormed.lean ====
section
/-!
DEFINITION. Which instructions software may write. Every operand of `Instr` has the type of its field, so that every
term of `Instr` has a word; what the types cannot say stands here: the number of a CP0 register must name one of the 13
(spec/10_state.md R18, R33), and jalr must not name one register as target and link (spec/41_branch.md R150, R153).
A term that fails a check still has a word and a decoding; its meaning is said in spec/ and in the machine.
-/
namespace Sys2Proof

/-- One of the 13 CP0 register numbers (R18); every other number names no register (R33). -/
def cp0NumberNamed (d : Reg) : Bool :=
  d = 0#5 || d = 2#5 || d = 3#5 || d = 8#5 || d = 9#5 || d = 10#5 || d = 11#5 || d = 12#5 || d = 13#5 || d = 14#5 || d = 15#5 ||
    d = 18#5 || d = 19#5

/-- jalr can be executed again after an exception in its delay slot: its link is not written over its target
(R150, R153; a link to `$0` writes nothing). -/
def linkSparesTarget (s d : Reg) : Bool := d ≠ s || d = 0#5

/-- The instruction is one that software may write. -/
def Instr.wellFormed : Instr → Bool
  | .addu _ _ _ => true
  | .addiu _ _ _ => true
  | .subu _ _ _ => true
  | .slt _ _ _ => true
  | .slti _ _ _ => true
  | .sltu _ _ _ => true
  | .sltiu _ _ _ => true
  | .mult _ _ => true
  | .mflo _ => true
  | .mtlo _ => true
  | .mfhi _ => true
  | .mthi _ => true
  | .and _ _ _ => true
  | .andi _ _ _ => true
  | .lui _ _ => true
  | .nor _ _ _ => true
  | .or _ _ _ => true
  | .ori _ _ _ => true
  | .xor _ _ _ => true
  | .xori _ _ _ => true
  | .sll _ _ _ => true
  | .sllv _ _ _ => true
  | .sra _ _ _ => true
  | .srav _ _ _ => true
  | .srl _ _ _ => true
  | .srlv _ _ _ => true
  | .beq _ _ _ => true
  | .bne _ _ _ => true
  | .bgez _ _ => true
  | .bgtz _ _ => true
  | .blez _ _ => true
  | .bltz _ _ => true
  | .j _ => true
  | .jal _ => true
  | .jr _ => true
  | .jalr s d => linkSparesTarget s d
  | .lw _ _ _ => true
  | .sw _ _ _ => true
  | .lb _ _ _ => true
  | .lbu _ _ _ => true
  | .sb _ _ _ => true
  | .syscall => true
  | .eret => true
  | .mfc0 _ d => cp0NumberNamed d
  | .mtc0 _ d => cp0NumberNamed d
  | .tlbwi => true

end Sys2Proof
end

