-- ==== Sys2Proof/Safety.lean ====
section
/-!
DEFINITION. The terms in which claims about the machine are stated: what one byte of memory reads as, what an
instruction leaves unchanged, classes of instructions, and the invariant that every step keeps.
-/
namespace Sys2Proof.Machine

/-- The byte at physical address `a` (R36). -/
def State.byteAt (s : State) (a : Nat) : Byte := memGet s.mem a

/-- Every byte of memory reads as before. -/
def SameMemory (s s' : State) : Prop := ∀ a, s'.byteAt a = s.byteAt a

/-- Every byte of memory reads as before but the `n` bytes from `base` on. -/
def SameMemoryBut (base n : Nat) (s s' : State) : Prop :=
  ∀ a, ¬ (base ≤ a ∧ a < base + n) → s'.byteAt a = s.byteAt a

/-- Every general register reads as before. -/
def SameRegs (s s' : State) : Prop := ∀ r, s'.reg r = s.reg r

/-- `hi` and `lo` are unchanged. -/
def SameHiLo (s s' : State) : Prop := s'.hi = s.hi ∧ s'.lo = s.lo

/-- The TLB is unchanged. -/
def SameTlb (s s' : State) : Prop := ∀ i : Fin 16, s'.tlb[i] = s.tlb[i]

/-- Every CP0 register is unchanged. -/
def SameCp0 (s s' : State) : Prop := s'.cp0 = s.cp0

/-- The serial buffers are unchanged. -/
def SameSerial (s s' : State) : Prop := s'.serialIn = s.serialIn ∧ s'.serialOut = s.serialOut

/-- The lines, the timer request, the outside world and the model's counters are unchanged. -/
def SameClock (s s' : State) : Prop :=
  s'.irq = s.irq ∧ s'.timerHeld = s.timerHeld ∧ s'.arrivals = s.arrivals ∧ s'.ticks = s.ticks ∧ s'.insns = s.insns

/-- From `s` to `s'` nothing but the general register `r` changed, and it holds `v`, if it is not x[0], which discards
the write (R11); the program counter may change. -/
structure OnlyRegWritten (r : Reg) (v : Word) (s s' : State) : Prop where
  target : s'.reg r = if r = 0#5 then 0#32 else v
  others : ∀ q, q ≠ r → s'.reg q = s.reg q
  hiLo : SameHiLo s s'
  cp0 : SameCp0 s s'
  tlb : SameTlb s s'
  memory : SameMemory s s'
  serial : SameSerial s s'
  clock : SameClock s s'
  stores : s'.storeLog = s.storeLog

/-- From `s` to `s'` nothing changed but the program counter. -/
structure OnlyPcWritten (s s' : State) : Prop where
  regs : SameRegs s s'
  hiLo : SameHiLo s s'
  cp0 : SameCp0 s s'
  tlb : SameTlb s s'
  memory : SameMemory s s'
  serial : SameSerial s s'
  clock : SameClock s s'
  stores : s'.storeLog = s.storeLog

/-- From `s` to `s'` nothing but the `n` bytes of memory from `base` on changed; the program counter may change, and
the model's own log of stores. -/
structure OnlyMemoryWritten (base n : Nat) (s s' : State) : Prop where
  regs : SameRegs s s'
  hiLo : SameHiLo s s'
  cp0 : SameCp0 s s'
  tlb : SameTlb s s'
  memory : SameMemoryBut base n s s'
  serial : SameSerial s s'
  clock : SameClock s s'

/-- From `s` to `s'` nothing changed but `hi`, which holds `h`, `lo`, which holds `l`, and the program counter. -/
structure OnlyHiLoWritten (h l : Word) (s s' : State) : Prop where
  hi : s'.hi = h
  lo : s'.lo = l
  regs : SameRegs s s'
  cp0 : SameCp0 s s'
  tlb : SameTlb s s'
  memory : SameMemory s s'
  serial : SameSerial s s'
  clock : SameClock s s'
  stores : s'.storeLog = s.storeLog

/-- From `s` to `s'` nothing changed but the CP0 registers, which are `c`, the program counter, and the timer request,
which a write to compare may withdraw (R210). -/
structure OnlyCp0Written (c : Cp0) (s s' : State) : Prop where
  cp0 : s'.cp0 = c
  regs : SameRegs s s'
  hiLo : SameHiLo s s'
  tlb : SameTlb s s'
  memory : SameMemory s s'
  serial : SameSerial s s'
  lines : s'.irq = s.irq
  outside : s'.arrivals = s.arrivals
  counters : s'.ticks = s.ticks ∧ s'.insns = s.insns
  stores : s'.storeLog = s.storeLog

/-- From `s` to `s'` nothing changed but the TLB entry number `i`, which is `e`, and the program counter. -/
structure OnlyTlbWritten (i : Fin 16) (e : TlbEntry) (s s' : State) : Prop where
  target : s'.tlb[i] = e
  others : ∀ j : Fin 16, j ≠ i → s'.tlb[j] = s.tlb[j]
  regs : SameRegs s s'
  hiLo : SameHiLo s s'
  cp0 : SameCp0 s s'
  memory : SameMemory s s'
  serial : SameSerial s s'
  clock : SameClock s s'
  stores : s'.storeLog = s.storeLog

/-- The three parts of the program counter after an instruction that is no branch or jump (R15). -/
def SequentialPc (s s' : State) : Prop := s'.pc = s.npc ∧ s'.npc = s.npc + 4#32 ∧ s'.ds = false

/-- The ten branches and jumps (R96). -/
def isControl : Instr → Bool
  | .addu _ _ _ => false
  | .addiu _ _ _ => false
  | .subu _ _ _ => false
  | .slt _ _ _ => false
  | .slti _ _ _ => false
  | .sltu _ _ _ => false
  | .sltiu _ _ _ => false
  | .mult _ _ => false
  | .mflo _ => false
  | .mtlo _ => false
  | .mfhi _ => false
  | .mthi _ => false
  | .and _ _ _ => false
  | .andi _ _ _ => false
  | .lui _ _ => false
  | .nor _ _ _ => false
  | .or _ _ _ => false
  | .ori _ _ _ => false
  | .xor _ _ _ => false
  | .xori _ _ _ => false
  | .sll _ _ _ => false
  | .sllv _ _ _ => false
  | .sra _ _ _ => false
  | .srav _ _ _ => false
  | .srl _ _ _ => false
  | .srlv _ _ _ => false
  | .beq _ _ _ => true
  | .bne _ _ _ => true
  | .bgez _ _ => true
  | .bgtz _ _ => true
  | .blez _ _ => true
  | .bltz _ _ => true
  | .j _ => true
  | .jal _ => true
  | .jr _ => true
  | .jalr _ _ => true
  | .lw _ _ _ => false
  | .sw _ _ _ => false
  | .lb _ _ _ => false
  | .lbu _ _ _ => false
  | .sb _ _ _ => false
  | .syscall => false
  | .eret => false
  | .mfc0 _ _ => false
  | .mtc0 _ _ => false
  | .tlbwi => false

/-- The 26 arithmetic instructions (R96). -/
def isArithmetic : Instr → Bool
  | .addu _ _ _ => true
  | .addiu _ _ _ => true
  | .subu _ _ _ => true
  | .slt _ _ _ => true
  | .slti _ _ _ => true
  | .sltu _ _ _ => true
  | .sltiu _ _ _ => true
  | .mult _ _ => true
  | .mflo _ => true
  | .mtlo _ => true
  | .mfhi _ => true
  | .mthi _ => true
  | .and _ _ _ => true
  | .andi _ _ _ => true
  | .lui _ _ => true
  | .nor _ _ _ => true
  | .or _ _ _ => true
  | .ori _ _ _ => true
  | .xor _ _ _ => true
  | .xori _ _ _ => true
  | .sll _ _ _ => true
  | .sllv _ _ _ => true
  | .sra _ _ _ => true
  | .srav _ _ _ => true
  | .srl _ _ _ => true
  | .srlv _ _ _ => true
  | .beq _ _ _ => false
  | .bne _ _ _ => false
  | .bgez _ _ => false
  | .bgtz _ _ => false
  | .blez _ _ => false
  | .bltz _ _ => false
  | .j _ => false
  | .jal _ => false
  | .jr _ => false
  | .jalr _ _ => false
  | .lw _ _ _ => false
  | .sw _ _ _ => false
  | .lb _ _ _ => false
  | .lbu _ _ _ => false
  | .sb _ _ _ => false
  | .syscall => false
  | .eret => false
  | .mfc0 _ _ => false
  | .mtc0 _ _ => false
  | .tlbwi => false

/-- An address at which some device holds a byte: RAM, a VGA character cell, one of the two bytes of a Flash cell, or
ROM (R69 to R73, R216). -/
def holdsData (a : Nat) : Bool :=
  decide (a ≤ 0x003fffff) || decide (0x10000000 ≤ a ∧ a < 0x10000000 + 2400) ||
    decide (0x1e000000 ≤ a ∧ a ≤ 0x1effffff ∧ a % 4 < 2) || decide (0x1fc00000 ≤ a ∧ a ≤ 0x1fc001ff)

/-- An address of RAM or of a VGA character cell: the only bytes of memory that the machine writes (R70, R216). -/
def writableByte (a : Nat) : Bool :=
  decide (a ≤ 0x003fffff) || decide (0x10000000 ≤ a ∧ a < 0x10000000 + 2400)

/-- What every step keeps: memory is in its canonical form and lists only bytes that a device holds, x[0] holds 0
(R11), outside a delay slot the next instruction follows in memory (R15), the serial buffer does not exceed its capacity
(R211), only the lines 4 and 7 are ever up (R186), and the log of stores is in order, names RAM words and no future
instruction (R81). -/
structure Invariant (s : State) : Prop where
  memoryCanonical : Memory.wf s.mem = true
  memoryHeld : ∀ c ∈ s.mem, holdsData c.1 = true
  zeroRegister : s.regs[0] = 0#32
  nextFollows : s.ds = false → s.npc = s.pc + 4#32
  serialFits : s.serialIn.length ≤ Config.serialBufCapacity
  otherLinesDown : s.irq &&& 0x6f#8 = 0#8
  logRising : rising s.storeLog = true
  logPast : ∀ e ∈ s.storeLog, e.1 < 0x100000 ∧ e.2 ≤ s.insns

end Sys2Proof.Machine
end

