-- ==== Sys2Proof/Certificates/Slice0/Obligations.lean ====
section
/-!
DEFINITION. The statements for the provers. Every statement about a next state says what the instruction writes and
that nothing else changes; the structures of Sys2Proof/Safety.lean say the latter. `rWord`, `iWord` and `jWord` are the
layouts of spec/30_encoding.md R91 to R93.
-/
open Sys2Proof Sys2Proof.Machine

/-! ### Encoding -/

/-- Every instruction's word decodes to it, with every operand at every value, as a word and byte by byte as memory
holds it (R90 to R102). -/
def Obligations.DecodeEncodeAgree : Prop :=
  ∀ i : Instr, decodeWord (encode i) = .instr i ∧
    decodeBytes (byteOfWord (encode i) 0) (byteOfWord (encode i) 1) (byteOfWord (encode i) 2)
      (byteOfWord (encode i) 3) = .instr i

/-- The decoder is spec/opcode_table.json: a word matches the row of an instruction exactly when it decodes to an
instruction of that row, and it decodes to no other row (R96). The strict reading of the unused fields is the spec's
decision D8 (log 10). -/
def Obligations.DecoderIsOpcodeTable : Prop :=
  ∀ (w : Word) (i : Instr), w &&& (opcodeRow i).1 = (opcodeRow i).2 ↔
    ∃ j, decodeWord w = .instr j ∧ opcodeRow j = opcodeRow i

/-- Words of the spec's examples decode to the instructions they stand for (R111, R112, R141, R148, R161, R174, R100);
the `s` field of the mfc0 word is decision D7 (log 9), the `op` of the jal word the resolution of conflict C3 (log
31). -/
def Obligations.SampleWordsDecode : Prop :=
  decodeWord 0x00221821#32 = .instr (.addu 1#5 2#5 3#5) ∧
    decodeWord 0x2422ffff#32 = .instr (.addiu 1#5 2#5 0xffff#16) ∧
    decodeWord 0x10220003#32 = .instr (.beq 1#5 2#5 3#16) ∧
    decodeWord 0x0c000400#32 = .instr (.jal 0x400#26) ∧
    decodeWord 0x8c220008#32 = .instr (.lw 1#5 2#5 8#16) ∧
    decodeWord 0x40026000#32 = .instr (.mfc0 2#5 12#5) ∧
    decodeWord 0x0000000c#32 = .instr .syscall ∧
    decodeWord 0x42000002#32 = .instr .tlbwi ∧
    decodeWord 0x42000018#32 = .instr .eret

/-- The illegal words are those whose `op`, or whose `func`, `t` or `s` under it, selects nothing; running one raises
reserved instruction with no other effect, in either mode (R101 under the strict reading of R102, decision D8, log 10);
it counts as an instruction executed (R81, log 14). -/
def Obligations.IllegalWordsRaiseReserved : Prop :=
  (∀ w : Word, decodeWord w = .reserved ↔
    opField w ∉ [0#6, 1#6, 2#6, 3#6, 4#6, 5#6, 6#6, 7#6, 9#6, 10#6, 11#6, 12#6, 13#6, 14#6, 15#6, 16#6, 32#6, 35#6,
        36#6, 40#6, 43#6] ∨
      (opField w = 0#6 ∧ funcField w ∉ [0#6, 2#6, 3#6, 4#6, 6#6, 7#6, 8#6, 9#6, 12#6, 16#6, 17#6, 18#6, 19#6, 24#6,
        33#6, 35#6, 36#6, 37#6, 38#6, 39#6, 42#6, 43#6]) ∨
      (opField w = 1#6 ∧ tField w ∉ [0#5, 1#5]) ∨
      (opField w = 16#6 ∧ sField w ∉ [0#5, 4#5] ∧ w ≠ 0x42000002#32 ∧ w ≠ 0x42000018#32)) ∧
  ∀ (s : State) (w : Word), s.passTime.interruptDue = false → s.passTime.watchHit = false →
    fetch s.passTime = .ok w → decodeWord w = .reserved → step s = .next (takeException .ri s.passTime.beginInsn)

/-- A word that selects an instruction but has a non-zero bit in a field the instruction does not use is refused by the
step (R102, decision D8, log 10). -/
def Obligations.UnusedFieldsRefused : Prop :=
  (∀ (s t d sa : BitVec 5) (func : BitVec 6) (imm : Imm),
    (func ∈ [4#6, 6#6, 7#6, 33#6, 35#6, 36#6, 37#6, 38#6, 39#6, 42#6, 43#6] → sa ≠ 0#5 →
      decodeWord (rWord 0#6 s t d sa func) = .unusedFieldSet) ∧
    (func ∈ [0#6, 2#6, 3#6] → s ≠ 0#5 → decodeWord (rWord 0#6 s t d sa func) = .unusedFieldSet) ∧
    (t ≠ 0#5 ∨ d ≠ 0#5 ∨ sa ≠ 0#5 → decodeWord (rWord 0#6 s t d sa 8#6) = .unusedFieldSet) ∧
    (t ≠ 0#5 ∨ sa ≠ 0#5 → decodeWord (rWord 0#6 s t d sa 9#6) = .unusedFieldSet) ∧
    (s ≠ 0#5 ∨ t ≠ 0#5 ∨ d ≠ 0#5 ∨ sa ≠ 0#5 → decodeWord (rWord 0#6 s t d sa 12#6) = .unusedFieldSet) ∧
    (func ∈ [16#6, 18#6] → s ≠ 0#5 ∨ t ≠ 0#5 ∨ sa ≠ 0#5 →
      decodeWord (rWord 0#6 s t d sa func) = .unusedFieldSet) ∧
    (func ∈ [17#6, 19#6] → t ≠ 0#5 ∨ d ≠ 0#5 ∨ sa ≠ 0#5 →
      decodeWord (rWord 0#6 s t d sa func) = .unusedFieldSet) ∧
    (d ≠ 0#5 ∨ sa ≠ 0#5 → decodeWord (rWord 0#6 s t d sa 24#6) = .unusedFieldSet) ∧
    (s ≠ 0#5 → decodeWord (iWord 15#6 s t imm) = .unusedFieldSet) ∧
    (t ≠ 0#5 → decodeWord (iWord 6#6 s t imm) = .unusedFieldSet ∧ decodeWord (iWord 7#6 s t imm) = .unusedFieldSet) ∧
    (s ∈ [0#5, 4#5] → sa ≠ 0#5 ∨ func ≠ 0#6 → decodeWord (rWord 16#6 s t d sa func) = .unusedFieldSet)) ∧
  ∀ (s : State) (w : Word), s.passTime.interruptDue = false → s.passTime.watchHit = false →
    fetch s.passTime = .ok w → decodeWord w = .unusedFieldSet → step s = .refused .unusedFieldSet

/-! ### The step -/

/-- When the word at the program counter decodes to an instruction, the step is that instruction, executed after the
step's time has passed; time changes `count`, the lines and the serial buffer, and nothing that the program wrote
(R15, R192, R194; decisions D12, D15, log 31); the instruction counts for the window of R81 (log 14). -/
def Obligations.StepRunsDecodedInstruction : Prop :=
  ∀ (s : State) (w : Word) (i : Instr), s.passTime.interruptDue = false → s.passTime.watchHit = false →
    fetch s.passTime = .ok w → decodeWord w = .instr i →
    step s = exec i s.passTime.beginInsn ∧
      s.passTime.beginInsn.pc = s.pc ∧ s.passTime.beginInsn.npc = s.npc ∧ s.passTime.beginInsn.ds = s.ds ∧
      SameRegs s s.passTime.beginInsn ∧ SameHiLo s s.passTime.beginInsn ∧ SameTlb s s.passTime.beginInsn ∧
      SameMemory s s.passTime.beginInsn ∧ s.passTime.beginInsn.serialOut = s.serialOut ∧
      s.passTime.beginInsn.cp0 = { s.cp0 with count := s.passTime.cp0.count } ∧
      s.passTime.beginInsn.userMode = s.userMode ∧
      s.passTime.beginInsn.insns = s.insns + 1 ∧ s.passTime.beginInsn.storeLog = s.storeLog

/-- A fetch reads the word at the translated address little-endian, in Flash one 16-bit cell (R52, R64, R68 to R71); a
word that one of the last IFETCH_HAZARD_WINDOW instructions stored, as the log of stores dates it, is refused (R81,
decision D23, log 14). -/
def Obligations.FetchReadsWord : Prop :=
  ∀ (s : State) (pa : Word), s.pc.toNat % 4 = 0 → translateAddr s s.pc .fetch = .ok pa →
    (storedWithinWindow s pa = true ↔
      ∃ n, logGet s.storeLog (pa.toNat / 4) = some n ∧ s.insns + 1 ≤ n + Config.ifetchHazardWindow) ∧
    (storedWithinWindow s pa = true → fetch s = .refuse .fetchAfterStore) ∧
    (storedWithinWindow s pa = false →
      (deviceAt pa = some .ram ∨ deviceAt pa = some .rom →
        fetch s = .ok (wordOfBytes (s.byteAt pa.toNat) (s.byteAt (pa.toNat + 1)) (s.byteAt (pa.toNat + 2))
          (s.byteAt (pa.toNat + 3)))) ∧
      (deviceAt pa = some .flash →
        fetch s = .ok (wordOfBytes (s.byteAt pa.toNat) (s.byteAt (pa.toNat + 1)) 0#8 0#8)))

/-- The step takes an interrupt exactly when `ie` is 1, `exl` is 0 and an enabled line is up (R191): the lines are read,
not cause, and the mode plays no part. That it goes before the debug exception and before what the fetch would raise is
decision D12, its instant before the instruction at pc decision D15 (log 31). -/
def Obligations.InterruptTakenIffDue : Prop :=
  ∀ s : State, step s = .next (takeException .int s.passTime) ↔
    s.cp0.status.getLsbD 0 = true ∧ s.cp0.status.getLsbD 1 = false ∧
      s.passTime.irq &&& s.cp0.status.extractLsb' 8 8 ≠ 0#8

/-- The step takes the debug exception exactly when no interrupt is due and the whole pc equals watchlo or watchhi,
whatever `ie`, `exl` and the mode are (R189; the order and the scope are the spec's decisions D12 and D33, log 31). -/
def Obligations.DebugTakenIffWatched : Prop :=
  ∀ s : State, step s = .next (takeException .debug s.passTime) ↔
    s.passTime.interruptDue = false ∧ (s.pc = s.cp0.watchlo ∨ s.pc = s.cp0.watchhi)

/-- The exceptions of a fetch, in their order: misaligned pc, kernel address in user mode, no TLB entry, page not valid
(R55, R57, R64; decision D10). -/
def Obligations.FetchExceptions : Prop :=
  ∀ s : State, s.passTime.interruptDue = false → s.passTime.watchHit = false →
    (s.pc.toNat % 4 ≠ 0 → step s = .next (takeException (.adel s.pc) s.passTime)) ∧
    (s.pc.toNat % 4 = 0 →
      (s.userMode = true → s.pc.getLsbD 31 = true → step s = .next (takeException (.adel s.pc) s.passTime)) ∧
      (s.userMode = false ∨ s.pc.getLsbD 31 = false → s.pc.extractLsb' 30 2 ≠ 0b10#2 →
        ((∀ i : Fin 16, s.tlb[i].vpn ≠ s.pc.extractLsb' 13 19) →
          step s = .next (takeException (.tlbl s.pc) s.passTime)) ∧
        (∀ i : Fin 16, s.tlb[i].vpn = s.pc.extractLsb' 13 19 →
          (∀ j : Fin 16, s.tlb[j].vpn = s.pc.extractLsb' 13 19 → j = i) →
          (if s.pc.getLsbD 12 then s.tlb[i].valid1 else s.tlb[i].valid0) = false →
          step s = .next (takeException (.tlbl s.pc) s.passTime))))

/-- The time of a step: `count` adds k ≥ 1 and no other CP0 register changes; line 7 is up when `compare` is among the
k values passed, or while a request is held under TIMER_IRQ_HOLD (R208, R210; decisions D17, D18, logs 12, 13, 20);
only the lines 4 and 7 are ever up (R186; decision D16, log 33). -/
def Obligations.TimePassesInStep : Prop :=
  ∀ s : State, ∃ k : Nat, 1 ≤ k ∧ s.passTime.cp0 = { s.cp0 with count := s.cp0.count + BitVec.ofNat 32 k } ∧
    (s.passTime.irq.getLsbD 7 = true ↔
      (∃ j, 1 ≤ j ∧ j ≤ k ∧ s.cp0.compare = s.cp0.count + BitVec.ofNat 32 j) ∨
        (Config.timerIrqHold = true ∧ s.timerHeld = true)) ∧
    (s.passTime.timerHeld = true ↔
      s.timerHeld = true ∨ ∃ j, 1 ≤ j ∧ j ≤ k ∧ s.cp0.compare = s.cp0.count + BitVec.ofNat 32 j) ∧
    s.passTime.irq &&& 0x6f#8 = 0#8

/-- A byte that arrives at a buffer with room is appended and raises line 4 for that step alone; with no arrival the
buffer keeps its bytes and line 4 is down; a full buffer loses the arriving or its oldest byte (R215; decision D27,
logs 15, 18). -/
def Obligations.SerialArrival : Prop :=
  ∀ s : State,
    (∀ b rest, s.arrivals = some b :: rest →
      s.passTime.arrivals = rest ∧
      (s.serialIn.length < Config.serialBufCapacity →
        s.passTime.serialIn = s.serialIn ++ [b] ∧ s.passTime.irq.getLsbD 4 = true) ∧
      (Config.serialBufCapacity ≤ s.serialIn.length →
        (s.passTime.serialIn = s.serialIn ∧ s.passTime.irq.getLsbD 4 = false) ∨
          (s.passTime.serialIn = (s.serialIn ++ [b]).drop 1 ∧ s.passTime.irq.getLsbD 4 = true))) ∧
    (s.arrivals.head? = none ∨ s.arrivals.head? = some none →
      s.passTime.serialIn = s.serialIn ∧ s.passTime.irq.getLsbD 4 = false)

/-! ### Exceptions, the mode, coprocessor 0 -/

/-- Trap entry: what it writes, and that nothing else changes (R195). That the entry runs in full when `exl` was 1 before
is decision D13 (log 11), that cause.ip takes the lines at every entry decision D14 (log 32), and what writes badaddr
decision D35 (log 31). -/
def Obligations.TrapEntryEffect : Prop :=
  ∀ (e : Exn) (s : State),
    (takeException e s).cp0.epc = (if s.ds then s.pc - 4#32 else s.pc) ∧
    (takeException e s).cp0.cause.getLsbD 31 = s.ds ∧
    (takeException e s).cp0.cause.extractLsb' 2 5 =
      (match e with
        | .int => 0#5 | .tlbl _ => 2#5 | .tlbs _ => 3#5 | .adel _ => 4#5 | .ades _ => 5#5 | .sys => 8#5
        | .ri => 10#5 | .debug => 23#5) ∧
    (takeException e s).cp0.cause.extractLsb' 8 8 = s.irq ∧
    (takeException e s).cp0.badaddr =
      (match e with
        | .tlbl a => a | .tlbs a => a | .adel a => a | .ades a => a
        | .int => s.cp0.badaddr | .sys => s.cp0.badaddr | .ri => s.cp0.badaddr | .debug => s.cp0.badaddr) ∧
    (∀ k, k < 32 → (takeException e s).cp0.status.getLsbD k = (if k = 1 then true else s.cp0.status.getLsbD k)) ∧
    (∀ k, k < 31 → ¬ (2 ≤ k ∧ k < 7) → ¬ (8 ≤ k ∧ k < 16) →
      (takeException e s).cp0.cause.getLsbD k = s.cp0.cause.getLsbD k) ∧
    (takeException e s).pc =
      (match e with
        | .tlbl _ => s.cp0.ebase | .tlbs _ => s.cp0.ebase
        | .int => s.cp0.ebase + 0x180#32 | .adel _ => s.cp0.ebase + 0x180#32 | .ades _ => s.cp0.ebase + 0x180#32
        | .sys => s.cp0.ebase + 0x180#32 | .ri => s.cp0.ebase + 0x180#32 | .debug => s.cp0.ebase + 0x180#32) ∧
    (takeException e s).npc = (takeException e s).pc + 4#32 ∧ (takeException e s).ds = false ∧
    (takeException e s).cp0 = { s.cp0 with
      epc := (takeException e s).cp0.epc
      cause := (takeException e s).cp0.cause
      badaddr := (takeException e s).cp0.badaddr
      status := (takeException e s).cp0.status } ∧
    SameRegs s (takeException e s) ∧ SameHiLo s (takeException e s) ∧ SameTlb s (takeException e s) ∧
    SameMemory s (takeException e s) ∧ SameSerial s (takeException e s) ∧ SameClock s (takeException e s)

/-- syscall is the word 0x0000000c and traps always, in either mode and in a delay slot too (R170; the epc of the entry
is the spec's decision D37). -/
def Obligations.SyscallTraps : Prop :=
  decodeWord 0x0000000c#32 = .instr .syscall ∧ ∀ s : State, exec .syscall s = .next (takeException .sys s)

/-- eret outside a delay slot in kernel mode clears `exl`, goes on at epc with no delay slot, and changes nothing else;
the mode becomes user mode when `um` is 1 (R173; decision D32). -/
def Obligations.EretReturns : Prop :=
  decodeWord 0x42000018#32 = .instr .eret ∧
  ∀ s : State, s.ds = false → s.userMode = false → ∃ s', exec .eret s = .next s' ∧
    (∀ k, k < 32 → s'.cp0.status.getLsbD k = (if k = 1 then false else s.cp0.status.getLsbD k)) ∧
    s'.cp0 = { s.cp0 with status := s'.cp0.status } ∧
    s'.pc = s.cp0.epc ∧ s'.npc = s.cp0.epc + 4#32 ∧ s'.ds = false ∧
    s'.userMode = s.cp0.status.getLsbD 4 ∧
    SameRegs s s' ∧ SameHiLo s s' ∧ SameTlb s s' ∧ SameMemory s s' ∧ SameSerial s s' ∧ SameClock s s' ∧
    s'.storeLog = s.storeLog

/-- mfc0, mtc0 and tlbwi in user mode raise reserved instruction with no other effect, whatever register they name
(R172, R188; user mode is `um` = 1 and `exl` = 0 by decision D9). -/
def Obligations.PrivilegedInUserModeReserved : Prop :=
  ∀ (s : State) (t d : Reg), s.cp0.status.getLsbD 4 = true → s.cp0.status.getLsbD 1 = false →
    exec (.mfc0 t d) s = .next (takeException .ri s) ∧ exec (.mtc0 t d) s = .next (takeException .ri s) ∧
      exec .tlbwi s = .next (takeException .ri s)

/-- The numbers of the 13 CP0 registers (R18); every other number names none (R33). -/
def Obligations.Cp0RegisterNumbers : Prop :=
  (cp0RegOfNumber 0#5 = some .index ∧ cp0RegOfNumber 2#5 = some .entrylo0 ∧ cp0RegOfNumber 3#5 = some .entrylo1 ∧
    cp0RegOfNumber 8#5 = some .badaddr ∧ cp0RegOfNumber 9#5 = some .count ∧ cp0RegOfNumber 10#5 = some .entryhi ∧
    cp0RegOfNumber 11#5 = some .compare ∧ cp0RegOfNumber 12#5 = some .status ∧ cp0RegOfNumber 13#5 = some .cause ∧
    cp0RegOfNumber 14#5 = some .epc ∧ cp0RegOfNumber 15#5 = some .ebase ∧ cp0RegOfNumber 18#5 = some .watchlo ∧
    cp0RegOfNumber 19#5 = some .watchhi) ∧
  ∀ d : Reg, cp0RegOfNumber d = none ↔
    d ∉ [0#5, 2#5, 3#5, 8#5, 9#5, 10#5, 11#5, 12#5, 13#5, 14#5, 15#5, 18#5, 19#5]

/-- mfc0 of a named register in kernel mode copies the register, every bit that R20 to R32 describe: index 3-0, entrylo0
and entrylo1 25-6, 2 and 1, entryhi 31-13, status 15-8, 4, 1 and 0, cause 31, 15-8 and 6-2, the other registers whole;
the other bits are free (R174, R19; decisions D7, D19, logs 9, 17). -/
def Obligations.Mfc0ReadsRegister : Prop :=
  ∀ (s : State) (t d : Reg) (r : Cp0Reg), s.userMode = false → cp0RegOfNumber d = some r →
    decodeWord (rWord 0b010000#6 0b00000#5 t d 0#5 0#6) = .instr (.mfc0 t d) ∧
    ∃ v s', exec (.mfc0 t d) s = .next s' ∧ OnlyRegWritten t v s s' ∧
      (r = .index → v &&& 0x0000000f#32 = s.cp0.index &&& 0x0000000f#32) ∧
      (r = .entrylo0 → v &&& 0x03ffffc6#32 = s.cp0.entrylo0 &&& 0x03ffffc6#32) ∧
      (r = .entrylo1 → v &&& 0x03ffffc6#32 = s.cp0.entrylo1 &&& 0x03ffffc6#32) ∧
      (r = .entryhi → v &&& 0xffffe000#32 = s.cp0.entryhi &&& 0xffffe000#32) ∧
      (r = .status → v &&& 0x0000ff13#32 = s.cp0.status &&& 0x0000ff13#32) ∧
      (r = .cause → v &&& 0x8000ff7c#32 = s.cp0.cause &&& 0x8000ff7c#32) ∧
      (r = .badaddr → v = s.cp0.badaddr) ∧ (r = .count → v = s.cp0.count) ∧ (r = .compare → v = s.cp0.compare) ∧
      (r = .epc → v = s.cp0.epc) ∧ (r = .ebase → v = s.cp0.ebase) ∧ (r = .watchlo → v = s.cp0.watchlo) ∧
      (r = .watchhi → v = s.cp0.watchhi)

/-- mtc0 to a named register in kernel mode writes all 32 bits of that register and no other; a write to compare also
withdraws a held timer request (R175, R210; decisions D7, D17, logs 9, 12). -/
def Obligations.Mtc0WritesRegister : Prop :=
  ∀ (s : State) (t d : Reg) (r : Cp0Reg), s.userMode = false → cp0RegOfNumber d = some r →
    decodeWord (rWord 0b010000#6 0b00100#5 t d 0#5 0#6) = .instr (.mtc0 t d) ∧
    ∃ s', exec (.mtc0 t d) s = .next s' ∧ OnlyCp0Written s'.cp0 s s' ∧ cp0Get s'.cp0 r = s.reg t ∧
      (∀ q, q ≠ r → cp0Get s'.cp0 q = cp0Get s.cp0 q) ∧
      s'.timerHeld = (if r = .compare then false else s.timerHeld)

/-- tlbwi is the word 0x42000002; in kernel mode it writes the entry that index names from entryhi, entrylo0 and
entrylo1, the whole entry, and leaves the four registers; in user mode it raises reserved instruction (R176). -/
def Obligations.TlbwiWritesEntry : Prop :=
  decodeWord 0x42000002#32 = .instr .tlbwi ∧
  ∀ s : State,
    (s.userMode = true → exec .tlbwi s = .next (takeException .ri s)) ∧
    (s.userMode = false → ∃ s', exec .tlbwi s = .next s' ∧
      OnlyTlbWritten (s.cp0.index.extractLsb' 0 4).toFin
        { vpn := s.cp0.entryhi.extractLsb' 13 19
          ppn0 := s.cp0.entrylo0.extractLsb' 6 20
          valid0 := s.cp0.entrylo0.getLsbD 1
          write0 := s.cp0.entrylo0.getLsbD 2
          ppn1 := s.cp0.entrylo1.extractLsb' 6 20
          valid1 := s.cp0.entrylo1.getLsbD 1
          write1 := s.cp0.entrylo1.getLsbD 2 } s s')

/-- Where the privileged instructions have no specified behaviour the model stops by name: eret in a delay slot and in
user mode, mfc0 and mtc0 in kernel mode of a number that names no register (R154, R173, R33; logs 24, 25, 26). -/
def Obligations.PrivilegedStops : Prop :=
  ∀ (s : State) (t d : Reg),
    (s.ds = true → exec .eret s = .refused .controlInDelaySlot) ∧
    (s.ds = false → s.userMode = true → exec .eret s = .refused .eretInUserMode) ∧
    (s.userMode = false → cp0RegOfNumber d = none →
      exec (.mfc0 t d) s = .refused .cp0NumberUnnamed ∧ exec (.mtc0 t d) s = .refused .cp0NumberUnnamed)

/-! ### Address translation and the address map -/

/-- The physical address map: the five ranges, and no device elsewhere (R67; the refusals beyond are D29). -/
def Obligations.AddressMap : Prop :=
  ∀ pa : Word,
    (deviceAt pa = some .ram ↔ pa.toNat ≤ 0x003fffff) ∧
    (deviceAt pa = some .vga ↔ 0x10000000 ≤ pa.toNat ∧ pa.toNat ≤ 0x10000fff) ∧
    (deviceAt pa = some .flash ↔ 0x1e000000 ≤ pa.toNat ∧ pa.toNat ≤ 0x1effffff) ∧
    (deviceAt pa = some .serial ↔ 0x1fd003f8 ≤ pa.toNat ∧ pa.toNat ≤ 0x1fd003ff) ∧
    (deviceAt pa = some .rom ↔ 0x1fc00000 ≤ pa.toNat ∧ pa.toNat ≤ 0x1fc001ff)

/-- In kernel mode 0x80000000 to 0xbfffffff map linearly, for every kind of access and whatever the TLB holds (R58). -/
def Obligations.LinearTranslation : Prop :=
  ∀ (s : State) (va : Word) (kind : AccessKind), s.userMode = false → 0x80000000 ≤ va.toNat → va.toNat ≤ 0xbfffffff →
    ∃ pa : Word, translateAddr s va kind = .ok pa ∧ pa = 0b000#3 ++ va.extractLsb' 0 29 ∧
      pa.toNat = (if va.toNat < 0xa0000000 then va.toNat - 0x80000000 else va.toNat - 0xa0000000) ∧
      ∀ tlb, translateAddr { s with tlb := tlb } va kind = .ok pa

/-- Translate, with every outcome that R60 gives: at most one TLB entry holds the page (R60). What a fetch raises is
decision D10, that the mode is tested before the TLB decision D11, the mode itself decision D9 (log 31). -/
def Obligations.TranslateOutcomes : Prop :=
  ∀ (s : State) (va : Word) (kind : AccessKind),
    (s.userMode = true → va.getLsbD 31 = true →
      translateAddr s va kind = .raise (if kind = .store then .ades va else .adel va)) ∧
    (s.userMode = false ∨ va.getLsbD 31 = false →
      (va.extractLsb' 30 2 = 0b10#2 → translateAddr s va kind = .ok (0b000#3 ++ va.extractLsb' 0 29)) ∧
      (va.extractLsb' 30 2 ≠ 0b10#2 →
        ((∀ i : Fin 16, s.tlb[i].vpn ≠ va.extractLsb' 13 19) →
          translateAddr s va kind = .raise (if kind = .store then .tlbs va else .tlbl va)) ∧
        (∀ i : Fin 16, s.tlb[i].vpn = va.extractLsb' 13 19 →
          (∀ j : Fin 16, s.tlb[j].vpn = va.extractLsb' 13 19 → j = i) →
          translateAddr s va kind =
            (if (if va.getLsbD 12 then s.tlb[i].valid1 else s.tlb[i].valid0) = false then
              .raise (if kind = .store then .tlbs va else .tlbl va)
            else if kind = .store ∧ (if va.getLsbD 12 then s.tlb[i].write1 else s.tlb[i].write0) = false then
              .raise (.ades va)
            else .ok ((if va.getLsbD 12 then s.tlb[i].ppn1 else s.tlb[i].ppn0) ++ va.extractLsb' 0 12)))))

/-- The entry that tlbwi writes translates the next access to its pages: valid and write decide, the page number comes
from entrylo0 or entrylo1 (R66, R176; decision D24). -/
def Obligations.TlbwiThenTranslate : Prop :=
  ∀ (s s' : State) (va : Word) (kind : AccessKind), s.userMode = false → exec .tlbwi s = .next s' →
    va.extractLsb' 13 19 = s.cp0.entryhi.extractLsb' 13 19 → va.extractLsb' 30 2 ≠ 0b10#2 →
    (∀ j : Fin 16, s.tlb[j].vpn = va.extractLsb' 13 19 → j = (s.cp0.index.extractLsb' 0 4).toFin) →
    ∀ lo : Word, lo = (if va.getLsbD 12 then s.cp0.entrylo1 else s.cp0.entrylo0) →
      (lo.getLsbD 1 = true → (kind = .store → lo.getLsbD 2 = true) →
        translateAddr s' va kind = .ok (lo.extractLsb' 6 20 ++ va.extractLsb' 0 12)) ∧
      (lo.getLsbD 1 = true → kind = .store → lo.getLsbD 2 = false → translateAddr s' va kind = .raise (.ades va)) ∧
      (lo.getLsbD 1 = false → translateAddr s' va kind = .raise (if kind = .store then .tlbs va else .tlbl va))

/-! ### Loads and stores -/

/-- lw: a misaligned address and a translation that raises are taken; from RAM and ROM it loads the word, from Flash one
cell, and nothing else changes (R161; that misalignment goes before every outcome of the translation is decision D11,
R61, log 31). -/
def Obligations.LoadWord : Prop :=
  ∀ (s : State) (rs rt : Reg) (imm : Imm) (ea : Word), ea = s.reg rs + imm.signExtend 32 →
    decodeWord (iWord 0b100011#6 rs rt imm) = .instr (.lw rs rt imm) ∧
    (ea.toNat % 4 ≠ 0 → exec (.lw rs rt imm) s = .next (takeException (.adel ea) s)) ∧
    (ea.toNat % 4 = 0 →
      (∀ e, translateAddr s ea .load = .raise e → exec (.lw rs rt imm) s = .next (takeException e s)) ∧
      (∀ pa, translateAddr s ea .load = .ok pa →
        (deviceAt pa = some .ram ∨ deviceAt pa = some .rom →
          ∃ s', exec (.lw rs rt imm) s = .next s' ∧
            OnlyRegWritten rt (wordOfBytes (s.byteAt pa.toNat) (s.byteAt (pa.toNat + 1)) (s.byteAt (pa.toNat + 2))
              (s.byteAt (pa.toNat + 3))) s s') ∧
        (deviceAt pa = some .flash →
          ∃ s', exec (.lw rs rt imm) s = .next s' ∧
            OnlyRegWritten rt (wordOfBytes (s.byteAt pa.toNat) (s.byteAt (pa.toNat + 1)) 0#8 0#8) s s')))

/-- lb and lbu: no alignment check; what the read raises is taken; the byte it answers is sign- or zero-extended into
the register and nothing else changes but what the read itself does to a device; a translation that raises is what the
read raises, and from RAM it answers the byte (R163, R164). -/
def Obligations.LoadByte : Prop :=
  ∀ (s : State) (rs rt : Reg) (imm : Imm) (ea : Word), ea = s.reg rs + imm.signExtend 32 →
    decodeWord (iWord 0b100000#6 rs rt imm) = .instr (.lb rs rt imm) ∧
    decodeWord (iWord 0b100100#6 rs rt imm) = .instr (.lbu rs rt imm) ∧
    (∀ e, loadByte s ea = .raise e →
      exec (.lb rs rt imm) s = .next (takeException e s) ∧ exec (.lbu rs rt imm) s = .next (takeException e s)) ∧
    (∀ b t, loadByte s ea = .ok (b, t) →
      (∃ s', exec (.lb rs rt imm) s = .next s' ∧ OnlyRegWritten rt (b.signExtend 32) t s') ∧
      (∃ s', exec (.lbu rs rt imm) s = .next s' ∧ OnlyRegWritten rt (b.setWidth 32) t s')) ∧
    (∀ e, translateAddr s ea .load = .raise e → loadByte s ea = .raise e) ∧
    (∀ pa, translateAddr s ea .load = .ok pa → deviceAt pa = some .ram →
      loadByte s ea = .ok (s.byteAt pa.toNat, s))

/-- sw: a misaligned address and a translation that raises are taken; to RAM it stores the four bytes, little-endian, and
every other byte and every register is unchanged (R162; that misalignment goes before every outcome of the translation
is decision D11, R61, log 31), and the store is dated for the window of R81 (decision D23, log 14). Memory is in its
canonical form, which every step keeps. -/
def Obligations.StoreWord : Prop :=
  ∀ (s : State) (rs rt : Reg) (imm : Imm), Memory.wf s.mem = true →
    decodeWord (iWord 0b101011#6 rs rt imm) = .instr (.sw rs rt imm) ∧
    effectiveAddress (s.reg rs) imm = s.reg rs + imm.signExtend 32 ∧
    ((effectiveAddress (s.reg rs) imm).toNat % 4 ≠ 0 →
      exec (.sw rs rt imm) s = .next (takeException (.ades (effectiveAddress (s.reg rs) imm)) s)) ∧
    ((effectiveAddress (s.reg rs) imm).toNat % 4 = 0 →
      (∀ e, translateAddr s (effectiveAddress (s.reg rs) imm) .store = .raise e →
        exec (.sw rs rt imm) s = .next (takeException e s)) ∧
      (∀ pa, translateAddr s (effectiveAddress (s.reg rs) imm) .store = .ok pa → deviceAt pa = some .ram →
        ∃ s', exec (.sw rs rt imm) s = .next s' ∧ OnlyMemoryWritten pa.toNat 4 s s' ∧
          s'.byteAt pa.toNat = (s.reg rt).extractLsb' 0 8 ∧ s'.byteAt (pa.toNat + 1) = (s.reg rt).extractLsb' 8 8 ∧
          s'.byteAt (pa.toNat + 2) = (s.reg rt).extractLsb' 16 8 ∧
          s'.byteAt (pa.toNat + 3) = (s.reg rt).extractLsb' 24 8 ∧
          logGet s'.storeLog (pa.toNat / 4) = some s.insns ∧
          ∀ k, k ≠ pa.toNat / 4 → logGet s'.storeLog k = logGet s.storeLog k))

/-- sb: no alignment check; what the write of bits 7-0 of the register raises is taken, and where it answers the
instruction does just that; a translation that raises is what the write raises; to RAM it stores one byte, every
other byte and every register is unchanged (R165), and the store is dated for the window of R81 (decision D23, log 14).
Memory is in its canonical form, which every step keeps. -/
def Obligations.StoreByte : Prop :=
  ∀ (s : State) (rs rt : Reg) (imm : Imm), Memory.wf s.mem = true →
    decodeWord (iWord 0b101000#6 rs rt imm) = .instr (.sb rs rt imm) ∧
    effectiveAddress (s.reg rs) imm = s.reg rs + imm.signExtend 32 ∧
    (∀ e, storeByte s (effectiveAddress (s.reg rs) imm) ((s.reg rt).extractLsb' 0 8) = .raise e →
      exec (.sb rs rt imm) s = .next (takeException e s)) ∧
    (∀ t, storeByte s (effectiveAddress (s.reg rs) imm) ((s.reg rt).extractLsb' 0 8) = .ok t →
      ∃ s', exec (.sb rs rt imm) s = .next s' ∧ OnlyPcWritten t s') ∧
    (∀ e b, translateAddr s (effectiveAddress (s.reg rs) imm) .store = .raise e →
      storeByte s (effectiveAddress (s.reg rs) imm) b = .raise e) ∧
    (∀ pa, translateAddr s (effectiveAddress (s.reg rs) imm) .store = .ok pa → deviceAt pa = some .ram →
      ∃ s', exec (.sb rs rt imm) s = .next s' ∧ OnlyMemoryWritten pa.toNat 1 s s' ∧
        s'.byteAt pa.toNat = (s.reg rt).extractLsb' 0 8 ∧
        logGet s'.storeLog (pa.toNat / 4) = some s.insns ∧
        ∀ k, k ≠ pa.toNat / 4 → logGet s'.storeLog k = logGet s.storeLog k)

/-- Byte order: after a word store to RAM, a byte load from each of its four addresses gives the byte that stands there
little-endian and a word load gives the word; after a byte store inside it, a word load gives the word with that byte
replaced (R51). Memory is in its canonical form, which every step keeps. -/
def Obligations.LittleEndianStores : Prop :=
  ∀ (s : State) (va pa w : Word) (b : Byte) (k : Nat), Memory.wf s.mem = true → va.toNat % 4 = 0 → k < 4 →
    translateAddr s va .store = .ok pa → deviceAt pa = some .ram →
    ∃ s1, storeWord s va w = .ok s1 ∧
      loadByte s1 (va + BitVec.ofNat 32 k) = .ok (w.extractLsb' (8 * k) 8, s1) ∧ loadWord s1 va = .ok w ∧
      ∃ s2, storeByte s1 (va + BitVec.ofNat 32 k) b = .ok s2 ∧
        ∃ w2, loadWord s2 va = .ok w2 ∧
          ∀ j, j < 4 → w2.extractLsb' (8 * j) 8 = (if j = k then b else w.extractLsb' (8 * j) 8)

/-! ### Devices -/

/-- A byte load from the serial data register takes the oldest byte out of the buffer, or reads 0xff from an empty one
and changes nothing (R212; that the buffer is first-in first-out and that a byte access at offset 0 is described is
decision D27, R211, log 31). -/
def Obligations.SerialDataRead : Prop :=
  ∀ (s : State) (rs rt : Reg) (imm : Imm), translateAddr s (s.reg rs + imm.signExtend 32) .load = .ok 0x1fd003f8#32 →
    (∀ b q, s.serialIn = b :: q →
      (∃ s', exec (.lb rs rt imm) s = .next s' ∧ OnlyRegWritten rt (b.signExtend 32) { s with serialIn := q } s') ∧
      (∃ s', exec (.lbu rs rt imm) s = .next s' ∧ OnlyRegWritten rt (b.setWidth 32) { s with serialIn := q } s')) ∧
    (s.serialIn = [] →
      (∃ s', exec (.lb rs rt imm) s = .next s' ∧ OnlyRegWritten rt 0xffffffff#32 s s') ∧
      (∃ s', exec (.lbu rs rt imm) s = .next s' ∧ OnlyRegWritten rt 0x000000ff#32 s s'))

/-- A byte load from the serial status register reads a byte of which SERIAL_STATUS_HAS_DATA is true exactly when the
buffer holds data, and has no side effect (R214, log 16). -/
def Obligations.SerialStatusRead : Prop :=
  ∀ (s : State) (rs rt : Reg) (imm : Imm), translateAddr s (s.reg rs + imm.signExtend 32) .load = .ok 0x1fd003fc#32 →
    ∃ b : Byte, (Config.serialStatusHasData b = true ↔ s.serialIn ≠ []) ∧
      (∃ s', exec (.lb rs rt imm) s = .next s' ∧ OnlyRegWritten rt (b.signExtend 32) s s') ∧
      (∃ s', exec (.lbu rs rt imm) s = .next s' ∧ OnlyRegWritten rt (b.setWidth 32) s s')

/-- A byte store to the serial data register sends bits 7-0 of the register and changes nothing that a program can read
(R213); that no byte is lost to a busy transmitter is log 28. -/
def Obligations.SerialDataWrite : Prop :=
  ∀ (s : State) (rs rt : Reg) (imm : Imm), translateAddr s (s.reg rs + imm.signExtend 32) .store = .ok 0x1fd003f8#32 →
    ∃ s', exec (.sb rs rt imm) s = .next s' ∧
      OnlyPcWritten { s with serialOut := s.serialOut ++ [(s.reg rt).extractLsb' 0 8] } s'

/-- A byte store to one of the 2400 character cells writes that cell alone; in the rest of the VGA range it has no effect
(R216; decision D28, log 27). Memory is in its canonical form, which every step keeps. -/
def Obligations.VgaWrite : Prop :=
  ∀ (s : State) (rs rt : Reg) (imm : Imm) (pa : Word), Memory.wf s.mem = true →
    translateAddr s (effectiveAddress (s.reg rs) imm) .store = .ok pa →
    0x10000000 ≤ pa.toNat → pa.toNat ≤ 0x10000fff →
    ∃ s', exec (.sb rs rt imm) s = .next s' ∧
      (pa.toNat < 0x10000960 →
        OnlyMemoryWritten pa.toNat 1 s s' ∧ s'.byteAt pa.toNat = (s.reg rt).extractLsb' 0 8 ∧
          s'.storeLog = s.storeLog) ∧
      (0x10000960 ≤ pa.toNat → OnlyPcWritten s s')

/-- Every load, store and fetch at an address whose device or translation the spec does not describe stops by name: no
device, a direction or width the device is not said to support, a translation with several matches (R64, R65, R74, R75,
R211; decisions D10, D29, D34, logs 21, 22, 23). The fetches inside the window of R81 are in `FetchReadsWord`. -/
def Obligations.UndescribedAccessesStop : Prop :=
  (∀ (s : State) (pa : Word), s.passTime.interruptDue = false → s.passTime.watchHit = false → s.pc.toNat % 4 = 0 →
    (translateAddr s.passTime s.pc .fetch = .ok pa → storedWithinWindow s.passTime pa = false →
      (deviceAt pa = none → step s = .fault (.noDevice pa)) ∧
      (deviceAt pa = some .vga → step s = .refused .vgaRead) ∧
      (deviceAt pa = some .serial → step s = .refused .serialWordAccess)) ∧
    (s.userMode = false ∨ s.pc.getLsbD 31 = false → s.pc.extractLsb' 30 2 ≠ 0b10#2 →
      ∀ i j : Fin 16, i ≠ j → s.tlb[i].vpn = s.pc.extractLsb' 13 19 → s.tlb[j].vpn = s.pc.extractLsb' 13 19 →
        step s = .refused .tlbMultipleMatch)) ∧
  ∀ (s : State) (rs rt : Reg) (imm : Imm) (ea pa : Word), ea = s.reg rs + imm.signExtend 32 →
    (translateAddr s ea .load = .ok pa →
      (deviceAt pa = none →
        exec (.lb rs rt imm) s = .fault (.noDevice pa) ∧ exec (.lbu rs rt imm) s = .fault (.noDevice pa)) ∧
      (deviceAt pa = some .vga →
        exec (.lb rs rt imm) s = .refused .vgaRead ∧ exec (.lbu rs rt imm) s = .refused .vgaRead) ∧
      (deviceAt pa = some .flash →
        exec (.lb rs rt imm) s = .refused .flashByteRead ∧ exec (.lbu rs rt imm) s = .refused .flashByteRead) ∧
      (deviceAt pa = some .rom →
        exec (.lb rs rt imm) s = .refused .romByteRead ∧ exec (.lbu rs rt imm) s = .refused .romByteRead) ∧
      (deviceAt pa = some .serial → pa ≠ 0x1fd003f8#32 → pa ≠ 0x1fd003fc#32 →
        exec (.lb rs rt imm) s = .refused .serialOffset ∧ exec (.lbu rs rt imm) s = .refused .serialOffset) ∧
      (ea.toNat % 4 = 0 →
        (deviceAt pa = none → exec (.lw rs rt imm) s = .fault (.noDevice pa)) ∧
        (deviceAt pa = some .vga → exec (.lw rs rt imm) s = .refused .vgaRead) ∧
        (deviceAt pa = some .serial → exec (.lw rs rt imm) s = .refused .serialWordAccess))) ∧
    (translateAddr s ea .store = .ok pa →
      (deviceAt pa = none → exec (.sb rs rt imm) s = .fault (.noDevice pa)) ∧
      (deviceAt pa = some .flash → exec (.sb rs rt imm) s = .refused .flashWrite) ∧
      (deviceAt pa = some .rom → exec (.sb rs rt imm) s = .refused .romWrite) ∧
      (pa = 0x1fd003fc#32 → exec (.sb rs rt imm) s = .refused .serialStatusWrite) ∧
      (deviceAt pa = some .serial → pa ≠ 0x1fd003f8#32 → pa ≠ 0x1fd003fc#32 →
        exec (.sb rs rt imm) s = .refused .serialOffset) ∧
      (ea.toNat % 4 = 0 →
        (deviceAt pa = none → exec (.sw rs rt imm) s = .fault (.noDevice pa)) ∧
        (deviceAt pa = some .vga → exec (.sw rs rt imm) s = .refused .vgaWordWrite) ∧
        (deviceAt pa = some .flash → exec (.sw rs rt imm) s = .refused .flashWrite) ∧
        (deviceAt pa = some .serial → exec (.sw rs rt imm) s = .refused .serialWordAccess) ∧
        (deviceAt pa = some .rom → exec (.sw rs rt imm) s = .refused .romWrite))) ∧
    (s.userMode = false ∨ ea.getLsbD 31 = false → ea.extractLsb' 30 2 ≠ 0b10#2 →
      ∀ i j : Fin 16, i ≠ j → s.tlb[i].vpn = ea.extractLsb' 13 19 → s.tlb[j].vpn = ea.extractLsb' 13 19 →
        exec (.lb rs rt imm) s = .refused .tlbMultipleMatch ∧ exec (.lbu rs rt imm) s = .refused .tlbMultipleMatch ∧
        exec (.sb rs rt imm) s = .refused .tlbMultipleMatch ∧
        (ea.toNat % 4 = 0 → exec (.lw rs rt imm) s = .refused .tlbMultipleMatch ∧
          exec (.sw rs rt imm) s = .refused .tlbMultipleMatch))

/-! ### Arithmetic, logic, shifts -/

/-- addu, slt and sltu complete in every state with the results of R111, R114 and R116, and change nothing else. -/
def Obligations.AddAndCompare : Prop :=
  ∀ (s : State) (rs rt rd : Reg),
    decodeWord (rWord 0#6 rs rt rd 0#5 0b100001#6) = .instr (.addu rs rt rd) ∧
    decodeWord (rWord 0#6 rs rt rd 0#5 0b101010#6) = .instr (.slt rs rt rd) ∧
    decodeWord (rWord 0#6 rs rt rd 0#5 0b101011#6) = .instr (.sltu rs rt rd) ∧
    (∃ s', exec (.addu rs rt rd) s = .next s' ∧
      OnlyRegWritten rd (BitVec.ofNat 32 ((s.reg rs).toNat + (s.reg rt).toNat)) s s') ∧
    (∃ s', exec (.slt rs rt rd) s = .next s' ∧
      OnlyRegWritten rd (if (s.reg rs).toInt < (s.reg rt).toInt then 1#32 else 0#32) s s') ∧
    (∃ s', exec (.sltu rs rt rd) s = .next s' ∧
      OnlyRegWritten rd (if (s.reg rs).toNat < (s.reg rt).toNat then 1#32 else 0#32) s s')

/-- subu, or and nor complete in every state with the results of R113, R127 and R126, and change nothing else; their
`func` values are the spec's resolution of the conflicts C1 and C2 (decision D1). -/
def Obligations.SubtractOrNor : Prop :=
  ∀ (s : State) (rs rt rd : Reg),
    decodeWord (rWord 0#6 rs rt rd 0#5 0b100011#6) = .instr (.subu rs rt rd) ∧
    decodeWord (rWord 0#6 rs rt rd 0#5 0b100101#6) = .instr (.or rs rt rd) ∧
    decodeWord (rWord 0#6 rs rt rd 0#5 0b100111#6) = .instr (.nor rs rt rd) ∧
    (∃ s', exec (.subu rs rt rd) s = .next s' ∧
      OnlyRegWritten rd (BitVec.ofInt 32 ((s.reg rs).toNat - (s.reg rt).toNat)) s s') ∧
    (∃ s', exec (.or rs rt rd) s = .next s' ∧ OnlyRegWritten rd (s.reg rs ||| s.reg rt) s s') ∧
    (∃ s', exec (.nor rs rt rd) s = .next s' ∧ OnlyRegWritten rd (~~~ (s.reg rs ||| s.reg rt)) s s')

/-- and and xor complete in every state with the results of R123 and R129, and change nothing else. -/
def Obligations.AndXor : Prop :=
  ∀ (s : State) (rs rt rd : Reg),
    decodeWord (rWord 0#6 rs rt rd 0#5 0b100100#6) = .instr (.and rs rt rd) ∧
    decodeWord (rWord 0#6 rs rt rd 0#5 0b100110#6) = .instr (.xor rs rt rd) ∧
    (∃ s', exec (.and rs rt rd) s = .next s' ∧ OnlyRegWritten rd (s.reg rs &&& s.reg rt) s s') ∧
    (∃ s', exec (.xor rs rt rd) s = .next s' ∧ OnlyRegWritten rd (s.reg rs ^^^ s.reg rt) s s')

/-- addiu and slti sign-extend their immediate and complete in every state with the results of R112 and R115, and change
nothing else. -/
def Obligations.SignedImmediates : Prop :=
  ∀ (s : State) (rs rt : Reg) (imm : Imm),
    decodeWord (iWord 0b001001#6 rs rt imm) = .instr (.addiu rs rt imm) ∧
    decodeWord (iWord 0b001010#6 rs rt imm) = .instr (.slti rs rt imm) ∧
    (∃ s', exec (.addiu rs rt imm) s = .next s' ∧
      OnlyRegWritten rt (BitVec.ofInt 32 ((s.reg rs).toInt + imm.toInt)) s s') ∧
    (∃ s', exec (.slti rs rt imm) s = .next s' ∧
      OnlyRegWritten rt (if (s.reg rs).toInt < imm.toInt then 1#32 else 0#32) s s')

/-- andi, ori, xori and lui zero-extend or shift up their immediate and complete in every state with the results of R124,
R128, R130 and R125, and change nothing else. -/
def Obligations.LogicImmediates : Prop :=
  ∀ (s : State) (rs rt : Reg) (imm : Imm),
    decodeWord (iWord 0b001100#6 rs rt imm) = .instr (.andi rs rt imm) ∧
    decodeWord (iWord 0b001101#6 rs rt imm) = .instr (.ori rs rt imm) ∧
    decodeWord (iWord 0b001110#6 rs rt imm) = .instr (.xori rs rt imm) ∧
    decodeWord (iWord 0b001111#6 0#5 rt imm) = .instr (.lui rt imm) ∧
    (∃ s', exec (.andi rs rt imm) s = .next s' ∧
      OnlyRegWritten rt (0#16 ++ ((s.reg rs).extractLsb' 0 16 &&& imm)) s s') ∧
    (∃ s', exec (.ori rs rt imm) s = .next s' ∧
      OnlyRegWritten rt ((s.reg rs).extractLsb' 16 16 ++ ((s.reg rs).extractLsb' 0 16 ||| imm)) s s') ∧
    (∃ s', exec (.xori rs rt imm) s = .next s' ∧
      OnlyRegWritten rt ((s.reg rs).extractLsb' 16 16 ++ ((s.reg rs).extractLsb' 0 16 ^^^ imm)) s s') ∧
    (∃ s', exec (.lui rt imm) s = .next s' ∧ OnlyRegWritten rt (BitVec.ofNat 32 (imm.toNat * 65536)) s s')

/-- sltiu zero-extends its immediate and compares unsigned: the source's text, SLTIU_IMM_EXT = zero (R117; decision D6,
log 8). -/
def Obligations.CompareUnsignedImmediate : Prop :=
  ∀ (s : State) (rs rt : Reg) (imm : Imm),
    decodeWord (iWord 0b001011#6 rs rt imm) = .instr (.sltiu rs rt imm) ∧
    ∃ s', exec (.sltiu rs rt imm) s = .next s' ∧
      OnlyRegWritten rt (if (s.reg rs).toNat < imm.toNat then 1#32 else 0#32) s s'

/-- sll, sra and srl complete in every state with the results of R131, R133 and R135, as arithmetic: a product modulo
2^32, a quotient rounded towards minus infinity, an unsigned quotient; nothing else changes. -/
def Obligations.ShiftsByAmount : Prop :=
  ∀ (s : State) (rt rd : Reg) (sa : BitVec 5),
    decodeWord (rWord 0#6 0#5 rt rd sa 0b000000#6) = .instr (.sll rt rd sa) ∧
    decodeWord (rWord 0#6 0#5 rt rd sa 0b000011#6) = .instr (.sra rt rd sa) ∧
    decodeWord (rWord 0#6 0#5 rt rd sa 0b000010#6) = .instr (.srl rt rd sa) ∧
    (∃ s', exec (.sll rt rd sa) s = .next s' ∧
      OnlyRegWritten rd (BitVec.ofNat 32 ((s.reg rt).toNat * 2 ^ sa.toNat)) s s') ∧
    (∃ s', exec (.sra rt rd sa) s = .next s' ∧
      OnlyRegWritten rd (BitVec.ofInt 32 ((s.reg rt).toInt / 2 ^ sa.toNat)) s s') ∧
    (∃ s', exec (.srl rt rd sa) s = .next s' ∧
      OnlyRegWritten rd (BitVec.ofNat 32 ((s.reg rt).toNat / 2 ^ sa.toNat)) s s')

/-- sllv, srav and srlv shift by the low five bits of x[s] (R132, R134, R136; decision D4). -/
def Obligations.ShiftsByRegister : Prop :=
  ∀ (s : State) (rs rt rd : Reg),
    decodeWord (rWord 0#6 rs rt rd 0#5 0b000100#6) = .instr (.sllv rs rt rd) ∧
    decodeWord (rWord 0#6 rs rt rd 0#5 0b000111#6) = .instr (.srav rs rt rd) ∧
    decodeWord (rWord 0#6 rs rt rd 0#5 0b000110#6) = .instr (.srlv rs rt rd) ∧
    (∃ s', exec (.sllv rs rt rd) s = .next s' ∧
      OnlyRegWritten rd (BitVec.ofNat 32 ((s.reg rt).toNat * 2 ^ ((s.reg rs).toNat % 32))) s s') ∧
    (∃ s', exec (.srav rs rt rd) s = .next s' ∧
      OnlyRegWritten rd (BitVec.ofInt 32 ((s.reg rt).toInt / 2 ^ ((s.reg rs).toNat % 32))) s s') ∧
    (∃ s', exec (.srlv rs rt rd) s = .next s' ∧
      OnlyRegWritten rd (BitVec.ofNat 32 ((s.reg rt).toNat / 2 ^ ((s.reg rs).toNat % 32))) s s')

/-- mult leaves in hi and lo the exact signed product, and changes nothing else (R118; that it is signed is decision
D3). -/
def Obligations.MultiplyIsExact : Prop :=
  ∀ (s : State) (rs rt : Reg),
    decodeWord (rWord 0#6 rs rt 0#5 0#5 0b011000#6) = .instr (.mult rs rt) ∧
    ∃ h l s', exec (.mult rs rt) s = .next s' ∧ OnlyHiLoWritten h l s s' ∧
      (h ++ l : BitVec 64).toInt = (s.reg rs).toInt * (s.reg rt).toInt

/-- mflo, mtlo, mfhi and mthi move between hi, lo and a register, in every state, and change nothing else (R119 to
R122; the source's rotated rows are read as the resolution of conflict C4 says, log 31). -/
def Obligations.HiLoMoves : Prop :=
  ∀ (s : State) (r : Reg),
    decodeWord (rWord 0#6 0#5 0#5 r 0#5 0b010010#6) = .instr (.mflo r) ∧
    decodeWord (rWord 0#6 r 0#5 0#5 0#5 0b010011#6) = .instr (.mtlo r) ∧
    decodeWord (rWord 0#6 0#5 0#5 r 0#5 0b010000#6) = .instr (.mfhi r) ∧
    decodeWord (rWord 0#6 r 0#5 0#5 0#5 0b010001#6) = .instr (.mthi r) ∧
    (∃ s', exec (.mflo r) s = .next s' ∧ OnlyRegWritten r s.lo s s') ∧
    (∃ s', exec (.mtlo r) s = .next s' ∧ OnlyHiLoWritten s.hi (s.reg r) s s') ∧
    (∃ s', exec (.mfhi r) s = .next s' ∧ OnlyRegWritten r s.hi s s') ∧
    (∃ s', exec (.mthi r) s = .next s' ∧ OnlyHiLoWritten (s.reg r) s.lo s s')

/-! ### Branches and jumps -/

/-- The six conditional branches outside a delay slot: the next instruction is the delay slot, the one after it the
target if the condition holds and pc + 8 if not; nothing but the program counter changes (R141 to R146 with R15; the
scaled target is decision D5, log 7). -/
def Obligations.ConditionalBranches : Prop :=
  ∀ (s : State) (rs rt : Reg) (imm : Imm) (T : Word), s.ds = false →
    T = s.pc + 4#32 + BitVec.ofInt 32 (imm.toInt * 4) →
    ∀ (i : Instr) (taken : Prop),
      (i = .beq rs rt imm ∧ (taken ↔ s.reg rs = s.reg rt)) ∨ (i = .bne rs rt imm ∧ (taken ↔ s.reg rs ≠ s.reg rt)) ∨
        (i = .bgez rs imm ∧ (taken ↔ 0 ≤ (s.reg rs).toInt)) ∨ (i = .bgtz rs imm ∧ (taken ↔ 0 < (s.reg rs).toInt)) ∨
        (i = .blez rs imm ∧ (taken ↔ (s.reg rs).toInt ≤ 0)) ∨ (i = .bltz rs imm ∧ (taken ↔ (s.reg rs).toInt < 0)) →
      ∃ s', exec i s = .next s' ∧ OnlyPcWritten s s' ∧ s'.pc = s.npc ∧ s'.ds = true ∧
        (taken → s'.npc = T) ∧ (¬ taken → s'.npc = s.npc + 4#32)

/-- j and jr outside a delay slot: the delay slot next, then the target; nothing but the program counter changes (R147,
R149). -/
def Obligations.JumpsWithoutLink : Prop :=
  ∀ (s : State) (rs : Reg) (address : BitVec 26), s.ds = false →
    decodeWord (jWord 0b000010#6 address) = .instr (.j address) ∧
    decodeWord (rWord 0#6 rs 0#5 0#5 0#5 0b001000#6) = .instr (.jr rs) ∧
    (∃ s', exec (.j address) s = .next s' ∧ OnlyPcWritten s s' ∧ s'.pc = s.npc ∧ s'.ds = true ∧
      s'.npc = (s.pc + 4#32).extractLsb' 28 4 ++ address ++ 0b00#2) ∧
    (∃ s', exec (.jr rs) s = .next s' ∧ OnlyPcWritten s s' ∧ s'.pc = s.npc ∧ s'.ds = true ∧ s'.npc = s.reg rs)

/-- jal and jalr outside a delay slot: the link register gets pc + 8, then as j and jr; jalr reads its target before it
writes the link (R148, R150; the `op` of jal is the resolution of conflict C3, the order in jalr decision D30). -/
def Obligations.JumpsWithLink : Prop :=
  ∀ (s : State) (rs rd : Reg) (address : BitVec 26), s.ds = false →
    decodeWord (jWord 0b000011#6 address) = .instr (.jal address) ∧
    decodeWord (rWord 0#6 rs 0#5 rd 0#5 0b001001#6) = .instr (.jalr rs rd) ∧
    (∃ s', exec (.jal address) s = .next s' ∧ OnlyRegWritten 31#5 (s.pc + 8#32) s s' ∧ s'.pc = s.npc ∧
      s'.ds = true ∧ s'.npc = (s.pc + 4#32).extractLsb' 28 4 ++ address ++ 0b00#2) ∧
    (∃ s', exec (.jalr rs rd) s = .next s' ∧ OnlyRegWritten rd (s.pc + 8#32) s s' ∧ s'.pc = s.npc ∧
      s'.ds = true ∧ s'.npc = s.reg rs)

/-- Each of the ten branches and jumps, and eret, is refused in a delay slot (R154; decision D38, log 24). -/
def Obligations.ControlInDelaySlotRefused : Prop :=
  ∀ (i : Instr) (s : State), isControl i = true ∨ i = .eret → s.ds = true →
    exec i s = .refused .controlInDelaySlot

/-- The step after a branch or jump either runs the delay slot and goes on at the branch's target, or takes an exception
that records the address of the branch with `bd` = 1 and drops the target (R140, R153; decision D26). -/
def Obligations.DelaySlotThenTarget : Prop :=
  ∀ (s s1 s2 : State) (i : Instr), isControl i = true → s.npc = s.pc + 4#32 → exec i s = .next s1 →
    step s1 = .next s2 →
    (s2.pc = s1.npc ∧ s2.npc = s1.npc + 4#32 ∧ s2.ds = false) ∨
      (s2.cp0.epc = s.pc ∧ s2.cp0.cause.getLsbD 31 = true ∧ s2.cp0.status.getLsbD 1 = true ∧ s2.ds = false ∧
        (s2.pc = s1.cp0.ebase ∨ s2.pc = s1.cp0.ebase + 0x180#32))

/-- A well-formed branch or jump executed again with the registers it left behind does the same: the same delay slot, the
same target, the same registers (R153; decision D26). jalr with one register as target and link is the form that
`Instr.wellFormed` excludes. -/
def Obligations.BranchCanBeRestarted : Prop :=
  ∀ (i : Instr) (s s1 t : State), isControl i = true → i.wellFormed = true → exec i s = .next s1 →
    SameRegs s1 t → t.pc = s.pc → t.npc = s.npc → t.ds = false →
    ∃ t1, exec i t = .next t1 ∧ t1.pc = s1.pc ∧ t1.npc = s1.npc ∧ t1.ds = s1.ds ∧ SameRegs s1 t1

/-- Every instruction but a branch, a jump and eret goes on at npc, or takes an exception (R15). -/
def Obligations.SequentialAdvance : Prop :=
  ∀ (i : Instr) (s s' : State), isControl i = false → i ≠ .eret → exec i s = .next s' →
    SequentialPc s s' ∨ ∃ e, e ≠ .int ∧ e ≠ .debug ∧ s' = takeException e s

/-! ### Reset -/

/-- The machine after reset: it begins at 0xbfc00000 in kernel mode with interrupts off and x[0] = 0 (R230; how mode and
interrupts are realised is decision D20), and its watch registers equal no aligned pc (R233, item 2, with the model's
value of log 2). From every state of power-up whose watch registers spare the reset pc (R231, R233, item 2) the first
step takes neither interrupt nor debug exception and fetches the first word of ROM. With the TLB as R233, item 4, has
software prepare it no mapped access hits a page: in kernel mode every one is a TLB miss, and none has several matches;
so it is right after reset (log 3). A kernel that has set `um` and `exl` enters user mode at epc by eret (R233, item 7;
the mode is decision D9). -/
def Obligations.ResetState : Prop :=
  State.reset.pc = 0xbfc00000#32 ∧ State.reset.npc = 0xbfc00004#32 ∧ State.reset.ds = false ∧
    State.reset.userMode = false ∧ State.reset.cp0.status.getLsbD 4 = false ∧
    State.reset.cp0.status.getLsbD 0 = false ∧ State.reset.reg 0#5 = 0#32 ∧
    atPowerUp State.reset = true ∧ tlbPrepared State.reset = true ∧
    (∀ pc : Word, pc.toNat % 4 = 0 → watchSpares State.reset pc = true) ∧
    (∀ s : State, atPowerUp s = true → watchSpares s 0xbfc00000#32 = true →
      s.passTime.interruptDue = false ∧ s.passTime.watchHit = false ∧
        fetch s.passTime = .ok (wordOfBytes (s.byteAt 0x1fc00000) (s.byteAt 0x1fc00001) (s.byteAt 0x1fc00002)
          (s.byteAt 0x1fc00003))) ∧
    (∀ (s : State) (va : Word) (kind : AccessKind), tlbPrepared s = true →
      translateAddr s va kind ≠ .refuse .tlbMultipleMatch ∧
      (s.userMode = false → va.extractLsb' 30 2 ≠ 0b10#2 →
        translateAddr s va kind = .raise (if kind = .store then .tlbs va else .tlbl va))) ∧
    ∀ s : State, s.ds = false → s.cp0.status.getLsbD 4 = true → s.cp0.status.getLsbD 1 = true →
      ∃ s', exec .eret s = .next s' ∧ s'.userMode = true ∧ s'.pc = s.cp0.epc

/-- The machine after reset has the invariant (R230 with the model's own values of the logs 1 to 5). -/
def Obligations.ResetHasInvariant : Prop := Invariant State.reset

/-! ### Every step -/

/-- x[0] reads 0 in every state, and a write to it changes nothing (R11). -/
def Obligations.ZeroRegister : Prop :=
  ∀ s : State, s.reg 0#5 = 0#32 ∧ ∀ v, s.setReg 0#5 v = s

/-- Every step keeps the invariant (`Invariant` in Sys2Proof/Safety.lean; that only the lines 4 and 7 are ever up is
decision D16, log 33, the log of stores is the model's own, log 14). -/
def Obligations.StepKeepsInvariant : Prop :=
  ∀ s s' : State, Invariant s → step s = .next s' → Invariant s'

/-- A step from user mode changes neither the TLB nor `um`; either it stays in user mode and of CP0 only `count` has
changed, or it has taken an exception: `exl` is 1 and the handler at one of the two vectors is next (R206, R207; the
mode is decision D9). -/
def Obligations.UserModeConfined : Prop :=
  ∀ s s' : State, s.userMode = true → step s = .next s' →
    SameTlb s s' ∧ s'.cp0.status.getLsbD 4 = true ∧
    ((s'.userMode = true ∧ s'.cp0 = { s.cp0 with count := s.passTime.cp0.count }) ∨
      (s'.userMode = false ∧ s'.cp0.status.getLsbD 1 = true ∧ SameRegs s s' ∧ SameHiLo s s' ∧ SameMemory s s' ∧
        (s'.pc = s.cp0.ebase ∨ s'.pc = s.cp0.ebase + 0x180#32)))

/-- A step from user mode changes a byte of memory only in a physical page that some TLB entry maps valid and writable
(R57, R60, R206; the mode is decision D9). -/
def Obligations.UserStoresInWritablePages : Prop :=
  ∀ (s s' : State) (a : Nat), s.userMode = true → step s = .next s' → s'.byteAt a ≠ s.byteAt a →
    ∃ i : Fin 16,
      (s.tlb[i].valid0 = true ∧ s.tlb[i].write0 = true ∧ a / 4096 = s.tlb[i].ppn0.toNat) ∨
        (s.tlb[i].valid1 = true ∧ s.tlb[i].write1 = true ∧ a / 4096 = s.tlb[i].ppn1.toNat)

/-- No step changes a byte outside RAM and the VGA character cells: ROM and Flash keep their images (R69, R71, R75;
decision D29, log 23). -/
def Obligations.OnlyRamAndVgaChange : Prop :=
  ∀ (s s' : State) (a : Nat), writableByte a = false → step s = .next s' → s'.byteAt a = s.byteAt a

/-- What only one instruction changes: `um`, the TLB inputs, compare, ebase and the watch registers only mtc0 in kernel
mode, the TLB only tlbwi in kernel mode, hi and lo only mult, mthi and mtlo (R12, R20 to R23, R26, R27, R30 to R32, R34,
R207; the mode is decision D9). -/
def Obligations.SoleWriters : Prop :=
  ∀ (i : Instr) (s s' : State), exec i s = .next s' →
    ((∀ t d, i ≠ .mtc0 t d) ∨ s.userMode = true →
      s'.cp0.um = s.cp0.um ∧ s'.cp0.im = s.cp0.im ∧ s'.cp0.ie = s.cp0.ie ∧ s'.cp0.index = s.cp0.index ∧
      s'.cp0.entrylo0 = s.cp0.entrylo0 ∧ s'.cp0.entrylo1 = s.cp0.entrylo1 ∧ s'.cp0.entryhi = s.cp0.entryhi ∧
      s'.cp0.count = s.cp0.count ∧ s'.cp0.compare = s.cp0.compare ∧ s'.cp0.ebase = s.cp0.ebase ∧
      s'.cp0.watchlo = s.cp0.watchlo ∧ s'.cp0.watchhi = s.cp0.watchhi) ∧
    (i ≠ .tlbwi ∨ s.userMode = true → SameTlb s s') ∧
    ((∀ a b, i ≠ .mult a b) → (∀ a, i ≠ .mthi a) → s'.hi = s.hi) ∧
    ((∀ a b, i ≠ .mult a b) → (∀ a, i ≠ .mtlo a) → s'.lo = s.lo)
end

