-- ==== Sys2Proof/Laws/State.lean ====
section
/-!
SUPPORT. One lemma for each field of `State` and each named update: what the field is after the update. With them no
later proof unfolds a record update.
-/
namespace Sys2Proof.Machine

/-! ### `setHi` -/

@[simp] theorem setHi_regs (s : State) (v : Word) : (s.setHi v).regs = s.regs := rfl
@[simp] theorem setHi_hi (s : State) (v : Word) : (s.setHi v).hi = v := rfl
@[simp] theorem setHi_lo (s : State) (v : Word) : (s.setHi v).lo = s.lo := rfl
@[simp] theorem setHi_pc (s : State) (v : Word) : (s.setHi v).pc = s.pc := rfl
@[simp] theorem setHi_npc (s : State) (v : Word) : (s.setHi v).npc = s.npc := rfl
@[simp] theorem setHi_ds (s : State) (v : Word) : (s.setHi v).ds = s.ds := rfl
@[simp] theorem setHi_cp0 (s : State) (v : Word) : (s.setHi v).cp0 = s.cp0 := rfl
@[simp] theorem setHi_tlb (s : State) (v : Word) : (s.setHi v).tlb = s.tlb := rfl
@[simp] theorem setHi_irq (s : State) (v : Word) : (s.setHi v).irq = s.irq := rfl
@[simp] theorem setHi_timerHeld (s : State) (v : Word) : (s.setHi v).timerHeld = s.timerHeld := rfl
@[simp] theorem setHi_mem (s : State) (v : Word) : (s.setHi v).mem = s.mem := rfl
@[simp] theorem setHi_serialIn (s : State) (v : Word) : (s.setHi v).serialIn = s.serialIn := rfl
@[simp] theorem setHi_serialOut (s : State) (v : Word) : (s.setHi v).serialOut = s.serialOut := rfl
@[simp] theorem setHi_arrivals (s : State) (v : Word) : (s.setHi v).arrivals = s.arrivals := rfl
@[simp] theorem setHi_ticks (s : State) (v : Word) : (s.setHi v).ticks = s.ticks := rfl
@[simp] theorem setHi_insns (s : State) (v : Word) : (s.setHi v).insns = s.insns := rfl
@[simp] theorem setHi_storeLog (s : State) (v : Word) : (s.setHi v).storeLog = s.storeLog := rfl
@[simp] theorem setHi_reg (s : State) (v : Word) (r : Reg) : (s.setHi v).reg r = s.reg r := rfl
@[simp] theorem setHi_userMode (s : State) (v : Word) : (s.setHi v).userMode = s.userMode := rfl

/-! ### `setLo` -/

@[simp] theorem setLo_regs (s : State) (v : Word) : (s.setLo v).regs = s.regs := rfl
@[simp] theorem setLo_hi (s : State) (v : Word) : (s.setLo v).hi = s.hi := rfl
@[simp] theorem setLo_lo (s : State) (v : Word) : (s.setLo v).lo = v := rfl
@[simp] theorem setLo_pc (s : State) (v : Word) : (s.setLo v).pc = s.pc := rfl
@[simp] theorem setLo_npc (s : State) (v : Word) : (s.setLo v).npc = s.npc := rfl
@[simp] theorem setLo_ds (s : State) (v : Word) : (s.setLo v).ds = s.ds := rfl
@[simp] theorem setLo_cp0 (s : State) (v : Word) : (s.setLo v).cp0 = s.cp0 := rfl
@[simp] theorem setLo_tlb (s : State) (v : Word) : (s.setLo v).tlb = s.tlb := rfl
@[simp] theorem setLo_irq (s : State) (v : Word) : (s.setLo v).irq = s.irq := rfl
@[simp] theorem setLo_timerHeld (s : State) (v : Word) : (s.setLo v).timerHeld = s.timerHeld := rfl
@[simp] theorem setLo_mem (s : State) (v : Word) : (s.setLo v).mem = s.mem := rfl
@[simp] theorem setLo_serialIn (s : State) (v : Word) : (s.setLo v).serialIn = s.serialIn := rfl
@[simp] theorem setLo_serialOut (s : State) (v : Word) : (s.setLo v).serialOut = s.serialOut := rfl
@[simp] theorem setLo_arrivals (s : State) (v : Word) : (s.setLo v).arrivals = s.arrivals := rfl
@[simp] theorem setLo_ticks (s : State) (v : Word) : (s.setLo v).ticks = s.ticks := rfl
@[simp] theorem setLo_insns (s : State) (v : Word) : (s.setLo v).insns = s.insns := rfl
@[simp] theorem setLo_storeLog (s : State) (v : Word) : (s.setLo v).storeLog = s.storeLog := rfl
@[simp] theorem setLo_reg (s : State) (v : Word) (r : Reg) : (s.setLo v).reg r = s.reg r := rfl
@[simp] theorem setLo_userMode (s : State) (v : Word) : (s.setLo v).userMode = s.userMode := rfl

/-! ### `advancePc` -/

@[simp] theorem advancePc_regs (s : State) : (s.advancePc).regs = s.regs := rfl
@[simp] theorem advancePc_hi (s : State) : (s.advancePc).hi = s.hi := rfl
@[simp] theorem advancePc_lo (s : State) : (s.advancePc).lo = s.lo := rfl
@[simp] theorem advancePc_pc (s : State) : (s.advancePc).pc = s.npc := rfl
@[simp] theorem advancePc_npc (s : State) : (s.advancePc).npc = s.npc + 4#32 := rfl
@[simp] theorem advancePc_ds (s : State) : (s.advancePc).ds = false := rfl
@[simp] theorem advancePc_cp0 (s : State) : (s.advancePc).cp0 = s.cp0 := rfl
@[simp] theorem advancePc_tlb (s : State) : (s.advancePc).tlb = s.tlb := rfl
@[simp] theorem advancePc_irq (s : State) : (s.advancePc).irq = s.irq := rfl
@[simp] theorem advancePc_timerHeld (s : State) : (s.advancePc).timerHeld = s.timerHeld := rfl
@[simp] theorem advancePc_mem (s : State) : (s.advancePc).mem = s.mem := rfl
@[simp] theorem advancePc_serialIn (s : State) : (s.advancePc).serialIn = s.serialIn := rfl
@[simp] theorem advancePc_serialOut (s : State) : (s.advancePc).serialOut = s.serialOut := rfl
@[simp] theorem advancePc_arrivals (s : State) : (s.advancePc).arrivals = s.arrivals := rfl
@[simp] theorem advancePc_ticks (s : State) : (s.advancePc).ticks = s.ticks := rfl
@[simp] theorem advancePc_insns (s : State) : (s.advancePc).insns = s.insns := rfl
@[simp] theorem advancePc_storeLog (s : State) : (s.advancePc).storeLog = s.storeLog := rfl
@[simp] theorem advancePc_reg (s : State) (r : Reg) : (s.advancePc).reg r = s.reg r := rfl
@[simp] theorem advancePc_userMode (s : State) : (s.advancePc).userMode = s.userMode := rfl

/-! ### `branchPc` -/

@[simp] theorem branchPc_regs (s : State) (taken : Bool) (target : Word) : (s.branchPc taken target).regs = s.regs := rfl
@[simp] theorem branchPc_hi (s : State) (taken : Bool) (target : Word) : (s.branchPc taken target).hi = s.hi := rfl
@[simp] theorem branchPc_lo (s : State) (taken : Bool) (target : Word) : (s.branchPc taken target).lo = s.lo := rfl
@[simp] theorem branchPc_pc (s : State) (taken : Bool) (target : Word) : (s.branchPc taken target).pc = s.npc := rfl
@[simp] theorem branchPc_npc (s : State) (taken : Bool) (target : Word) : (s.branchPc taken target).npc = if taken then target else s.npc + 4#32 := rfl
@[simp] theorem branchPc_ds (s : State) (taken : Bool) (target : Word) : (s.branchPc taken target).ds = true := rfl
@[simp] theorem branchPc_cp0 (s : State) (taken : Bool) (target : Word) : (s.branchPc taken target).cp0 = s.cp0 := rfl
@[simp] theorem branchPc_tlb (s : State) (taken : Bool) (target : Word) : (s.branchPc taken target).tlb = s.tlb := rfl
@[simp] theorem branchPc_irq (s : State) (taken : Bool) (target : Word) : (s.branchPc taken target).irq = s.irq := rfl
@[simp] theorem branchPc_timerHeld (s : State) (taken : Bool) (target : Word) : (s.branchPc taken target).timerHeld = s.timerHeld := rfl
@[simp] theorem branchPc_mem (s : State) (taken : Bool) (target : Word) : (s.branchPc taken target).mem = s.mem := rfl
@[simp] theorem branchPc_serialIn (s : State) (taken : Bool) (target : Word) : (s.branchPc taken target).serialIn = s.serialIn := rfl
@[simp] theorem branchPc_serialOut (s : State) (taken : Bool) (target : Word) : (s.branchPc taken target).serialOut = s.serialOut := rfl
@[simp] theorem branchPc_arrivals (s : State) (taken : Bool) (target : Word) : (s.branchPc taken target).arrivals = s.arrivals := rfl
@[simp] theorem branchPc_ticks (s : State) (taken : Bool) (target : Word) : (s.branchPc taken target).ticks = s.ticks := rfl
@[simp] theorem branchPc_insns (s : State) (taken : Bool) (target : Word) : (s.branchPc taken target).insns = s.insns := rfl
@[simp] theorem branchPc_storeLog (s : State) (taken : Bool) (target : Word) : (s.branchPc taken target).storeLog = s.storeLog := rfl
@[simp] theorem branchPc_reg (s : State) (taken : Bool) (target : Word) (r : Reg) : (s.branchPc taken target).reg r = s.reg r := rfl
@[simp] theorem branchPc_userMode (s : State) (taken : Bool) (target : Word) : (s.branchPc taken target).userMode = s.userMode := rfl

/-! ### `goto` -/

@[simp] theorem goto_regs (s : State) (v : Word) : (s.goto v).regs = s.regs := rfl
@[simp] theorem goto_hi (s : State) (v : Word) : (s.goto v).hi = s.hi := rfl
@[simp] theorem goto_lo (s : State) (v : Word) : (s.goto v).lo = s.lo := rfl
@[simp] theorem goto_pc (s : State) (v : Word) : (s.goto v).pc = v := rfl
@[simp] theorem goto_npc (s : State) (v : Word) : (s.goto v).npc = v + 4#32 := rfl
@[simp] theorem goto_ds (s : State) (v : Word) : (s.goto v).ds = false := rfl
@[simp] theorem goto_cp0 (s : State) (v : Word) : (s.goto v).cp0 = s.cp0 := rfl
@[simp] theorem goto_tlb (s : State) (v : Word) : (s.goto v).tlb = s.tlb := rfl
@[simp] theorem goto_irq (s : State) (v : Word) : (s.goto v).irq = s.irq := rfl
@[simp] theorem goto_timerHeld (s : State) (v : Word) : (s.goto v).timerHeld = s.timerHeld := rfl
@[simp] theorem goto_mem (s : State) (v : Word) : (s.goto v).mem = s.mem := rfl
@[simp] theorem goto_serialIn (s : State) (v : Word) : (s.goto v).serialIn = s.serialIn := rfl
@[simp] theorem goto_serialOut (s : State) (v : Word) : (s.goto v).serialOut = s.serialOut := rfl
@[simp] theorem goto_arrivals (s : State) (v : Word) : (s.goto v).arrivals = s.arrivals := rfl
@[simp] theorem goto_ticks (s : State) (v : Word) : (s.goto v).ticks = s.ticks := rfl
@[simp] theorem goto_insns (s : State) (v : Word) : (s.goto v).insns = s.insns := rfl
@[simp] theorem goto_storeLog (s : State) (v : Word) : (s.goto v).storeLog = s.storeLog := rfl
@[simp] theorem goto_reg (s : State) (v : Word) (r : Reg) : (s.goto v).reg r = s.reg r := rfl
@[simp] theorem goto_userMode (s : State) (v : Word) : (s.goto v).userMode = s.userMode := rfl

/-! ### `setCp0` -/

@[simp] theorem setCp0_regs (s : State) (c : Cp0) : (s.setCp0 c).regs = s.regs := rfl
@[simp] theorem setCp0_hi (s : State) (c : Cp0) : (s.setCp0 c).hi = s.hi := rfl
@[simp] theorem setCp0_lo (s : State) (c : Cp0) : (s.setCp0 c).lo = s.lo := rfl
@[simp] theorem setCp0_pc (s : State) (c : Cp0) : (s.setCp0 c).pc = s.pc := rfl
@[simp] theorem setCp0_npc (s : State) (c : Cp0) : (s.setCp0 c).npc = s.npc := rfl
@[simp] theorem setCp0_ds (s : State) (c : Cp0) : (s.setCp0 c).ds = s.ds := rfl
@[simp] theorem setCp0_cp0 (s : State) (c : Cp0) : (s.setCp0 c).cp0 = c := rfl
@[simp] theorem setCp0_tlb (s : State) (c : Cp0) : (s.setCp0 c).tlb = s.tlb := rfl
@[simp] theorem setCp0_irq (s : State) (c : Cp0) : (s.setCp0 c).irq = s.irq := rfl
@[simp] theorem setCp0_timerHeld (s : State) (c : Cp0) : (s.setCp0 c).timerHeld = s.timerHeld := rfl
@[simp] theorem setCp0_mem (s : State) (c : Cp0) : (s.setCp0 c).mem = s.mem := rfl
@[simp] theorem setCp0_serialIn (s : State) (c : Cp0) : (s.setCp0 c).serialIn = s.serialIn := rfl
@[simp] theorem setCp0_serialOut (s : State) (c : Cp0) : (s.setCp0 c).serialOut = s.serialOut := rfl
@[simp] theorem setCp0_arrivals (s : State) (c : Cp0) : (s.setCp0 c).arrivals = s.arrivals := rfl
@[simp] theorem setCp0_ticks (s : State) (c : Cp0) : (s.setCp0 c).ticks = s.ticks := rfl
@[simp] theorem setCp0_insns (s : State) (c : Cp0) : (s.setCp0 c).insns = s.insns := rfl
@[simp] theorem setCp0_storeLog (s : State) (c : Cp0) : (s.setCp0 c).storeLog = s.storeLog := rfl
@[simp] theorem setCp0_reg (s : State) (c : Cp0) (r : Reg) : (s.setCp0 c).reg r = s.reg r := rfl

/-! ### `dropTimerRequest` -/

@[simp] theorem dropTimerRequest_regs (s : State) : (s.dropTimerRequest).regs = s.regs := rfl
@[simp] theorem dropTimerRequest_hi (s : State) : (s.dropTimerRequest).hi = s.hi := rfl
@[simp] theorem dropTimerRequest_lo (s : State) : (s.dropTimerRequest).lo = s.lo := rfl
@[simp] theorem dropTimerRequest_pc (s : State) : (s.dropTimerRequest).pc = s.pc := rfl
@[simp] theorem dropTimerRequest_npc (s : State) : (s.dropTimerRequest).npc = s.npc := rfl
@[simp] theorem dropTimerRequest_ds (s : State) : (s.dropTimerRequest).ds = s.ds := rfl
@[simp] theorem dropTimerRequest_cp0 (s : State) : (s.dropTimerRequest).cp0 = s.cp0 := rfl
@[simp] theorem dropTimerRequest_tlb (s : State) : (s.dropTimerRequest).tlb = s.tlb := rfl
@[simp] theorem dropTimerRequest_irq (s : State) : (s.dropTimerRequest).irq = s.irq := rfl
@[simp] theorem dropTimerRequest_timerHeld (s : State) : (s.dropTimerRequest).timerHeld = false := rfl
@[simp] theorem dropTimerRequest_mem (s : State) : (s.dropTimerRequest).mem = s.mem := rfl
@[simp] theorem dropTimerRequest_serialIn (s : State) : (s.dropTimerRequest).serialIn = s.serialIn := rfl
@[simp] theorem dropTimerRequest_serialOut (s : State) : (s.dropTimerRequest).serialOut = s.serialOut := rfl
@[simp] theorem dropTimerRequest_arrivals (s : State) : (s.dropTimerRequest).arrivals = s.arrivals := rfl
@[simp] theorem dropTimerRequest_ticks (s : State) : (s.dropTimerRequest).ticks = s.ticks := rfl
@[simp] theorem dropTimerRequest_insns (s : State) : (s.dropTimerRequest).insns = s.insns := rfl
@[simp] theorem dropTimerRequest_storeLog (s : State) : (s.dropTimerRequest).storeLog = s.storeLog := rfl
@[simp] theorem dropTimerRequest_reg (s : State) (r : Reg) : (s.dropTimerRequest).reg r = s.reg r := rfl
@[simp] theorem dropTimerRequest_userMode (s : State) : (s.dropTimerRequest).userMode = s.userMode := rfl

/-! ### `setMem` -/

@[simp] theorem setMem_regs (s : State) (m : Memory) : (s.setMem m).regs = s.regs := rfl
@[simp] theorem setMem_hi (s : State) (m : Memory) : (s.setMem m).hi = s.hi := rfl
@[simp] theorem setMem_lo (s : State) (m : Memory) : (s.setMem m).lo = s.lo := rfl
@[simp] theorem setMem_pc (s : State) (m : Memory) : (s.setMem m).pc = s.pc := rfl
@[simp] theorem setMem_npc (s : State) (m : Memory) : (s.setMem m).npc = s.npc := rfl
@[simp] theorem setMem_ds (s : State) (m : Memory) : (s.setMem m).ds = s.ds := rfl
@[simp] theorem setMem_cp0 (s : State) (m : Memory) : (s.setMem m).cp0 = s.cp0 := rfl
@[simp] theorem setMem_tlb (s : State) (m : Memory) : (s.setMem m).tlb = s.tlb := rfl
@[simp] theorem setMem_irq (s : State) (m : Memory) : (s.setMem m).irq = s.irq := rfl
@[simp] theorem setMem_timerHeld (s : State) (m : Memory) : (s.setMem m).timerHeld = s.timerHeld := rfl
@[simp] theorem setMem_mem (s : State) (m : Memory) : (s.setMem m).mem = m := rfl
@[simp] theorem setMem_serialIn (s : State) (m : Memory) : (s.setMem m).serialIn = s.serialIn := rfl
@[simp] theorem setMem_serialOut (s : State) (m : Memory) : (s.setMem m).serialOut = s.serialOut := rfl
@[simp] theorem setMem_arrivals (s : State) (m : Memory) : (s.setMem m).arrivals = s.arrivals := rfl
@[simp] theorem setMem_ticks (s : State) (m : Memory) : (s.setMem m).ticks = s.ticks := rfl
@[simp] theorem setMem_insns (s : State) (m : Memory) : (s.setMem m).insns = s.insns := rfl
@[simp] theorem setMem_storeLog (s : State) (m : Memory) : (s.setMem m).storeLog = s.storeLog := rfl
@[simp] theorem setMem_reg (s : State) (m : Memory) (r : Reg) : (s.setMem m).reg r = s.reg r := rfl
@[simp] theorem setMem_userMode (s : State) (m : Memory) : (s.setMem m).userMode = s.userMode := rfl

/-! ### `setSerialIn` -/

@[simp] theorem setSerialIn_regs (s : State) (q : List Byte) : (s.setSerialIn q).regs = s.regs := rfl
@[simp] theorem setSerialIn_hi (s : State) (q : List Byte) : (s.setSerialIn q).hi = s.hi := rfl
@[simp] theorem setSerialIn_lo (s : State) (q : List Byte) : (s.setSerialIn q).lo = s.lo := rfl
@[simp] theorem setSerialIn_pc (s : State) (q : List Byte) : (s.setSerialIn q).pc = s.pc := rfl
@[simp] theorem setSerialIn_npc (s : State) (q : List Byte) : (s.setSerialIn q).npc = s.npc := rfl
@[simp] theorem setSerialIn_ds (s : State) (q : List Byte) : (s.setSerialIn q).ds = s.ds := rfl
@[simp] theorem setSerialIn_cp0 (s : State) (q : List Byte) : (s.setSerialIn q).cp0 = s.cp0 := rfl
@[simp] theorem setSerialIn_tlb (s : State) (q : List Byte) : (s.setSerialIn q).tlb = s.tlb := rfl
@[simp] theorem setSerialIn_irq (s : State) (q : List Byte) : (s.setSerialIn q).irq = s.irq := rfl
@[simp] theorem setSerialIn_timerHeld (s : State) (q : List Byte) : (s.setSerialIn q).timerHeld = s.timerHeld := rfl
@[simp] theorem setSerialIn_mem (s : State) (q : List Byte) : (s.setSerialIn q).mem = s.mem := rfl
@[simp] theorem setSerialIn_serialIn (s : State) (q : List Byte) : (s.setSerialIn q).serialIn = q := rfl
@[simp] theorem setSerialIn_serialOut (s : State) (q : List Byte) : (s.setSerialIn q).serialOut = s.serialOut := rfl
@[simp] theorem setSerialIn_arrivals (s : State) (q : List Byte) : (s.setSerialIn q).arrivals = s.arrivals := rfl
@[simp] theorem setSerialIn_ticks (s : State) (q : List Byte) : (s.setSerialIn q).ticks = s.ticks := rfl
@[simp] theorem setSerialIn_insns (s : State) (q : List Byte) : (s.setSerialIn q).insns = s.insns := rfl
@[simp] theorem setSerialIn_storeLog (s : State) (q : List Byte) : (s.setSerialIn q).storeLog = s.storeLog := rfl
@[simp] theorem setSerialIn_reg (s : State) (q : List Byte) (r : Reg) : (s.setSerialIn q).reg r = s.reg r := rfl
@[simp] theorem setSerialIn_userMode (s : State) (q : List Byte) : (s.setSerialIn q).userMode = s.userMode := rfl

/-! ### `sendSerial` -/

@[simp] theorem sendSerial_regs (s : State) (b : Byte) : (s.sendSerial b).regs = s.regs := rfl
@[simp] theorem sendSerial_hi (s : State) (b : Byte) : (s.sendSerial b).hi = s.hi := rfl
@[simp] theorem sendSerial_lo (s : State) (b : Byte) : (s.sendSerial b).lo = s.lo := rfl
@[simp] theorem sendSerial_pc (s : State) (b : Byte) : (s.sendSerial b).pc = s.pc := rfl
@[simp] theorem sendSerial_npc (s : State) (b : Byte) : (s.sendSerial b).npc = s.npc := rfl
@[simp] theorem sendSerial_ds (s : State) (b : Byte) : (s.sendSerial b).ds = s.ds := rfl
@[simp] theorem sendSerial_cp0 (s : State) (b : Byte) : (s.sendSerial b).cp0 = s.cp0 := rfl
@[simp] theorem sendSerial_tlb (s : State) (b : Byte) : (s.sendSerial b).tlb = s.tlb := rfl
@[simp] theorem sendSerial_irq (s : State) (b : Byte) : (s.sendSerial b).irq = s.irq := rfl
@[simp] theorem sendSerial_timerHeld (s : State) (b : Byte) : (s.sendSerial b).timerHeld = s.timerHeld := rfl
@[simp] theorem sendSerial_mem (s : State) (b : Byte) : (s.sendSerial b).mem = s.mem := rfl
@[simp] theorem sendSerial_serialIn (s : State) (b : Byte) : (s.sendSerial b).serialIn = s.serialIn := rfl
@[simp] theorem sendSerial_serialOut (s : State) (b : Byte) : (s.sendSerial b).serialOut = s.serialOut ++ [b] := rfl
@[simp] theorem sendSerial_arrivals (s : State) (b : Byte) : (s.sendSerial b).arrivals = s.arrivals := rfl
@[simp] theorem sendSerial_ticks (s : State) (b : Byte) : (s.sendSerial b).ticks = s.ticks := rfl
@[simp] theorem sendSerial_insns (s : State) (b : Byte) : (s.sendSerial b).insns = s.insns := rfl
@[simp] theorem sendSerial_storeLog (s : State) (b : Byte) : (s.sendSerial b).storeLog = s.storeLog := rfl
@[simp] theorem sendSerial_reg (s : State) (b : Byte) (r : Reg) : (s.sendSerial b).reg r = s.reg r := rfl
@[simp] theorem sendSerial_userMode (s : State) (b : Byte) : (s.sendSerial b).userMode = s.userMode := rfl

/-! ### `logStore` -/

@[simp] theorem logStore_regs (s : State) (pa : Word) : (s.logStore pa).regs = s.regs := rfl
@[simp] theorem logStore_hi (s : State) (pa : Word) : (s.logStore pa).hi = s.hi := rfl
@[simp] theorem logStore_lo (s : State) (pa : Word) : (s.logStore pa).lo = s.lo := rfl
@[simp] theorem logStore_pc (s : State) (pa : Word) : (s.logStore pa).pc = s.pc := rfl
@[simp] theorem logStore_npc (s : State) (pa : Word) : (s.logStore pa).npc = s.npc := rfl
@[simp] theorem logStore_ds (s : State) (pa : Word) : (s.logStore pa).ds = s.ds := rfl
@[simp] theorem logStore_cp0 (s : State) (pa : Word) : (s.logStore pa).cp0 = s.cp0 := rfl
@[simp] theorem logStore_tlb (s : State) (pa : Word) : (s.logStore pa).tlb = s.tlb := rfl
@[simp] theorem logStore_irq (s : State) (pa : Word) : (s.logStore pa).irq = s.irq := rfl
@[simp] theorem logStore_timerHeld (s : State) (pa : Word) : (s.logStore pa).timerHeld = s.timerHeld := rfl
@[simp] theorem logStore_mem (s : State) (pa : Word) : (s.logStore pa).mem = s.mem := rfl
@[simp] theorem logStore_serialIn (s : State) (pa : Word) : (s.logStore pa).serialIn = s.serialIn := rfl
@[simp] theorem logStore_serialOut (s : State) (pa : Word) : (s.logStore pa).serialOut = s.serialOut := rfl
@[simp] theorem logStore_arrivals (s : State) (pa : Word) : (s.logStore pa).arrivals = s.arrivals := rfl
@[simp] theorem logStore_ticks (s : State) (pa : Word) : (s.logStore pa).ticks = s.ticks := rfl
@[simp] theorem logStore_insns (s : State) (pa : Word) : (s.logStore pa).insns = s.insns := rfl
@[simp] theorem logStore_storeLog (s : State) (pa : Word) : (s.logStore pa).storeLog = logPut s.storeLog (pa.toNat / 4) s.insns := rfl
@[simp] theorem logStore_reg (s : State) (pa : Word) (r : Reg) : (s.logStore pa).reg r = s.reg r := rfl
@[simp] theorem logStore_userMode (s : State) (pa : Word) : (s.logStore pa).userMode = s.userMode := rfl

/-! ### `setTlb` -/

@[simp] theorem setTlb_regs (s : State) (i : BitVec 4) (e : TlbEntry) : (s.setTlb i e).regs = s.regs := rfl
@[simp] theorem setTlb_hi (s : State) (i : BitVec 4) (e : TlbEntry) : (s.setTlb i e).hi = s.hi := rfl
@[simp] theorem setTlb_lo (s : State) (i : BitVec 4) (e : TlbEntry) : (s.setTlb i e).lo = s.lo := rfl
@[simp] theorem setTlb_pc (s : State) (i : BitVec 4) (e : TlbEntry) : (s.setTlb i e).pc = s.pc := rfl
@[simp] theorem setTlb_npc (s : State) (i : BitVec 4) (e : TlbEntry) : (s.setTlb i e).npc = s.npc := rfl
@[simp] theorem setTlb_ds (s : State) (i : BitVec 4) (e : TlbEntry) : (s.setTlb i e).ds = s.ds := rfl
@[simp] theorem setTlb_cp0 (s : State) (i : BitVec 4) (e : TlbEntry) : (s.setTlb i e).cp0 = s.cp0 := rfl
@[simp] theorem setTlb_tlb (s : State) (i : BitVec 4) (e : TlbEntry) : (s.setTlb i e).tlb = s.tlb.set i.toNat e i.isLt := rfl
@[simp] theorem setTlb_irq (s : State) (i : BitVec 4) (e : TlbEntry) : (s.setTlb i e).irq = s.irq := rfl
@[simp] theorem setTlb_timerHeld (s : State) (i : BitVec 4) (e : TlbEntry) : (s.setTlb i e).timerHeld = s.timerHeld := rfl
@[simp] theorem setTlb_mem (s : State) (i : BitVec 4) (e : TlbEntry) : (s.setTlb i e).mem = s.mem := rfl
@[simp] theorem setTlb_serialIn (s : State) (i : BitVec 4) (e : TlbEntry) : (s.setTlb i e).serialIn = s.serialIn := rfl
@[simp] theorem setTlb_serialOut (s : State) (i : BitVec 4) (e : TlbEntry) : (s.setTlb i e).serialOut = s.serialOut := rfl
@[simp] theorem setTlb_arrivals (s : State) (i : BitVec 4) (e : TlbEntry) : (s.setTlb i e).arrivals = s.arrivals := rfl
@[simp] theorem setTlb_ticks (s : State) (i : BitVec 4) (e : TlbEntry) : (s.setTlb i e).ticks = s.ticks := rfl
@[simp] theorem setTlb_insns (s : State) (i : BitVec 4) (e : TlbEntry) : (s.setTlb i e).insns = s.insns := rfl
@[simp] theorem setTlb_storeLog (s : State) (i : BitVec 4) (e : TlbEntry) : (s.setTlb i e).storeLog = s.storeLog := rfl
@[simp] theorem setTlb_reg (s : State) (i : BitVec 4) (e : TlbEntry) (r : Reg) : (s.setTlb i e).reg r = s.reg r := rfl
@[simp] theorem setTlb_userMode (s : State) (i : BitVec 4) (e : TlbEntry) : (s.setTlb i e).userMode = s.userMode := rfl

/-! ### `beginInsn` -/

@[simp] theorem beginInsn_regs (s : State) : (s.beginInsn).regs = s.regs := rfl
@[simp] theorem beginInsn_hi (s : State) : (s.beginInsn).hi = s.hi := rfl
@[simp] theorem beginInsn_lo (s : State) : (s.beginInsn).lo = s.lo := rfl
@[simp] theorem beginInsn_pc (s : State) : (s.beginInsn).pc = s.pc := rfl
@[simp] theorem beginInsn_npc (s : State) : (s.beginInsn).npc = s.npc := rfl
@[simp] theorem beginInsn_ds (s : State) : (s.beginInsn).ds = s.ds := rfl
@[simp] theorem beginInsn_cp0 (s : State) : (s.beginInsn).cp0 = s.cp0 := rfl
@[simp] theorem beginInsn_tlb (s : State) : (s.beginInsn).tlb = s.tlb := rfl
@[simp] theorem beginInsn_irq (s : State) : (s.beginInsn).irq = s.irq := rfl
@[simp] theorem beginInsn_timerHeld (s : State) : (s.beginInsn).timerHeld = s.timerHeld := rfl
@[simp] theorem beginInsn_mem (s : State) : (s.beginInsn).mem = s.mem := rfl
@[simp] theorem beginInsn_serialIn (s : State) : (s.beginInsn).serialIn = s.serialIn := rfl
@[simp] theorem beginInsn_serialOut (s : State) : (s.beginInsn).serialOut = s.serialOut := rfl
@[simp] theorem beginInsn_arrivals (s : State) : (s.beginInsn).arrivals = s.arrivals := rfl
@[simp] theorem beginInsn_ticks (s : State) : (s.beginInsn).ticks = s.ticks := rfl
@[simp] theorem beginInsn_insns (s : State) : (s.beginInsn).insns = s.insns + 1 := rfl
@[simp] theorem beginInsn_storeLog (s : State) : (s.beginInsn).storeLog = s.storeLog := rfl
@[simp] theorem beginInsn_reg (s : State) (r : Reg) : (s.beginInsn).reg r = s.reg r := rfl
@[simp] theorem beginInsn_userMode (s : State) : (s.beginInsn).userMode = s.userMode := rfl

/-! ### `setReg` -/

@[simp] theorem setReg_hi (s : State) (r : Reg) (v : Word) : (s.setReg r v).hi = s.hi := by
  unfold State.setReg; split <;> rfl
@[simp] theorem setReg_lo (s : State) (r : Reg) (v : Word) : (s.setReg r v).lo = s.lo := by
  unfold State.setReg; split <;> rfl
@[simp] theorem setReg_pc (s : State) (r : Reg) (v : Word) : (s.setReg r v).pc = s.pc := by
  unfold State.setReg; split <;> rfl
@[simp] theorem setReg_npc (s : State) (r : Reg) (v : Word) : (s.setReg r v).npc = s.npc := by
  unfold State.setReg; split <;> rfl
@[simp] theorem setReg_ds (s : State) (r : Reg) (v : Word) : (s.setReg r v).ds = s.ds := by
  unfold State.setReg; split <;> rfl
@[simp] theorem setReg_cp0 (s : State) (r : Reg) (v : Word) : (s.setReg r v).cp0 = s.cp0 := by
  unfold State.setReg; split <;> rfl
@[simp] theorem setReg_tlb (s : State) (r : Reg) (v : Word) : (s.setReg r v).tlb = s.tlb := by
  unfold State.setReg; split <;> rfl
@[simp] theorem setReg_irq (s : State) (r : Reg) (v : Word) : (s.setReg r v).irq = s.irq := by
  unfold State.setReg; split <;> rfl
@[simp] theorem setReg_timerHeld (s : State) (r : Reg) (v : Word) : (s.setReg r v).timerHeld = s.timerHeld := by
  unfold State.setReg; split <;> rfl
@[simp] theorem setReg_mem (s : State) (r : Reg) (v : Word) : (s.setReg r v).mem = s.mem := by
  unfold State.setReg; split <;> rfl
@[simp] theorem setReg_serialIn (s : State) (r : Reg) (v : Word) : (s.setReg r v).serialIn = s.serialIn := by
  unfold State.setReg; split <;> rfl
@[simp] theorem setReg_serialOut (s : State) (r : Reg) (v : Word) : (s.setReg r v).serialOut = s.serialOut := by
  unfold State.setReg; split <;> rfl
@[simp] theorem setReg_arrivals (s : State) (r : Reg) (v : Word) : (s.setReg r v).arrivals = s.arrivals := by
  unfold State.setReg; split <;> rfl
@[simp] theorem setReg_ticks (s : State) (r : Reg) (v : Word) : (s.setReg r v).ticks = s.ticks := by
  unfold State.setReg; split <;> rfl
@[simp] theorem setReg_insns (s : State) (r : Reg) (v : Word) : (s.setReg r v).insns = s.insns := by
  unfold State.setReg; split <;> rfl
@[simp] theorem setReg_storeLog (s : State) (r : Reg) (v : Word) : (s.setReg r v).storeLog = s.storeLog := by
  unfold State.setReg; split <;> rfl
@[simp] theorem setReg_userMode (s : State) (r : Reg) (v : Word) : (s.setReg r v).userMode = s.userMode := by
  unfold State.setReg; split <;> rfl

/-! ### `passTime`, the fields that time does not touch -/

@[simp] theorem passTime_regs (s : State) : s.passTime.regs = s.regs := rfl
@[simp] theorem passTime_hi (s : State) : s.passTime.hi = s.hi := rfl
@[simp] theorem passTime_lo (s : State) : s.passTime.lo = s.lo := rfl
@[simp] theorem passTime_pc (s : State) : s.passTime.pc = s.pc := rfl
@[simp] theorem passTime_npc (s : State) : s.passTime.npc = s.npc := rfl
@[simp] theorem passTime_ds (s : State) : s.passTime.ds = s.ds := rfl
@[simp] theorem passTime_tlb (s : State) : s.passTime.tlb = s.tlb := rfl
@[simp] theorem passTime_mem (s : State) : s.passTime.mem = s.mem := rfl
@[simp] theorem passTime_serialOut (s : State) : s.passTime.serialOut = s.serialOut := rfl
@[simp] theorem passTime_insns (s : State) : s.passTime.insns = s.insns := rfl
@[simp] theorem passTime_storeLog (s : State) : s.passTime.storeLog = s.storeLog := rfl
@[simp] theorem passTime_reg (s : State) (r : Reg) : s.passTime.reg r = s.reg r := rfl
@[simp] theorem passTime_userMode (s : State) : s.passTime.userMode = s.userMode := rfl
@[simp] theorem passTime_arrivals (s : State) : s.passTime.arrivals = s.arrivals.tail := rfl
@[simp] theorem passTime_ticks (s : State) : s.passTime.ticks = s.ticks + 1 := rfl

/-! ### `writeVgaByte` and `writeCp0`, the fields that they never touch -/

@[simp] theorem writeVgaByte_regs (s : State) (pa : Word) (b : Byte) : (writeVgaByte s pa b).regs = s.regs := by
  unfold writeVgaByte; split <;> rfl
@[simp] theorem writeVgaByte_hi (s : State) (pa : Word) (b : Byte) : (writeVgaByte s pa b).hi = s.hi := by
  unfold writeVgaByte; split <;> rfl
@[simp] theorem writeVgaByte_lo (s : State) (pa : Word) (b : Byte) : (writeVgaByte s pa b).lo = s.lo := by
  unfold writeVgaByte; split <;> rfl
@[simp] theorem writeVgaByte_pc (s : State) (pa : Word) (b : Byte) : (writeVgaByte s pa b).pc = s.pc := by
  unfold writeVgaByte; split <;> rfl
@[simp] theorem writeVgaByte_npc (s : State) (pa : Word) (b : Byte) : (writeVgaByte s pa b).npc = s.npc := by
  unfold writeVgaByte; split <;> rfl
@[simp] theorem writeVgaByte_ds (s : State) (pa : Word) (b : Byte) : (writeVgaByte s pa b).ds = s.ds := by
  unfold writeVgaByte; split <;> rfl
@[simp] theorem writeVgaByte_cp0 (s : State) (pa : Word) (b : Byte) : (writeVgaByte s pa b).cp0 = s.cp0 := by
  unfold writeVgaByte; split <;> rfl
@[simp] theorem writeVgaByte_tlb (s : State) (pa : Word) (b : Byte) : (writeVgaByte s pa b).tlb = s.tlb := by
  unfold writeVgaByte; split <;> rfl
@[simp] theorem writeVgaByte_irq (s : State) (pa : Word) (b : Byte) : (writeVgaByte s pa b).irq = s.irq := by
  unfold writeVgaByte; split <;> rfl
@[simp] theorem writeVgaByte_timerHeld (s : State) (pa : Word) (b : Byte) : (writeVgaByte s pa b).timerHeld = s.timerHeld := by
  unfold writeVgaByte; split <;> rfl
@[simp] theorem writeVgaByte_serialIn (s : State) (pa : Word) (b : Byte) : (writeVgaByte s pa b).serialIn = s.serialIn := by
  unfold writeVgaByte; split <;> rfl
@[simp] theorem writeVgaByte_serialOut (s : State) (pa : Word) (b : Byte) : (writeVgaByte s pa b).serialOut = s.serialOut := by
  unfold writeVgaByte; split <;> rfl
@[simp] theorem writeVgaByte_arrivals (s : State) (pa : Word) (b : Byte) : (writeVgaByte s pa b).arrivals = s.arrivals := by
  unfold writeVgaByte; split <;> rfl
@[simp] theorem writeVgaByte_ticks (s : State) (pa : Word) (b : Byte) : (writeVgaByte s pa b).ticks = s.ticks := by
  unfold writeVgaByte; split <;> rfl
@[simp] theorem writeVgaByte_insns (s : State) (pa : Word) (b : Byte) : (writeVgaByte s pa b).insns = s.insns := by
  unfold writeVgaByte; split <;> rfl
@[simp] theorem writeVgaByte_storeLog (s : State) (pa : Word) (b : Byte) : (writeVgaByte s pa b).storeLog = s.storeLog := by
  unfold writeVgaByte; split <;> rfl
@[simp] theorem writeVgaByte_reg (s : State) (pa : Word) (b : Byte) (r : Reg) : (writeVgaByte s pa b).reg r = s.reg r := by
  unfold writeVgaByte; split <;> rfl
@[simp] theorem writeCp0_cp0 (s : State) (r : Cp0Reg) (v : Word) : (writeCp0 s r v).cp0 = cp0Set s.cp0 r v := by
  unfold writeCp0; split <;> rfl
@[simp] theorem writeCp0_regs (s : State) (r : Cp0Reg) (v : Word) : (writeCp0 s r v).regs = s.regs := by
  unfold writeCp0; split <;> rfl
@[simp] theorem writeCp0_hi (s : State) (r : Cp0Reg) (v : Word) : (writeCp0 s r v).hi = s.hi := by
  unfold writeCp0; split <;> rfl
@[simp] theorem writeCp0_lo (s : State) (r : Cp0Reg) (v : Word) : (writeCp0 s r v).lo = s.lo := by
  unfold writeCp0; split <;> rfl
@[simp] theorem writeCp0_pc (s : State) (r : Cp0Reg) (v : Word) : (writeCp0 s r v).pc = s.pc := by
  unfold writeCp0; split <;> rfl
@[simp] theorem writeCp0_npc (s : State) (r : Cp0Reg) (v : Word) : (writeCp0 s r v).npc = s.npc := by
  unfold writeCp0; split <;> rfl
@[simp] theorem writeCp0_ds (s : State) (r : Cp0Reg) (v : Word) : (writeCp0 s r v).ds = s.ds := by
  unfold writeCp0; split <;> rfl
@[simp] theorem writeCp0_tlb (s : State) (r : Cp0Reg) (v : Word) : (writeCp0 s r v).tlb = s.tlb := by
  unfold writeCp0; split <;> rfl
@[simp] theorem writeCp0_irq (s : State) (r : Cp0Reg) (v : Word) : (writeCp0 s r v).irq = s.irq := by
  unfold writeCp0; split <;> rfl
@[simp] theorem writeCp0_mem (s : State) (r : Cp0Reg) (v : Word) : (writeCp0 s r v).mem = s.mem := by
  unfold writeCp0; split <;> rfl
@[simp] theorem writeCp0_serialIn (s : State) (r : Cp0Reg) (v : Word) : (writeCp0 s r v).serialIn = s.serialIn := by
  unfold writeCp0; split <;> rfl
@[simp] theorem writeCp0_serialOut (s : State) (r : Cp0Reg) (v : Word) : (writeCp0 s r v).serialOut = s.serialOut := by
  unfold writeCp0; split <;> rfl
@[simp] theorem writeCp0_arrivals (s : State) (r : Cp0Reg) (v : Word) : (writeCp0 s r v).arrivals = s.arrivals := by
  unfold writeCp0; split <;> rfl
@[simp] theorem writeCp0_ticks (s : State) (r : Cp0Reg) (v : Word) : (writeCp0 s r v).ticks = s.ticks := by
  unfold writeCp0; split <;> rfl
@[simp] theorem writeCp0_insns (s : State) (r : Cp0Reg) (v : Word) : (writeCp0 s r v).insns = s.insns := by
  unfold writeCp0; split <;> rfl
@[simp] theorem writeCp0_storeLog (s : State) (r : Cp0Reg) (v : Word) : (writeCp0 s r v).storeLog = s.storeLog := by
  unfold writeCp0; split <;> rfl
@[simp] theorem writeCp0_reg (s : State) (r : Cp0Reg) (v : Word) (q : Reg) : (writeCp0 s r v).reg q = s.reg q := by
  unfold writeCp0; split <;> rfl
@[simp] theorem writeCp0_timerHeld (s : State) (r : Cp0Reg) (v : Word) :
    (writeCp0 s r v).timerHeld = if r = .compare then false else s.timerHeld := by
  unfold writeCp0; split <;> rfl

/-- A CP0 register read after a write of one of them. -/
theorem cp0Get_cp0Set (c : Cp0) (r q : Cp0Reg) (v : Word) :
    cp0Get (cp0Set c r v) q = if q = r then v else cp0Get c q := by
  cases r <;> cases q <;> rfl

end Sys2Proof.Machine
end

