-- ==== Sys2Proof/Laws/Exceptions.lean ====
section
/-!
SUPPORT. The laws of trap entry and of the return from an exception: every field after them, and the bits of status and
cause.
-/
namespace Sys2Proof.Machine

/-! ### status and cause, bit by bit -/

/-- Every bit of status after `exl` is replaced. -/
theorem getLsbD_statusWithExl (status : Word) (exl : Bool) (i : Nat) (hi : i < 32) :
    (statusWithExl status exl).getLsbD i = if i = 1 then exl else status.getLsbD i := by
  simp only [statusWithExl, BitVec.getLsbD_append, BitVec.getLsbD_extractLsb', BitVec.getLsbD_ofBool]
  interval_cases i <;> simp

/-- Every bit of cause after its three fields are replaced. -/
theorem getLsbD_causeWith (cause : Word) (bd : Bool) (ip : BitVec 8) (ec : BitVec 5) (i : Nat) (hi : i < 32) :
    (causeWith cause bd ip ec).getLsbD i =
      if i = 31 then bd
      else if 8 ≤ i ∧ i < 16 then ip.getLsbD (i - 8)
      else if 2 ≤ i ∧ i < 7 then ec.getLsbD (i - 2)
      else cause.getLsbD i := by
  simp only [causeWith, BitVec.getLsbD_append, BitVec.getLsbD_extractLsb', BitVec.getLsbD_ofBool]
  interval_cases i <;> simp

section Fields

variable (c : Cp0) (exl : Bool)

@[simp] theorem exl_statusWithExl : ({ c with status := statusWithExl c.status exl } : Cp0).exl = exl :=
  getLsbD_statusWithExl c.status exl 1 (by omega)

@[simp] theorem um_statusWithExl : ({ c with status := statusWithExl c.status exl } : Cp0).um = c.um :=
  getLsbD_statusWithExl c.status exl 4 (by omega)

@[simp] theorem ie_statusWithExl : ({ c with status := statusWithExl c.status exl } : Cp0).ie = c.ie :=
  getLsbD_statusWithExl c.status exl 0 (by omega)

theorem extract_statusWithExl (status : Word) : (statusWithExl status exl).extractLsb' 8 8 = status.extractLsb' 8 8 := by
  apply BitVec.eq_of_getLsbD_eq
  intro i hi
  simp only [BitVec.getLsbD_extractLsb']
  rw [getLsbD_statusWithExl _ _ _ (by omega), if_neg (by omega)]

@[simp] theorem im_statusWithExl : ({ c with status := statusWithExl c.status exl } : Cp0).im = c.im :=
  extract_statusWithExl exl c.status

end Fields

theorem bd_causeWith (cause : Word) (bd : Bool) (ip : BitVec 8) (ec : BitVec 5) :
    (causeWith cause bd ip ec).getLsbD 31 = bd := getLsbD_causeWith cause bd ip ec 31 (by omega)

theorem ip_causeWith (cause : Word) (bd : Bool) (ip : BitVec 8) (ec : BitVec 5) :
    (causeWith cause bd ip ec).extractLsb' 8 8 = ip := by
  apply BitVec.eq_of_getLsbD_eq
  intro i hi
  simp only [BitVec.getLsbD_extractLsb']
  rw [getLsbD_causeWith _ _ _ _ _ (by omega)]
  simp [hi, show ¬ 8 + i = 31 by omega]
  omega

theorem ec_causeWith (cause : Word) (bd : Bool) (ip : BitVec 8) (ec : BitVec 5) :
    (causeWith cause bd ip ec).extractLsb' 2 5 = ec := by
  apply BitVec.eq_of_getLsbD_eq
  intro i hi
  simp only [BitVec.getLsbD_extractLsb']
  rw [getLsbD_causeWith _ _ _ _ _ (by omega)]
  simp [hi, show ¬ 2 + i = 31 by omega, show ¬ (8 ≤ 2 + i) by omega, show 2 + i < 7 by omega]

/-! ### `takeException` -/

/-- With the spec's default of NESTED_TRAP_UPDATES_EPC, epc and bd are never kept. -/
@[simp] theorem keepsEpc_eq (s : State) : keepsEpc s = false := by
  simp [keepsEpc, Config.nestedTrapUpdatesEpc]

section Trap

variable (e : Exn) (s : State)

@[simp] theorem takeException_regs : (takeException e s).regs = s.regs := rfl
@[simp] theorem takeException_reg (r : Reg) : (takeException e s).reg r = s.reg r := rfl
@[simp] theorem takeException_hi : (takeException e s).hi = s.hi := rfl
@[simp] theorem takeException_lo : (takeException e s).lo = s.lo := rfl
@[simp] theorem takeException_ds : (takeException e s).ds = false := rfl
@[simp] theorem takeException_tlb : (takeException e s).tlb = s.tlb := rfl
@[simp] theorem takeException_irq : (takeException e s).irq = s.irq := rfl
@[simp] theorem takeException_timerHeld : (takeException e s).timerHeld = s.timerHeld := rfl
@[simp] theorem takeException_mem : (takeException e s).mem = s.mem := rfl
@[simp] theorem takeException_serialIn : (takeException e s).serialIn = s.serialIn := rfl
@[simp] theorem takeException_serialOut : (takeException e s).serialOut = s.serialOut := rfl
@[simp] theorem takeException_arrivals : (takeException e s).arrivals = s.arrivals := rfl
@[simp] theorem takeException_ticks : (takeException e s).ticks = s.ticks := rfl
@[simp] theorem takeException_insns : (takeException e s).insns = s.insns := rfl
@[simp] theorem takeException_storeLog : (takeException e s).storeLog = s.storeLog := rfl
@[simp] theorem takeException_cp0 : (takeException e s).cp0 = trapCp0 e s := rfl

@[simp] theorem takeException_pc : (takeException e s).pc = exnVector s.cp0.ebase e := by simp [takeException]
@[simp] theorem takeException_npc : (takeException e s).npc = exnVector s.cp0.ebase e + 4#32 := by
  simp [takeException]

@[simp] theorem trapCp0_epc : (trapCp0 e s).epc = restartAddress s := by simp [trapCp0]
@[simp] theorem trapCp0_badaddr : (trapCp0 e s).badaddr = exnBadaddr s.cp0.badaddr e := rfl
@[simp] theorem trapCp0_status : (trapCp0 e s).status = statusWithExl s.cp0.status true := rfl
@[simp] theorem trapCp0_cause : (trapCp0 e s).cause = causeWith s.cp0.cause s.ds s.irq (exnCode e) := by
  simp [trapCp0]
@[simp] theorem trapCp0_index : (trapCp0 e s).index = s.cp0.index := rfl
@[simp] theorem trapCp0_entrylo0 : (trapCp0 e s).entrylo0 = s.cp0.entrylo0 := rfl
@[simp] theorem trapCp0_entrylo1 : (trapCp0 e s).entrylo1 = s.cp0.entrylo1 := rfl
@[simp] theorem trapCp0_entryhi : (trapCp0 e s).entryhi = s.cp0.entryhi := rfl
@[simp] theorem trapCp0_count : (trapCp0 e s).count = s.cp0.count := rfl
@[simp] theorem trapCp0_compare : (trapCp0 e s).compare = s.cp0.compare := rfl
@[simp] theorem trapCp0_ebase : (trapCp0 e s).ebase = s.cp0.ebase := rfl
@[simp] theorem trapCp0_watchlo : (trapCp0 e s).watchlo = s.cp0.watchlo := rfl
@[simp] theorem trapCp0_watchhi : (trapCp0 e s).watchhi = s.cp0.watchhi := rfl

@[simp] theorem trapCp0_exl : (trapCp0 e s).exl = true := getLsbD_statusWithExl s.cp0.status true 1 (by omega)
@[simp] theorem trapCp0_um : (trapCp0 e s).um = s.cp0.um := getLsbD_statusWithExl s.cp0.status true 4 (by omega)
@[simp] theorem trapCp0_ie : (trapCp0 e s).ie = s.cp0.ie := getLsbD_statusWithExl s.cp0.status true 0 (by omega)
@[simp] theorem trapCp0_im : (trapCp0 e s).im = s.cp0.im := extract_statusWithExl true s.cp0.status
@[simp] theorem trapCp0_bd : (trapCp0 e s).bd = s.ds := by
  unfold Cp0.bd; rw [trapCp0_cause, bd_causeWith]
@[simp] theorem trapCp0_ip : (trapCp0 e s).ip = s.irq := by simp [Cp0.ip, ip_causeWith]
@[simp] theorem trapCp0_ec : (trapCp0 e s).ec = exnCode e := by simp [Cp0.ec, ec_causeWith]

/-- The handler runs in kernel mode (R205). -/
@[simp] theorem takeException_userMode : (takeException e s).userMode = false := by simp [State.userMode]

end Trap

/-! ### `returnFromException` -/

section Return

variable (s : State)

@[simp] theorem returnFromException_regs : (returnFromException s).regs = s.regs := rfl
@[simp] theorem returnFromException_reg (r : Reg) : (returnFromException s).reg r = s.reg r := rfl
@[simp] theorem returnFromException_hi : (returnFromException s).hi = s.hi := rfl
@[simp] theorem returnFromException_lo : (returnFromException s).lo = s.lo := rfl
@[simp] theorem returnFromException_pc : (returnFromException s).pc = s.cp0.epc := rfl
@[simp] theorem returnFromException_npc : (returnFromException s).npc = s.cp0.epc + 4#32 := rfl
@[simp] theorem returnFromException_ds : (returnFromException s).ds = false := rfl
@[simp] theorem returnFromException_tlb : (returnFromException s).tlb = s.tlb := rfl
@[simp] theorem returnFromException_irq : (returnFromException s).irq = s.irq := rfl
@[simp] theorem returnFromException_timerHeld : (returnFromException s).timerHeld = s.timerHeld := rfl
@[simp] theorem returnFromException_mem : (returnFromException s).mem = s.mem := rfl
@[simp] theorem returnFromException_serialIn : (returnFromException s).serialIn = s.serialIn := rfl
@[simp] theorem returnFromException_serialOut : (returnFromException s).serialOut = s.serialOut := rfl
@[simp] theorem returnFromException_arrivals : (returnFromException s).arrivals = s.arrivals := rfl
@[simp] theorem returnFromException_ticks : (returnFromException s).ticks = s.ticks := rfl
@[simp] theorem returnFromException_insns : (returnFromException s).insns = s.insns := rfl
@[simp] theorem returnFromException_storeLog : (returnFromException s).storeLog = s.storeLog := rfl
@[simp] theorem returnFromException_cp0 : (returnFromException s).cp0 =
    { s.cp0 with status := statusWithExl s.cp0.status false } := rfl

end Return

end Sys2Proof.Machine
end

