-- ==== Sys2Proof/Laws/Memory.lean ====
section
/-!
SUPPORT. The laws of memory: a read after a write, the canonical form, and the same for the log of stores.
-/
namespace Sys2Proof.Machine

/-! ### Order -/

theorem allAbove_mono {α : Type} {a b : Nat} (h : a ≤ b) {m : List (Nat × α)} (hm : allAbove b m = true) :
    allAbove a m = true := by
  induction m with
  | nil => rfl
  | cons c m ih =>
    simp only [allAbove, Bool.and_eq_true, decide_eq_true_eq] at hm ⊢
    exact ⟨by omega, ih hm.2⟩

/-- An address above which everything is listed reads as unlisted. -/
theorem memGet_of_allAbove {m : Memory} {a : Nat} (h : allAbove a m = true) : memGet m a = unlistedByte := by
  induction m with
  | nil => rfl
  | cons c m ih =>
    simp only [allAbove, Bool.and_eq_true, decide_eq_true_eq] at h
    simp [memGet, show a ≠ c.1 by omega, ih h.2]

/-! ### Reading and writing -/

/-- The byte just written. -/
theorem memGet_memPut_self (m : Memory) (a : Nat) (b : Byte) (h : rising m = true) : memGet (memPut m a b) a = b := by
  induction m with
  | nil => by_cases hb : b = unlistedByte <;> simp [memPut, memGet, hb]
  | cons c m ih =>
    obtain ⟨a', b'⟩ := c
    simp only [rising, Bool.and_eq_true] at h
    simp only [memPut]
    split
    · rename_i hlt
      have hu : memGet m a = unlistedByte := memGet_of_allAbove (allAbove_mono (by omega) h.1)
      by_cases hb : b = unlistedByte <;> simp [memGet, hb, hu, show a ≠ a' by omega]
    · split
      · rename_i _ heq
        subst heq
        by_cases hb : b = unlistedByte <;> simp [memGet, hb, memGet_of_allAbove h.1]
      · rename_i _ hne
        simp [memGet, hne, ih h.2]

/-- Every other byte. -/
theorem memGet_memPut_other (m : Memory) {a a₂ : Nat} (b : Byte) (h : a₂ ≠ a) :
    memGet (memPut m a b) a₂ = memGet m a₂ := by
  induction m with
  | nil => by_cases hb : b = unlistedByte <;> simp [memPut, memGet, hb, h]
  | cons c m ih =>
    obtain ⟨a', b'⟩ := c
    simp only [memPut]
    split
    · by_cases hb : b = unlistedByte <;> simp [memGet, hb, h]
    · split
      · rename_i _ heq
        subst heq
        by_cases hb : b = unlistedByte <;> simp [memGet, hb, h]
      · simp [memGet, ih]

/-- A read after a write. -/
theorem memGet_memPut (m : Memory) (a a₂ : Nat) (b : Byte) (h : rising m = true) :
    memGet (memPut m a b) a₂ = if a₂ = a then b else memGet m a₂ := by
  by_cases he : a₂ = a
  · subst he; simp [memGet_memPut_self m a₂ b h]
  · simp [memGet_memPut_other m b he, he]

/-! ### The canonical form -/

theorem allAbove_memPut {m : Memory} {a a₂ : Nat} {b : Byte} (hm : allAbove a₂ m = true) (h : a₂ < a) :
    allAbove a₂ (memPut m a b) = true := by
  induction m with
  | nil => by_cases hb : b = unlistedByte <;> simp [memPut, allAbove, hb, h]
  | cons c m ih =>
    obtain ⟨a', b'⟩ := c
    simp only [allAbove, Bool.and_eq_true, decide_eq_true_eq] at hm
    simp only [memPut]
    split
    · by_cases hb : b = unlistedByte <;> simp [allAbove, hb, h, hm]
    · split
      · by_cases hb : b = unlistedByte <;> simp [allAbove, hb, h, hm]
      · simp [allAbove, hm.1, ih hm.2]

theorem rising_memPut {m : Memory} (a : Nat) (b : Byte) (h : rising m = true) : rising (memPut m a b) = true := by
  induction m with
  | nil => by_cases hb : b = unlistedByte <;> simp [memPut, rising, allAbove, hb]
  | cons c m ih =>
    obtain ⟨a', b'⟩ := c
    have hc := h
    simp only [rising, Bool.and_eq_true] at h
    simp only [memPut]
    split
    · rename_i hlt
      by_cases hb : b = unlistedByte
      · simp [hb, rising, h]
      · simp [hb, rising, allAbove, h, hlt, allAbove_mono (Nat.le_of_lt hlt) h.1]
    · split
      · rename_i _ heq
        subst heq
        by_cases hb : b = unlistedByte <;> simp [hb, rising, h]
      · rename_i hge hne
        simp [rising, ih h.2, allAbove_memPut h.1 (show a' < a by omega)]

theorem noneUnlisted_memPut {m : Memory} (a : Nat) (b : Byte) (h : noneUnlisted m = true) :
    noneUnlisted (memPut m a b) = true := by
  induction m with
  | nil => by_cases hb : b = unlistedByte <;> simp [memPut, noneUnlisted, hb]
  | cons c m ih =>
    obtain ⟨a', b'⟩ := c
    have hc := h
    simp only [noneUnlisted, Bool.and_eq_true, bne_iff_ne, ne_eq] at h
    simp only [memPut]
    split
    · by_cases hb : b = unlistedByte <;> simp [hb, noneUnlisted, h]
    · split
      · by_cases hb : b = unlistedByte <;> simp [hb, noneUnlisted, h]
      · simp [noneUnlisted, h.1, ih h.2]

theorem rising_of_wf {m : Memory} (h : Memory.wf m = true) : rising m = true := by
  simp only [Memory.wf, Bool.and_eq_true] at h; exact h.1

/-- A write of one byte keeps the canonical form. -/
theorem memPut_wf {m : Memory} (a : Nat) (b : Byte) (h : Memory.wf m = true) : Memory.wf (memPut m a b) = true := by
  simp only [Memory.wf, Bool.and_eq_true] at h ⊢
  exact ⟨rising_memPut a b h.1, noneUnlisted_memPut a b h.2⟩

/-- A write of one word keeps the canonical form. -/
theorem memPutWord_wf {m : Memory} (a : Nat) (w : Word) (h : Memory.wf m = true) :
    Memory.wf (memPutWord m a w) = true :=
  memPut_wf _ _ (memPut_wf _ _ (memPut_wf _ _ (memPut_wf _ _ h)))

theorem rising_memPutWord {m : Memory} (a : Nat) (w : Word) (h : rising m = true) :
    rising (memPutWord m a w) = true :=
  rising_memPut _ _ (rising_memPut _ _ (rising_memPut _ _ (rising_memPut _ _ h)))

/-- A byte after a write of one word. -/
theorem memGet_memPutWord (m : Memory) (a a₂ : Nat) (w : Word) (h : rising m = true) :
    memGet (memPutWord m a w) a₂ =
      if a₂ = a then w.extractLsb' 0 8
      else if a₂ = a + 1 then w.extractLsb' 8 8
      else if a₂ = a + 2 then w.extractLsb' 16 8
      else if a₂ = a + 3 then w.extractLsb' 24 8
      else memGet m a₂ := by
  have h1 := rising_memPut a (w.extractLsb' 0 8) h
  have h2 := rising_memPut (a + 1) (w.extractLsb' 8 8) h1
  have h3 := rising_memPut (a + 2) (w.extractLsb' 16 8) h2
  simp only [memPutWord]
  rw [memGet_memPut _ _ _ _ h3, memGet_memPut _ _ _ _ h2, memGet_memPut _ _ _ _ h1, memGet_memPut _ _ _ _ h]
  repeat' split
  all_goals first | rfl | omega

/-- A byte outside the word written. -/
theorem memGet_memPutWord_other (m : Memory) {a a₂ : Nat} (w : Word) (h : ¬ (a ≤ a₂ ∧ a₂ < a + 4)) :
    memGet (memPutWord m a w) a₂ = memGet m a₂ := by
  simp only [memPutWord]
  rw [memGet_memPut_other _ _ (by omega), memGet_memPut_other _ _ (by omega), memGet_memPut_other _ _ (by omega),
    memGet_memPut_other _ _ (by omega)]

/-- The four bytes of a word make the word (R51). -/
theorem bytes_append (w : Word) :
    w.extractLsb' 24 8 ++ w.extractLsb' 16 8 ++ w.extractLsb' 8 8 ++ w.extractLsb' 0 8 = w := by
  apply BitVec.eq_of_getLsbD_eq
  intro i hi
  simp only [BitVec.getLsbD_append, BitVec.getLsbD_extractLsb']
  split
  · simp_all
  · split
    · rw [show 8 + (i - 8) = i by omega]; simp_all
    · split
      · rw [show 16 + (i - 8 - 8) = i by omega]; simp_all
      · rw [show 24 + (i - 8 - 8 - 8) = i by omega]
        simp [show i - 8 - 8 - 8 < 8 by omega]

/-- The word just written. -/
theorem memGetWord_memPutWord_self (m : Memory) (a : Nat) (w : Word) (h : rising m = true) :
    memGetWord (memPutWord m a w) a = w := by
  simp only [memGetWord, memGet_memPutWord _ _ _ _ h]
  simp [bytes_append]

/-! ### What is listed -/

/-- Everything listed after a write was listed before or is the byte written. -/
theorem mem_memPut {m : Memory} {a : Nat} {b : Byte} {c : Host.Cell} (h : c ∈ memPut m a b) :
    c ∈ m ∨ c = (a, b) := by
  induction m with
  | nil =>
    simp only [memPut] at h
    split at h
    · simp at h
    · simpa using h
  | cons d m ih =>
    obtain ⟨a', b'⟩ := d
    simp only [memPut] at h
    split at h
    · split at h
      · exact .inl h
      · simp only [List.mem_cons] at h ⊢; tauto
    · split at h
      · split at h
        · exact .inl (List.mem_cons_of_mem _ h)
        · simp only [List.mem_cons] at h ⊢; tauto
      · simp only [List.mem_cons] at h ⊢
        rcases h with h | h
        · exact .inl (.inl h)
        · rcases ih h with h | h
          · exact .inl (.inr h)
          · exact .inr h

/-- Everything listed after a write of a word was listed before or is one of its four bytes. -/
theorem mem_memPutWord {m : Memory} {a : Nat} {w : Word} {c : Host.Cell} (h : c ∈ memPutWord m a w) :
    c ∈ m ∨ (a ≤ c.1 ∧ c.1 < a + 4) := by
  simp only [memPutWord] at h
  rcases mem_memPut h with h | h
  · rcases mem_memPut h with h | h
    · rcases mem_memPut h with h | h
      · rcases mem_memPut h with h | h
        · exact .inl h
        · subst h; right; constructor <;> simp
      · subst h; right; constructor <;> simp
    · subst h; right; constructor <;> simp
  · subst h; right; constructor <;> simp

/-! ### The log of stores -/

theorem allAbove_logPut {l : List (Nat × Nat)} {k k₂ n : Nat} (hl : allAbove k₂ l = true) (h : k₂ < k) :
    allAbove k₂ (logPut l k n) = true := by
  induction l with
  | nil => simp [logPut, allAbove, h]
  | cons c l ih =>
    obtain ⟨k', n'⟩ := c
    simp only [allAbove, Bool.and_eq_true, decide_eq_true_eq] at hl
    simp only [logPut]
    split
    · simp [allAbove, h, hl]
    · split
      · simp [allAbove, h, hl]
      · simp [allAbove, hl.1, ih hl.2]

/-- The log stays in order. -/
theorem rising_logPut {l : List (Nat × Nat)} (k n : Nat) (h : rising l = true) : rising (logPut l k n) = true := by
  induction l with
  | nil => simp [logPut, rising, allAbove]
  | cons c l ih =>
    obtain ⟨k', n'⟩ := c
    simp only [rising, Bool.and_eq_true] at h
    simp only [logPut]
    split
    · rename_i hlt
      simp [rising, allAbove, h, hlt, allAbove_mono (Nat.le_of_lt hlt) h.1]
    · split
      · rename_i _ heq
        subst heq
        simp [rising, h]
      · rename_i hge hne
        simp [rising, ih h.2, allAbove_logPut h.1 (show k' < k by omega)]

/-- Everything logged after a store was logged before or is the store. -/
theorem mem_logPut {l : List (Nat × Nat)} {k n : Nat} {e : Nat × Nat} (h : e ∈ logPut l k n) :
    e ∈ l ∨ e = (k, n) := by
  induction l with
  | nil => right; simpa [logPut] using h
  | cons c l ih =>
    obtain ⟨k', n'⟩ := c
    simp only [logPut] at h
    split at h
    · simp only [List.mem_cons] at h ⊢; tauto
    · split at h
      · simp only [List.mem_cons] at h ⊢; tauto
      · simp only [List.mem_cons] at h ⊢
        rcases h with h | h
        · exact .inl (.inl h)
        · rcases ih h with h | h
          · exact .inl (.inr h)
          · exact .inr h

/-- The store just logged. -/
theorem logGet_logPut_self (l : List (Nat × Nat)) (k n : Nat) : logGet (logPut l k n) k = some n := by
  induction l with
  | nil => simp [logPut, logGet]
  | cons c l ih =>
    obtain ⟨k', n'⟩ := c
    simp only [logPut]
    split
    · simp [logGet]
    · split
      · simp [logGet]
      · rename_i _ hne
        simp [logGet, hne, ih]

/-- Every other word keeps its date. -/
theorem logGet_logPut_other (l : List (Nat × Nat)) {k k₂ : Nat} (n : Nat) (h : k₂ ≠ k) :
    logGet (logPut l k n) k₂ = logGet l k₂ := by
  induction l with
  | nil => simp [logPut, logGet, h]
  | cons c l ih =>
    obtain ⟨k', n'⟩ := c
    simp only [logPut]
    split
    · simp [logGet, h]
    · split
      · rename_i _ he
        simp [logGet, h, ← he]
      · simp [logGet, ih]

/-- An erased word is not in the log. -/
theorem logGet_logErase_self (l : List (Nat × Nat)) (k : Nat) : logGet (logErase l k) k = none := by
  induction l with
  | nil => rfl
  | cons c l ih =>
    obtain ⟨k', n'⟩ := c
    simp only [logErase]
    split
    · exact ih
    · rename_i hne
      simp [logGet, hne, ih]

end Sys2Proof.Machine
end

