-- ==== Sys2Proof/Laws/Registers.lean ====
section
/-!
SUPPORT. The laws of the register file and of the operations that end an instruction: what they answer, said once.
-/
namespace Sys2Proof.Machine

/-- x[0] reads 0 (R11). -/
@[simp] theorem reg_zero (s : State) : s.reg 0#5 = 0#32 := by simp [State.reg]

/-- A write to x[0] is discarded (R11). -/
@[simp] theorem setReg_zero (s : State) (v : Word) : s.setReg 0#5 v = s := by simp [State.setReg]

/-- A register read after a register write. -/
theorem reg_setReg (s : State) (r q : Reg) (v : Word) :
    (s.setReg r v).reg q = if q = r then (if r = 0#5 then 0#32 else v) else s.reg q := by
  unfold State.setReg State.reg
  by_cases hr : r = 0#5
  · subst hr
    by_cases hq : q = 0#5 <;> simp [hq]
  · by_cases hq : q = r
    · subst hq; simp [hr]
    · have h : r.toNat ≠ q.toNat := fun h => hq (BitVec.eq_of_toNat_eq h.symm)
      by_cases h0 : q = 0#5 <;> simp [hr, hq, h0, h]
      intro hq'; exact absurd (h0 ▸ hq') (h0 ▸ hq)

/-- The register just written. -/
theorem reg_setReg_self (s : State) (r : Reg) (v : Word) : (s.setReg r v).reg r = if r = 0#5 then 0#32 else v := by
  simp [reg_setReg]

/-- Every other register. -/
theorem reg_setReg_other (s : State) {r q : Reg} (v : Word) (h : q ≠ r) : (s.setReg r v).reg q = s.reg q := by
  simp [reg_setReg, h]

/-- The slot of x[0] is never written. -/
theorem setReg_zeroSlot (s : State) (r : Reg) (v : Word) : (s.setReg r v).regs[0] = s.regs[0] := by
  unfold State.setReg
  split
  · rfl
  · rename_i h
    have h' : r.toNat ≠ 0 := fun h' => h (BitVec.eq_of_toNat_eq (by simpa using h'))
    simp [h']

@[simp] theorem byteAt_setReg (s : State) (r : Reg) (v : Word) (a : Nat) :
    (s.setReg r v).byteAt a = s.byteAt a := by simp [State.byteAt]

@[simp] theorem byteAt_advancePc (s : State) (a : Nat) : s.advancePc.byteAt a = s.byteAt a := rfl

/-- A TLB entry read after a write of one of them. -/
theorem tlb_setTlb (s : State) (i : BitVec 4) (e : TlbEntry) (j : Fin 16) :
    (s.setTlb i e).tlb[j] = if j = i.toFin then e else s.tlb[j] := by
  by_cases h : j = i.toFin
  · subst h; simp
  · have : i.toNat ≠ j.val := fun hj => h (Fin.ext hj.symm)
    simp [h, this]

/-- `writeBack` answers a next state, in which only its register is written. -/
theorem writeBack_onlyRegWritten (s : State) (r : Reg) (v : Word) :
    writeBack s r v = .next ((s.setReg r v).advancePc) ∧
      OnlyRegWritten r v s ((s.setReg r v).advancePc) := by
  refine ⟨rfl, ?_⟩
  constructor <;>
    simp [reg_setReg, SameHiLo, SameCp0, SameTlb, SameMemory, SameSerial, SameClock, State.byteAt]
  simp +contextual

/-- `writeBack` goes on at the next instruction. -/
theorem writeBack_sequential (s : State) (r : Reg) (v : Word) : SequentialPc s ((s.setReg r v).advancePc) := by
  simp [SequentialPc]

/-! ### Results -/

@[simp] theorem bind_ok {α β : Type} (a : α) (f : α → Res β) : (Res.ok a).bind f = f a := rfl
@[simp] theorem bind_raise {α β : Type} (e : Exn) (f : α → Res β) : (Res.raise e).bind f = .raise e := rfl
@[simp] theorem bind_fault {α β : Type} (x : Fault) (f : α → Res β) : (Res.fault x).bind f = .fault x := rfl
@[simp] theorem bind_refuse {α β : Type} (x : Refusal) (f : α → Res β) : (Res.refuse x).bind f = .refuse x := rfl

/-- An operation followed by another is a value only if both are. -/
theorem bind_eq_ok {α β : Type} {r : Res α} {f : α → Res β} {b : β} :
    r.bind f = .ok b ↔ ∃ a, r = .ok a ∧ f a = .ok b := by
  cases r <;> simp

/-- An operation followed by another raises if either does. -/
theorem bind_eq_raise {α β : Type} {r : Res α} {f : α → Res β} {e : Exn} :
    r.bind f = .raise e ↔ r = .raise e ∨ ∃ a, r = .ok a ∧ f a = .raise e := by
  cases r <;> simp

@[simp] theorem finish_ok (s s' : State) : finish s (.ok s') = .next s' := rfl
@[simp] theorem finish_raise (s : State) (e : Exn) : finish s (.raise e) = .next (takeException e s) := rfl
@[simp] theorem finish_fault (s : State) (x : Fault) : finish s (.fault x) = .fault x := rfl
@[simp] theorem finish_refuse (s : State) (x : Refusal) : finish s (.refuse x) = .refused x := rfl

/-- Everything `finish` can do when it answers a next state. -/
theorem finish_next {s s' : State} {r : Res State} (h : finish s r = .next s') :
    r = .ok s' ∨ ∃ e, r = .raise e ∧ s' = takeException e s := by
  cases r with
  | ok a => exact .inl (by simpa using h)
  | raise e => exact .inr ⟨e, rfl, by simpa using h.symm⟩
  | fault x => simp at h
  | refuse x => simp at h

/-- Everything `privileged` can do when it answers a next state. -/
theorem privileged_next {s s' : State} {r : Res State} (h : privileged s r = .next s') :
    (s.userMode = true ∧ s' = takeException .ri s) ∨
      (s.userMode = false ∧ (r = .ok s' ∨ ∃ e, r = .raise e ∧ s' = takeException e s)) := by
  unfold privileged at h
  by_cases hu : s.userMode = true
  · simp only [hu, if_true, finish_raise] at h
    exact .inl ⟨hu, by simpa using h.symm⟩
  · simp only [hu] at h
    exact .inr ⟨by simpa using hu, finish_next h⟩

/-- Everything a branch or jump can do when it answers a next state. -/
theorem controlTransfer_next {s t s' : State} (h : controlTransfer s t = .next s') : s.ds = false ∧ s' = t := by
  unfold controlTransfer at h
  split at h
  · simp at h
  · rename_i hds
    exact ⟨by simpa using hds, by simpa using h.symm⟩

end Sys2Proof.Machine
end

