-- ==== Sys2Proof/Laws/Access.lean ====
section
/-!
SUPPORT. Everything that a device access, a translation, a load, a store and a fetch can do, said once for each.
-/
namespace Sys2Proof.Machine

/-! ### Devices -/

/-- Everything a byte read can answer. -/
theorem physReadByte_ok {s s' : State} {pa : Word} {b : Byte} (h : physReadByte s pa = .ok (b, s')) :
    (deviceAt pa = some .ram ∧ b = s.byteAt pa.toNat ∧ s' = s) ∨
      (deviceAt pa = some .serial ∧ serialOffset pa = 0#3 ∧ (b, s') = readSerialData s) ∨
      (deviceAt pa = some .serial ∧ serialOffset pa = 4#3 ∧ b = readSerialStatus s ∧ s' = s) := by
  unfold physReadByte at h
  split at h
  · simp at h
  · rename_i hd
    simp only [Res.ok.injEq, Prod.mk.injEq] at h
    exact .inl ⟨hd, h.1.symm, h.2.symm⟩
  · simp at h
  · simp at h
  · rename_i hd
    split at h
    · rename_i h0
      exact .inr (.inl ⟨hd, h0, by simpa using h.symm⟩)
    · split at h
      · rename_i h4
        simp only [Res.ok.injEq, Prod.mk.injEq] at h
        exact .inr (.inr ⟨hd, h4, h.1.symm, h.2.symm⟩)
      · simp at h
  · simp at h

/-- A byte read raises no exception. -/
theorem physReadByte_no_raise (s : State) (pa : Word) (e : Exn) : physReadByte s pa ≠ .raise e := by
  unfold physReadByte
  repeat' split
  all_goals simp

/-- A word read raises no exception. -/
theorem physReadWord_no_raise (s : State) (pa : Word) (e : Exn) : physReadWord s pa ≠ .raise e := by
  unfold physReadWord
  repeat' split
  all_goals simp

/-- Everything a read of the serial data register can do. -/
theorem readSerialData_cases (s : State) :
    (s.serialIn = [] ∧ readSerialData s = (0xff#8, s)) ∨
      (∃ b q, s.serialIn = b :: q ∧ readSerialData s = (b, s.setSerialIn q)) := by
  unfold readSerialData
  split
  · rename_i h; exact .inl ⟨h, rfl⟩
  · rename_i b q h; exact .inr ⟨b, q, h, rfl⟩

/-- Everything a byte write can do. -/
theorem physWriteByte_ok {s s' : State} {pa : Word} {b : Byte} (h : physWriteByte s pa b = .ok s') :
    (deviceAt pa = some .ram ∧ s' = (s.setMem (memPut s.mem pa.toNat b)).logStore pa) ∨
      (deviceAt pa = some .vga ∧ s' = writeVgaByte s pa b) ∨
      (deviceAt pa = some .serial ∧ serialOffset pa = 0#3 ∧ s' = s.sendSerial b) := by
  unfold physWriteByte at h
  split at h
  · simp at h
  · rename_i hd; exact .inl ⟨hd, by simpa using h.symm⟩
  · rename_i hd; exact .inr (.inl ⟨hd, by simpa using h.symm⟩)
  · simp at h
  · rename_i hd
    split at h
    · rename_i h0; exact .inr (.inr ⟨hd, h0, by simpa using h.symm⟩)
    · split at h <;> simp at h
  · simp at h

/-- A byte write raises no exception. -/
theorem physWriteByte_no_raise (s : State) (pa : Word) (b : Byte) (e : Exn) : physWriteByte s pa b ≠ .raise e := by
  unfold physWriteByte
  repeat' split
  all_goals simp

/-- Everything a word write can do. -/
theorem physWriteWord_ok {s s' : State} {pa w : Word} (h : physWriteWord s pa w = .ok s') :
    deviceAt pa = some .ram ∧ s' = (s.setMem (memPutWord s.mem pa.toNat w)).logStore pa := by
  unfold physWriteWord at h
  split at h
  · simp at h
  · rename_i hd; exact ⟨hd, by simpa using h.symm⟩
  all_goals simp at h

/-- A word write raises no exception. -/
theorem physWriteWord_no_raise (s : State) (pa w : Word) (e : Exn) : physWriteWord s pa w ≠ .raise e := by
  unfold physWriteWord
  repeat' split
  all_goals simp

/-- RAM is the lowest 4 MB (R67, R70). -/
theorem deviceAt_ram {pa : Word} : deviceAt pa = some .ram ↔ pa.toNat ≤ 0x003fffff := by
  unfold deviceAt
  constructor
  · intro h
    by_contra hn
    simp only [hn, if_false] at h
    repeat' split at h
    all_goals simp at h
  · intro h; simp [h]

/-- The range of the VGA controller (R67, R73). -/
theorem deviceAt_vga {pa : Word} : deviceAt pa = some .vga ↔ 0x10000000 ≤ pa.toNat ∧ pa.toNat ≤ 0x10000fff := by
  unfold deviceAt
  constructor
  · intro h
    by_contra hn
    simp only [hn, if_false] at h
    repeat' split at h
    all_goals simp at h
  · intro h; simp [h, show ¬ pa.toNat ≤ 0x003fffff by omega]

/-! ### The TLB lookup -/

/-- No entry matches. -/
theorem tlbMatches_nil {s : State} {va : Word} (h : ∀ i : Fin 16, s.tlb[i].vpn ≠ va.extractLsb' 13 19) :
    tlbMatches s va = [] := by
  simp only [tlbMatches, List.filter_eq_nil_iff, decide_eq_true_eq]
  intro e he
  rw [Vector.mem_toList_iff, Vector.mem_iff_getElem] at he
  obtain ⟨i, hi, rfl⟩ := he
  exact h ⟨i, hi⟩

/-- A filter that one position passes. -/
theorem filter_eq_singleton {α : Type} (p : α → Bool) (l : List α) (i : Nat) (hi : i < l.length) (hp : p l[i] = true)
    (hu : ∀ j (hj : j < l.length), p l[j] = true → j = i) : l.filter p = [l[i]] := by
  induction l generalizing i with
  | nil => simp at hi
  | cons a l ih =>
    cases i with
    | zero =>
      simp only [List.getElem_cons_zero] at hp
      simp only [List.filter_cons, hp, if_true, List.getElem_cons_zero, List.cons.injEq, true_and,
        List.filter_eq_nil_iff]
      intro b hb hpb
      obtain ⟨j, hj, rfl⟩ := List.mem_iff_getElem.mp hb
      have := hu (j + 1) (by simpa using hj) (by simpa using hpb)
      omega
    | succ i =>
      have ha : p a = false := by
        by_contra h
        have := hu 0 (by simp) (by simpa using h)
        omega
      simp only [List.filter_cons, ha, Bool.false_eq_true, if_false, List.getElem_cons_succ]
      refine ih i (by simpa using hi) (by simpa using hp) fun j hj h => ?_
      have := hu (j + 1) (by simpa using hj) (by simpa using h)
      omega

/-- A filter that two positions pass. -/
theorem filter_eq_cons_cons {α : Type} (p : α → Bool) (l : List α) (i j : Nat) (hi : i < j) (hj : j < l.length)
    (hp : p l[i] = true) (hq : p l[j] = true) : ∃ a b t, l.filter p = a :: b :: t := by
  have h : 2 ≤ (l.filter p).length := by
    rw [← List.countP_eq_length_filter, ← List.take_append_drop j l, List.countP_append]
    have h1 : 0 < (l.take j).countP p :=
      List.countP_pos_iff.mpr ⟨l[i], by rw [List.mem_take_iff_getElem]; exact ⟨i, by omega, rfl⟩, hp⟩
    have h2 : 0 < (l.drop j).countP p :=
      List.countP_pos_iff.mpr ⟨l[j], by rw [List.mem_drop_iff_getElem]; exact ⟨0, by simpa using hj, by simp⟩, hq⟩
    omega
  match hl : l.filter p with
  | [] => simp [hl] at h
  | [_] => simp [hl] at h
  | a :: b :: t => exact ⟨a, b, t, rfl⟩

/-- One entry matches. -/
theorem tlbMatches_one {s : State} {va : Word} (i : Fin 16) (h : s.tlb[i].vpn = va.extractLsb' 13 19)
    (hu : ∀ j : Fin 16, s.tlb[j].vpn = va.extractLsb' 13 19 → j = i) : tlbMatches s va = [s.tlb[i]] := by
  have := filter_eq_singleton (fun e : TlbEntry => decide (e.vpn = va.extractLsb' 13 19)) s.tlb.toList i.val
    (by simp) (by simpa using h) fun j hj hp =>
      congrArg Fin.val (hu ⟨j, by simpa using hj⟩ (by simpa using hp))
  simpa [tlbMatches] using this

/-- Two entries match. -/
theorem tlbMatches_two {s : State} {va : Word} {i j : Fin 16} (hne : i ≠ j) (hi : s.tlb[i].vpn = va.extractLsb' 13 19)
    (hj : s.tlb[j].vpn = va.extractLsb' 13 19) : ∃ a b t, tlbMatches s va = a :: b :: t := by
  rcases Nat.lt_or_gt_of_ne (fun h => hne (Fin.ext h)) with hl | hl
  · exact filter_eq_cons_cons _ _ i.val j.val hl (by simp) (by simpa using hi) (by simpa using hj)
  · exact filter_eq_cons_cons _ _ j.val i.val hl (by simp) (by simpa using hj) (by simpa using hi)

/-! ### Translation -/

/-- Everything the translation by one entry can answer. -/
theorem translateByEntry_cases (e : TlbEntry) (va : Word) (kind : AccessKind) :
    translateByEntry e va kind = .raise (tlbMiss kind va) ∨
      translateByEntry e va kind = .raise (addressError kind va) ∨
      ∃ ppn : BitVec 20, translateByEntry e va kind = .ok (ppn ++ va.extractLsb' 0 12) := by
  unfold translateByEntry
  generalize va.getLsbD 12 = odd
  cases odd <;> simp only [if_true, Bool.false_eq_true, if_false]
  all_goals
    split
    · exact .inl rfl
    · split
      · rename_i hs
        exact .inr (.inl (by rw [hs.1]; rfl))
      · exact .inr (.inr ⟨_, rfl⟩)

/-- Everything a translation can answer. -/
theorem translate_cases (s : State) (va : Word) (kind : AccessKind) :
    translateAddr s va kind = .raise (addressError kind va) ∨ translateAddr s va kind = .raise (tlbMiss kind va) ∨
      translateAddr s va kind = .refuse .tlbMultipleMatch ∨
      (linearAddress va = true ∧ translateAddr s va kind = .ok (linearPhysical va)) ∨
      ∃ ppn : BitVec 20, translateAddr s va kind = .ok (ppn ++ va.extractLsb' 0 12) := by
  unfold translateAddr
  split
  · exact .inl rfl
  · split
    · rename_i hl
      exact .inr (.inr (.inr (.inl ⟨hl, rfl⟩)))
    · unfold translateMapped
      split
      · exact .inr (.inl rfl)
      · rename_i e _
        rcases translateByEntry_cases e va kind with h | h | h
        · exact .inr (.inl h)
        · exact .inl h
        · exact .inr (.inr (.inr (.inr h)))
      · exact .inr (.inr (.inl rfl))

/-- The exceptions that an access at `va` raises (R60). -/
theorem translate_raise {s : State} {va : Word} {kind : AccessKind} {e : Exn} (h : translateAddr s va kind = .raise e) :
    e = addressError kind va ∨ e = tlbMiss kind va := by
  rcases translate_cases s va kind with h' | h' | h' | ⟨_, h'⟩ | ⟨_, h'⟩ <;> rw [h'] at h <;> simp_all

/-- A translation keeps the offset in the page. -/
theorem translate_offset {s : State} {va pa : Word} {kind : AccessKind} (h : translateAddr s va kind = .ok pa) :
    pa.extractLsb' 0 12 = va.extractLsb' 0 12 := by
  rcases translate_cases s va kind with h' | h' | h' | ⟨_, h'⟩ | ⟨ppn, h'⟩ <;> rw [h'] at h <;>
    simp only [Res.ok.injEq, reduceCtorEq] at h <;> subst h <;> ext i hi
  · simp only [linearPhysical, BitVec.getElem_extractLsb', BitVec.getLsbD_append]
    simp [show i < 29 by omega]
  · simp only [BitVec.getElem_extractLsb', BitVec.getLsbD_append]
    simp [hi]

/-- An aligned address is a multiple of 4. -/
theorem wordAligned_iff (va : Word) : wordAligned va = true ↔ va.toNat % 4 = 0 := by
  simp only [wordAligned, decide_eq_true_eq]
  constructor
  · intro h
    have := congrArg BitVec.toNat h
    simpa [BitVec.extractLsb'_toNat] using this
  · intro h
    apply BitVec.eq_of_toNat_eq
    simpa [BitVec.extractLsb'_toNat] using h

/-- The physical address of an aligned one is aligned. -/
theorem translate_aligned {s : State} {va pa : Word} {kind : AccessKind} (h : translateAddr s va kind = .ok pa)
    (ha : wordAligned va = true) : pa.toNat % 4 = 0 := by
  have ho := congrArg BitVec.toNat (translate_offset h)
  simp only [BitVec.extractLsb'_toNat, Nat.shiftRight_zero] at ho
  rw [wordAligned_iff] at ha
  omega

/-! ### Loads, stores, fetch -/

/-- A load or store reads the state alone through its mode, its TLB: the same translation after what changes neither. -/
theorem translate_congr {s t : State} (va : Word) (kind : AccessKind) (hu : t.userMode = s.userMode)
    (ht : t.tlb = s.tlb) : translateAddr t va kind = translateAddr s va kind := by
  simp [translateAddr, translateMapped, tlbMatches, hu, ht]

theorem loadByte_ok {s s' : State} {va : Word} {b : Byte} (h : loadByte s va = .ok (b, s')) :
    ∃ pa, translateAddr s va .load = .ok pa ∧ physReadByte s pa = .ok (b, s') := by
  simpa [loadByte, bind_eq_ok] using h

theorem loadWord_ok {s : State} {va w : Word} (h : loadWord s va = .ok w) :
    wordAligned va = true ∧ ∃ pa, translateAddr s va .load = .ok pa ∧ physReadWord s pa = .ok w := by
  unfold loadWord at h
  split at h
  · rename_i ha; exact ⟨ha, by simpa [bind_eq_ok] using h⟩
  · simp at h

theorem storeByte_ok {s s' : State} {va : Word} {b : Byte} (h : storeByte s va b = .ok s') :
    ∃ pa, translateAddr s va .store = .ok pa ∧ physWriteByte s pa b = .ok s' := by
  simpa [storeByte, bind_eq_ok] using h

theorem storeWord_ok {s s' : State} {va w : Word} (h : storeWord s va w = .ok s') :
    wordAligned va = true ∧ ∃ pa, translateAddr s va .store = .ok pa ∧ physWriteWord s pa w = .ok s' := by
  unfold storeWord at h
  split at h
  · rename_i ha; exact ⟨ha, by simpa [bind_eq_ok] using h⟩
  · simp at h

/-- The exceptions a load or store can raise, and at which address (R160). -/
theorem loadByte_raise {s : State} {va : Word} {e : Exn} (h : loadByte s va = .raise e) :
    e = addressError .load va ∨ e = tlbMiss .load va := by
  rcases bind_eq_raise.mp h with h | ⟨pa, _, h⟩
  · exact translate_raise h
  · exact absurd h (physReadByte_no_raise s pa e)

theorem loadWord_raise {s : State} {va : Word} {e : Exn} (h : loadWord s va = .raise e) :
    e = addressError .load va ∨ e = tlbMiss .load va := by
  unfold loadWord at h
  split at h
  · rcases bind_eq_raise.mp h with h | ⟨pa, _, h⟩
    · exact translate_raise h
    · exact absurd h (physReadWord_no_raise s pa e)
  · simp only [Res.raise.injEq] at h; exact .inl h.symm

theorem storeByte_raise {s : State} {va : Word} {b : Byte} {e : Exn} (h : storeByte s va b = .raise e) :
    e = addressError .store va ∨ e = tlbMiss .store va := by
  rcases bind_eq_raise.mp h with h | ⟨pa, _, h⟩
  · exact translate_raise h
  · exact absurd h (physWriteByte_no_raise s pa b e)

theorem storeWord_raise {s : State} {va w : Word} {e : Exn} (h : storeWord s va w = .raise e) :
    e = addressError .store va ∨ e = tlbMiss .store va := by
  unfold storeWord at h
  split at h
  · rcases bind_eq_raise.mp h with h | ⟨pa, _, h⟩
    · exact translate_raise h
    · exact absurd h (physWriteWord_no_raise s pa w e)
  · simp only [Res.raise.injEq] at h; exact .inl h.symm

/-- Everything a fetch that answers a word did. -/
theorem fetch_ok {s : State} {w : Word} (h : fetch s = .ok w) :
    wordAligned s.pc = true ∧ ∃ pa, translateAddr s s.pc .fetch = .ok pa ∧ storedWithinWindow s pa = false ∧
      physReadWord s pa = .ok w := by
  unfold fetch at h
  split at h
  · rename_i ha
    refine ⟨ha, ?_⟩
    obtain ⟨pa, hp, h⟩ := bind_eq_ok.mp h
    split at h
    · simp at h
    · rename_i hw; exact ⟨pa, hp, by simpa using hw, h⟩
  · simp at h

/-- The exceptions of a fetch carry the address of the instruction (R55, R64). -/
theorem fetch_raise {s : State} {e : Exn} (h : fetch s = .raise e) : e = .adel s.pc ∨ e = .tlbl s.pc := by
  unfold fetch at h
  split at h
  · rcases bind_eq_raise.mp h with h | ⟨pa, _, h⟩
    · exact translate_raise h
    · split at h
      · simp at h
      · exact absurd h (physReadWord_no_raise s pa e)
  · simp only [Res.raise.injEq] at h; exact .inl h.symm

/-! ### The canonical form of memory -/

/-- Memory right after reset is in its canonical form. -/
theorem reset_memory_wf : Memory.wf State.reset.mem = true := rfl

/-- A character written keeps the canonical form. -/
theorem writeVgaByte_wf {s : State} (pa : Word) (b : Byte) (h : Memory.wf s.mem = true) :
    Memory.wf (writeVgaByte s pa b).mem = true := by
  unfold writeVgaByte
  split
  · exact memPut_wf _ _ h
  · exact h

/-- A byte write keeps the canonical form. -/
theorem physWriteByte_wf {s s' : State} {pa : Word} {b : Byte} (h : Memory.wf s.mem = true)
    (hw : physWriteByte s pa b = .ok s') : Memory.wf s'.mem = true := by
  rcases physWriteByte_ok hw with ⟨-, rfl⟩ | ⟨-, rfl⟩ | ⟨-, -, rfl⟩
  · exact memPut_wf _ _ h
  · exact writeVgaByte_wf pa b h
  · exact h

/-- A word write keeps the canonical form. -/
theorem physWriteWord_wf {s s' : State} {pa w : Word} (h : Memory.wf s.mem = true)
    (hw : physWriteWord s pa w = .ok s') : Memory.wf s'.mem = true := by
  obtain ⟨-, rfl⟩ := physWriteWord_ok hw
  exact memPutWord_wf _ _ h

/-- An instruction placed from outside keeps the canonical form. -/
theorem placeFetchWord_wf {s : State} (w : Word) (h : Memory.wf s.mem = true) :
    Memory.wf (placeFetchWord s w).mem = true := by
  unfold placeFetchWord
  split
  · split
    · exact memPutWord_wf _ _ h
    · exact memPutWord_wf _ _ h
    · exact memPut_wf _ _ (memPut_wf _ _ h)
    · exact h
  · exact h

/-- A byte load changes no byte of memory. -/
theorem physReadByte_mem {s s' : State} {pa : Word} {b : Byte} (h : physReadByte s pa = .ok (b, s')) :
    s'.mem = s.mem := by
  rcases physReadByte_ok h with ⟨-, -, rfl⟩ | ⟨-, -, h⟩ | ⟨-, -, -, rfl⟩
  · rfl
  · rcases readSerialData_cases s with ⟨-, hr⟩ | ⟨b', q, -, hr⟩ <;> rw [hr, Prod.mk.injEq] at h <;>
      obtain ⟨-, rfl⟩ := h <;> rfl
  · rfl

end Sys2Proof.Machine
end

