-- ==== Sys2Proof/Laws/Clock.lean ====
section
/-!
SUPPORT. The laws of what happens around the instruction of a step: the timer, the serial arrivals, the interrupt lines
(R186, R191, R208 to R215).
-/
namespace Sys2Proof.Machine

/-- A step takes at least one cycle (R208). -/
theorem cyclesPerStep_pos (n : Nat) : 1 ≤ Config.cyclesPerStep n := by simp [Config.cyclesPerStep]

/-- The buffer holds at least one byte (R211). -/
theorem serialBufCapacity_pos : 1 ≤ Config.serialBufCapacity := by simp [Config.serialBufCapacity]

/-- Of CP0, time changes `count` alone (R208, R209). -/
theorem passTime_cp0 (s : State) : s.passTime.cp0 =
    { s.cp0 with count := s.cp0.count + BitVec.ofNat 32 (Config.cyclesPerStep s.ticks) } := rfl

@[simp] theorem passTime_count (s : State) :
    s.passTime.cp0.count = s.cp0.count + BitVec.ofNat 32 (Config.cyclesPerStep s.ticks) := rfl
@[simp] theorem passTime_index (s : State) : s.passTime.cp0.index = s.cp0.index := rfl
@[simp] theorem passTime_entrylo0 (s : State) : s.passTime.cp0.entrylo0 = s.cp0.entrylo0 := rfl
@[simp] theorem passTime_entrylo1 (s : State) : s.passTime.cp0.entrylo1 = s.cp0.entrylo1 := rfl
@[simp] theorem passTime_badaddr (s : State) : s.passTime.cp0.badaddr = s.cp0.badaddr := rfl
@[simp] theorem passTime_entryhi (s : State) : s.passTime.cp0.entryhi = s.cp0.entryhi := rfl
@[simp] theorem passTime_compare (s : State) : s.passTime.cp0.compare = s.cp0.compare := rfl
@[simp] theorem passTime_status (s : State) : s.passTime.cp0.status = s.cp0.status := rfl
@[simp] theorem passTime_cause (s : State) : s.passTime.cp0.cause = s.cp0.cause := rfl
@[simp] theorem passTime_epc (s : State) : s.passTime.cp0.epc = s.cp0.epc := rfl
@[simp] theorem passTime_ebase (s : State) : s.passTime.cp0.ebase = s.cp0.ebase := rfl
@[simp] theorem passTime_watchlo (s : State) : s.passTime.cp0.watchlo = s.cp0.watchlo := rfl
@[simp] theorem passTime_watchhi (s : State) : s.passTime.cp0.watchhi = s.cp0.watchhi := rfl
@[simp] theorem passTime_serialIn (s : State) :
    s.passTime.serialIn = (receive s.ticks s.serialIn s.arrivals).1 := rfl

/-- The lines after time has passed (R186, R190). -/
theorem passTime_irq (s : State) : s.passTime.irq =
    irqLines (timerReached s.cp0.count s.cp0.compare (Config.cyclesPerStep s.ticks) ||
      (Config.timerIrqHold && s.timerHeld)) (receive s.ticks s.serialIn s.arrivals).2 := rfl

/-- Line 7 is the timer (R190). -/
theorem irqLines_seven (t r : Bool) : (irqLines t r).getLsbD 7 = t := by cases t <;> cases r <;> rfl

/-- Line 4 is the serial controller (R190). -/
theorem irqLines_four (t r : Bool) : (irqLines t r).getLsbD 4 = r := by cases t <;> cases r <;> rfl

/-- The other six lines are 0 (R186). -/
theorem irqLines_others (t r : Bool) : irqLines t r &&& 0x6f#8 = 0#8 := by cases t <;> cases r <;> rfl

/-- `compare` is reached when it is `count` plus one of 1 to k (R210). -/
theorem timerReached_iff (count compare : Word) (k : Nat) :
    timerReached count compare k = true ↔ ∃ j, j < k ∧ compare = count + 1#32 + BitVec.ofNat 32 j := by
  simp only [timerReached, decide_eq_true_eq]
  constructor
  · intro h
    refine ⟨_, h, ?_⟩
    rw [BitVec.ofNat_toNat, BitVec.setWidth_eq]
    bv_omega
  · rintro ⟨j, hj, rfl⟩
    have h : (count + 1#32 + BitVec.ofNat 32 j - count - 1#32) = BitVec.ofNat 32 j := by bv_omega
    rw [h, BitVec.toNat_ofNat]
    exact lt_of_le_of_lt (Nat.mod_le _ _) hj

/-- Everything an arrival can do: the byte enters, is lost, or displaces the oldest one (R211, U15). -/
theorem receiveByte_cases (n : Nat) (q : List Byte) (b : Byte) :
    (q.length < Config.serialBufCapacity ∧ receiveByte n q b = (q ++ [b], true)) ∨
      (Config.serialBufCapacity ≤ q.length ∧ receiveByte n q b = (q, false)) ∨
      (Config.serialBufCapacity ≤ q.length ∧ receiveByte n q b = ((q ++ [b]).drop 1, true)) := by
  unfold receiveByte
  split
  · rename_i h; exact .inl ⟨h, rfl⟩
  · rename_i h
    split
    · exact .inr (.inl ⟨by omega, rfl⟩)
    · exact .inr (.inr ⟨by omega, rfl⟩)

/-- Arrivals keep the buffer within its capacity (R211). -/
theorem receive_length {n : Nat} {q : List Byte} {l : List (Option Byte)}
    (h : q.length ≤ Config.serialBufCapacity) : (receive n q l).1.length ≤ Config.serialBufCapacity := by
  unfold receive
  split
  · exact h
  · exact h
  · rename_i b _
    rcases receiveByte_cases n q b with ⟨hl, hr⟩ | ⟨hl, hr⟩ | ⟨hl, hr⟩ <;> rw [hr] <;> simp <;> omega

end Sys2Proof.Machine
end

