-- ==== Sys2Proof/Laws/Boot.lean ====
section
/-!
SUPPORT. What the conditions of a boot program give (spec/70_reset_and_hazards.md R230, R233): what a state of power-up
fixes, that spared addresses raise no debug exception, and that a prepared TLB hits nothing.
-/
namespace Sys2Proof.Machine

/-- What a state of power-up fixes (R230). -/
theorem atPowerUp_iff (s : State) : atPowerUp s = true ↔
    s.pc = 0xbfc00000#32 ∧ s.npc = 0xbfc00004#32 ∧ s.regs[0] = 0#32 ∧ s.ds = false ∧ s.cp0.um = false ∧
      s.cp0.ie = false ∧ s.storeLog = [] := by
  simp [atPowerUp, and_assoc]

/-- The debug exception is due exactly where the watch registers do not spare the pc (R189; R233, item 2). -/
theorem watchHit_iff (s : State) : s.watchHit = true ↔ watchSpares s s.pc = false := by
  simp only [State.watchHit, watchSpares, Bool.or_eq_true, decide_eq_true_eq, Bool.and_eq_false_iff, bne_eq_false_iff_eq]

/-- Time changes no watch register. -/
@[simp] theorem watchSpares_passTime (s : State) (pc : Word) : watchSpares s.passTime pc = watchSpares s pc := rfl

/-- With distinct vpns a lookup matches at most one entry (R65; R233, item 4). -/
theorem tlbMatches_of_distinct {s : State} (h : distinctVpns s = true) (va : Word) :
    tlbMatches s va = [] ∨ ∃ i : Fin 16, s.tlb[i].vpn = va.extractLsb' 13 19 ∧ tlbMatches s va = [s.tlb[i]] := by
  have hd : ∀ i j : Fin 16, s.tlb[i].vpn = s.tlb[j].vpn → i = j := of_decide_eq_true h
  by_cases hm : ∃ i : Fin 16, s.tlb[i].vpn = va.extractLsb' 13 19
  · obtain ⟨i, hi⟩ := hm
    exact .inr ⟨i, hi, tlbMatches_one i hi fun j hj => hd j i (hj.trans hi.symm)⟩
  · exact .inl (tlbMatches_nil fun i hi => hm ⟨i, hi⟩)

/-- The vpn of a mapped address is one that lookups present (R58, R82). -/
theorem neverLookedUp_of_mapped {va : Word} (h : linearAddress va = false) :
    neverLookedUp (va.extractLsb' 13 19) = false := by
  have he : (va.extractLsb' 13 19).extractLsb' 17 2 = va.extractLsb' 30 2 := by
    ext k hk
    simp [show 17 + k < 19 by omega, show 13 + (17 + k) = 30 + k by omega]
  simpa [neverLookedUp, linearAddress, he] using h

/-- A mapped lookup in a prepared TLB is a miss (R233, item 4). -/
theorem translateMapped_prepared {s : State} (h : tlbPrepared s = true) {va : Word} (kind : AccessKind)
    (hm : linearAddress va = false) : translateMapped s va kind = .raise (tlbMiss kind va) := by
  obtain ⟨hd, hn⟩ := Bool.and_eq_true_iff.mp h
  rcases tlbMatches_of_distinct hd va with hl | ⟨i, hi, hl⟩
  · simp [translateMapped, hl]
  · have hv : s.tlb[i].valid0 = false ∧ s.tlb[i].valid1 = false := by
      have := of_decide_eq_true hn i
      rw [mapsNothing, hi, neverLookedUp_of_mapped hm] at this
      simpa using this
    rw [translateMapped, hl]
    show translateByEntry s.tlb[i] va kind = _
    generalize s.tlb[i] = e at hv
    unfold translateByEntry
    cases va.getLsbD 12 <;> simp [hv.1, hv.2]

/-- Right after reset the TLB is prepared (log 3). -/
theorem reset_tlbPrepared : tlbPrepared State.reset = true := by decide

end Sys2Proof.Machine
end

