-- ==== Sys2Proof/Laws/Decode.lean ====
section
/-!
SUPPORT. The laws of the word formats: every field of every format, a word put together again from its fields, and the
order of bytes.
-/
namespace Sys2Proof

section Fields

variable (op : BitVec 6) (s t d : Reg) (sa : BitVec 5) (func : BitVec 6) (imm : Imm) (address : BitVec 26)

@[simp] theorem opField_rWord : opField (rWord op s t d sa func) = op := by
  ext i hi
  simp only [opField, rWord, BitVec.getElem_extractLsb', BitVec.getLsbD_append]
  interval_cases i <;> simp

@[simp] theorem sField_rWord : sField (rWord op s t d sa func) = s := by
  ext i hi
  simp only [sField, rWord, BitVec.getElem_extractLsb', BitVec.getLsbD_append]
  interval_cases i <;> simp

@[simp] theorem tField_rWord : tField (rWord op s t d sa func) = t := by
  ext i hi
  simp only [tField, rWord, BitVec.getElem_extractLsb', BitVec.getLsbD_append]
  interval_cases i <;> simp

@[simp] theorem dField_rWord : dField (rWord op s t d sa func) = d := by
  ext i hi
  simp only [dField, rWord, BitVec.getElem_extractLsb', BitVec.getLsbD_append]
  interval_cases i <;> simp

@[simp] theorem saField_rWord : saField (rWord op s t d sa func) = sa := by
  ext i hi
  simp only [saField, rWord, BitVec.getElem_extractLsb', BitVec.getLsbD_append]
  interval_cases i <;> simp

@[simp] theorem funcField_rWord : funcField (rWord op s t d sa func) = func := by
  ext i hi
  simp only [funcField, rWord, BitVec.getElem_extractLsb', BitVec.getLsbD_append]
  interval_cases i <;> simp

@[simp] theorem opField_iWord : opField (iWord op s t imm) = op := by
  ext i hi
  simp only [opField, iWord, BitVec.getElem_extractLsb', BitVec.getLsbD_append]
  interval_cases i <;> simp

@[simp] theorem sField_iWord : sField (iWord op s t imm) = s := by
  ext i hi
  simp only [sField, iWord, BitVec.getElem_extractLsb', BitVec.getLsbD_append]
  interval_cases i <;> simp

@[simp] theorem tField_iWord : tField (iWord op s t imm) = t := by
  ext i hi
  simp only [tField, iWord, BitVec.getElem_extractLsb', BitVec.getLsbD_append]
  interval_cases i <;> simp

@[simp] theorem immField_iWord : immField (iWord op s t imm) = imm := by
  ext i hi
  simp only [immField, iWord, BitVec.getElem_extractLsb', BitVec.getLsbD_append]
  interval_cases i <;> simp

@[simp] theorem opField_jWord : opField (jWord op address) = op := by
  ext i hi
  simp only [opField, jWord, BitVec.getElem_extractLsb', BitVec.getLsbD_append]
  interval_cases i <;> simp

@[simp] theorem addressField_jWord : addressField (jWord op address) = address := by
  ext i hi
  simp only [addressField, jWord, BitVec.getElem_extractLsb', BitVec.getLsbD_append]
  interval_cases i <;> simp

end Fields

/-- A word is put together again from its R-type fields. -/
theorem rWord_fields (w : Word) : rWord (opField w) (sField w) (tField w) (dField w) (saField w) (funcField w) = w := by
  ext i hi
  rw [← BitVec.getLsbD_eq_getElem, ← BitVec.getLsbD_eq_getElem]
  simp only [rWord, opField, sField, tField, dField, saField, funcField, BitVec.getLsbD_append,
    BitVec.getLsbD_extractLsb']
  interval_cases i <;> simp

/-- A word is put together again from its I-type fields. -/
theorem iWord_fields (w : Word) : iWord (opField w) (sField w) (tField w) (immField w) = w := by
  ext i hi
  rw [← BitVec.getLsbD_eq_getElem, ← BitVec.getLsbD_eq_getElem]
  simp only [iWord, opField, sField, tField, immField, BitVec.getLsbD_append, BitVec.getLsbD_extractLsb']
  interval_cases i <;> simp

/-- A word is put together again from its J-type fields. -/
theorem jWord_fields (w : Word) : jWord (opField w) (addressField w) = w := by
  ext i hi
  rw [← BitVec.getLsbD_eq_getElem, ← BitVec.getLsbD_eq_getElem]
  simp only [jWord, opField, addressField, BitVec.getLsbD_append, BitVec.getLsbD_extractLsb']
  interval_cases i <;> simp

/-- A word is put together again from its bytes (R51, R52). -/
theorem wordOfBytes_byteOfWord (w : Word) :
    wordOfBytes (byteOfWord w 0) (byteOfWord w 1) (byteOfWord w 2) (byteOfWord w 3) = w := by
  ext i hi
  rw [← BitVec.getLsbD_eq_getElem, ← BitVec.getLsbD_eq_getElem]
  simp only [wordOfBytes, byteOfWord, BitVec.getLsbD_append, BitVec.getLsbD_extractLsb']
  interval_cases i <;> simp

/-- Everything `decodeWord` can answer: an instruction's own word, a word whose source bits select nothing, or a word
that selects an instruction which is not its own. -/
theorem decodeWord_cases (w : Word) :
    (∃ i, decodeSource w = some i ∧ encode i = w ∧ decodeWord w = .instr i) ∨
      (decodeSource w = none ∧ decodeWord w = .reserved) ∨
      (∃ i, decodeSource w = some i ∧ encode i ≠ w ∧ decodeWord w = .unusedFieldSet) := by
  unfold decodeWord
  split
  · rename_i h; exact .inr (.inl ⟨h, rfl⟩)
  · rename_i i h
    by_cases he : encode i = w
    · exact .inl ⟨i, h, he, by simp [he]⟩
    · exact .inr (.inr ⟨i, h, he, by simp [he, Config.strictUnusedFields]⟩)

/-- Only an instruction's own word decodes to it. -/
theorem encode_of_decodeWord {w : Word} {i : Instr} (h : decodeWord w = .instr i) : encode i = w := by
  rcases decodeWord_cases w with ⟨j, -, he, hd⟩ | ⟨-, hd⟩ | ⟨j, -, -, hd⟩ <;> rw [hd] at h <;> simp at h
  exact h ▸ he

end Sys2Proof
end

