-- ==== Sys2Proof/Laws/Effects.lean ====
section
/-!
SUPPORT. Everything an instruction can do, said once: `exec_effect` sorts every next state of every instruction under
one of the shapes of `Effect`, so that a claim over all instructions needs one case for each shape.
-/
namespace Sys2Proof.Machine

/-- The shapes of the next states of an instruction begun in `s`. -/
inductive Effect (s : State) : State → Prop where
  /-- One general register written. -/
  | reg (r : Reg) (v : Word) : Effect s (s.setReg r v).advancePc
  /-- `hi` and `lo` written. -/
  | hiLo (h l : Word) : Effect s ((s.setHi h).setLo l).advancePc
  /-- A branch or a jump. -/
  | branch (taken : Bool) (target : Word) (hds : s.ds = false) : Effect s (s.branchPc taken target)
  /-- A jump that links. -/
  | link (r : Reg) (v target : Word) (hds : s.ds = false) : Effect s ((s.setReg r v).branchPc true target)
  /-- A byte load that takes the oldest byte from the serial buffer. -/
  | serialPop (b : Byte) (q : List Byte) (r : Reg) (v : Word) (hq : s.serialIn = b :: q) :
      Effect s ((s.setSerialIn q).setReg r v).advancePc
  /-- A byte stored to RAM. -/
  | ramByte (pa : Word) (b : Byte) (hd : deviceAt pa = some .ram) :
      Effect s ((s.setMem (memPut s.mem pa.toNat b)).logStore pa).advancePc
  /-- A word stored to RAM. -/
  | ramWord (pa w : Word) (hd : deviceAt pa = some .ram) (ha : pa.toNat % 4 = 0) :
      Effect s ((s.setMem (memPutWord s.mem pa.toNat w)).logStore pa).advancePc
  /-- A byte stored to the VGA controller. -/
  | vgaByte (pa : Word) (b : Byte) (hd : deviceAt pa = some .vga) : Effect s (writeVgaByte s pa b).advancePc
  /-- A byte sent to the serial output. -/
  | serialSend (b : Byte) : Effect s (s.sendSerial b).advancePc
  /-- An exception taken. -/
  | trap (e : Exn) : Effect s (takeException e s)
  /-- A return from an exception. -/
  | eret (hds : s.ds = false) (hk : s.userMode = false) : Effect s (returnFromException s)
  /-- A CP0 register written. -/
  | mtc0 (r : Cp0Reg) (v : Word) (hk : s.userMode = false) : Effect s (writeCp0 s r v).advancePc
  /-- A TLB entry written. -/
  | tlbwi (hk : s.userMode = false) : Effect s (s.setTlb (tlbIndex s.cp0) (tlbEntryOfCp0 s.cp0)).advancePc

/-- The shape of an instruction that writes one register. -/
theorem effect_writeBack {s s' : State} {r : Reg} {v : Word} (h : writeBack s r v = .next s') : Effect s s' := by
  simp only [writeBack, Host.Outcome.next.injEq] at h
  subst h; exact .reg r v

/-- The shape of a branch or jump without a link. -/
theorem effect_controlTransfer {s s' : State} {taken : Bool} {target : Word}
    (h : controlTransfer s (s.branchPc taken target) = .next s') : Effect s s' := by
  obtain ⟨hds, rfl⟩ := controlTransfer_next h
  exact .branch taken target hds

/-- The shape of a jump with a link. -/
theorem effect_link {s s' : State} {r : Reg} {v target : Word}
    (h : controlTransfer s ((s.setReg r v).branchPc true target) = .next s') : Effect s s' := by
  obtain ⟨hds, rfl⟩ := controlTransfer_next h
  exact .link r v target hds

/-- The shapes of a byte load, whatever it makes of the byte. -/
theorem effect_loadByte {s s' : State} {va : Word} {rt : Reg} {f : Byte → Word}
    (h : finish s ((loadByte s va).bind fun r => .ok ((r.2.setReg rt (f r.1)).advancePc)) = .next s') : Effect s s' := by
  rcases finish_next h with h | ⟨e, _, rfl⟩
  · obtain ⟨⟨b, t⟩, hl, h⟩ := bind_eq_ok.mp h
    simp only [Res.ok.injEq] at h
    subst h
    obtain ⟨pa, -, hp⟩ := loadByte_ok hl
    rcases physReadByte_ok hp with ⟨-, -, rfl⟩ | ⟨-, -, hr⟩ | ⟨-, -, -, rfl⟩
    · exact .reg rt (f b)
    · rcases readSerialData_cases s with ⟨-, h⟩ | ⟨b', q, hq, h⟩ <;> rw [h, Prod.mk.injEq] at hr <;>
        obtain ⟨rfl, rfl⟩ := hr
      · exact .reg rt _
      · exact .serialPop b q rt _ hq
    · exact .reg rt (f b)
  · exact .trap e

/-- The shapes of a word load. -/
theorem effect_loadWord {s s' : State} {va : Word} {rt : Reg}
    (h : finish s ((loadWord s va).bind fun w => .ok ((s.setReg rt w).advancePc)) = .next s') : Effect s s' := by
  rcases finish_next h with h | ⟨e, _, rfl⟩
  · obtain ⟨w, -, h⟩ := bind_eq_ok.mp h
    simp only [Res.ok.injEq] at h
    subst h; exact .reg rt w
  · exact .trap e

/-- The shapes of a byte store. -/
theorem effect_storeByte {s s' : State} {va : Word} {b : Byte}
    (h : finish s ((storeByte s va b).bind fun t => .ok t.advancePc) = .next s') : Effect s s' := by
  rcases finish_next h with h | ⟨e, _, rfl⟩
  · obtain ⟨t, hl, h⟩ := bind_eq_ok.mp h
    simp only [Res.ok.injEq] at h
    subst h
    obtain ⟨pa, -, hp⟩ := storeByte_ok hl
    rcases physWriteByte_ok hp with ⟨hd, ht⟩ | ⟨hd, ht⟩ | ⟨-, -, ht⟩ <;> rw [ht]
    · exact .ramByte pa b hd
    · exact .vgaByte pa b hd
    · exact .serialSend b
  · exact .trap e

/-- The shapes of a word store. -/
theorem effect_storeWord {s s' : State} {va w : Word}
    (h : finish s ((storeWord s va w).bind fun t => .ok t.advancePc) = .next s') : Effect s s' := by
  rcases finish_next h with h | ⟨e, _, rfl⟩
  · obtain ⟨t, hl, h⟩ := bind_eq_ok.mp h
    simp only [Res.ok.injEq] at h
    subst h
    obtain ⟨ha, pa, ht, hp⟩ := storeWord_ok hl
    obtain ⟨hd, rfl⟩ := physWriteWord_ok hp
    exact .ramWord pa w hd (translate_aligned ht ha)
  · exact .trap e

/-- The shapes of a read or write of CP0 that answers `t r` for a named register `r`. -/
theorem privileged_cp0_next {s s' : State} {d : Reg} {t : Cp0Reg → State}
    (h : privileged s (match cp0RegOfNumber d with
      | some r => .ok (t r)
      | none => .refuse .cp0NumberUnnamed) = .next s') :
    (s.userMode = true ∧ s' = takeException .ri s) ∨
      (s.userMode = false ∧ ∃ r, cp0RegOfNumber d = some r ∧ s' = t r) := by
  rcases privileged_next h with h | ⟨hu, h⟩
  · exact .inl h
  · refine .inr ⟨hu, ?_⟩
    split at h
    · rename_i r hr; exact ⟨r, hr, by simpa [eq_comm] using h⟩
    · simp at h

/-- Everything an instruction can do when it answers a next state. -/
theorem exec_effect {i : Instr} {s s' : State} (h : exec i s = .next s') : Effect s s' := by
  cases i with
  | mult rs rt => simp only [exec, execMult, Host.Outcome.next.injEq] at h; subst h; exact .hiLo _ _
  | mtlo rs => simp only [exec, execMtlo, Host.Outcome.next.injEq] at h; subst h; exact Effect.hiLo (s := s) s.hi (s.reg rs)
  | mthi rs => simp only [exec, execMthi, Host.Outcome.next.injEq] at h; subst h; exact Effect.hiLo (s := s) (s.reg rs) s.lo
  | beq _ _ _ => exact effect_controlTransfer h
  | bne _ _ _ => exact effect_controlTransfer h
  | bgez _ _ => exact effect_controlTransfer h
  | bgtz _ _ => exact effect_controlTransfer h
  | blez _ _ => exact effect_controlTransfer h
  | bltz _ _ => exact effect_controlTransfer h
  | j _ => exact effect_controlTransfer h
  | jr _ => exact effect_controlTransfer h
  | jal _ => exact effect_link h
  | jalr _ _ => exact effect_link h
  | lw _ _ _ => exact effect_loadWord h
  | sw _ _ _ => exact effect_storeWord h
  | lb _ _ _ => exact effect_loadByte h
  | lbu _ _ _ => exact effect_loadByte h
  | sb _ _ _ => exact effect_storeByte h
  | syscall =>
    simp only [exec, execSyscall, finish_raise, Host.Outcome.next.injEq] at h; subst h; exact .trap .sys
  | eret =>
    simp only [exec, execEret] at h
    split at h
    · simp at h
    · split at h
      · simp at h
      · rename_i hds hk
        simp only [Host.Outcome.next.injEq] at h
        subst h; exact .eret (by simpa using hds) (by simpa using hk)
  | mfc0 t d =>
    rcases privileged_cp0_next h with ⟨-, rfl⟩ | ⟨-, r, -, rfl⟩
    · exact .trap .ri
    · exact .reg t _
  | mtc0 t d =>
    rcases privileged_cp0_next h with ⟨-, rfl⟩ | ⟨hk, r, -, rfl⟩
    · exact .trap .ri
    · exact .mtc0 r _ hk
  | tlbwi =>
    rcases privileged_next h with ⟨-, rfl⟩ | ⟨hk, h | ⟨e, h, -⟩⟩
    · exact .trap .ri
    · simp only [Res.ok.injEq] at h; subst h; exact .tlbwi hk
    · simp at h
  | _ => exact effect_writeBack h

/-! ### The step -/

/-- The events of a step, in their order (R194). -/
inductive StepCase (s s' : State) : Prop where
  /-- An interrupt is taken. -/
  | interrupt (hi : s.passTime.interruptDue = true) (h : s' = takeException .int s.passTime)
  /-- The debug exception is taken. -/
  | watch (hi : s.passTime.interruptDue = false) (hw : s.passTime.watchHit = true)
      (h : s' = takeException .debug s.passTime)
  /-- The fetch raises. -/
  | fetchRaise (hi : s.passTime.interruptDue = false) (hw : s.passTime.watchHit = false) (e : Exn)
      (hf : fetch s.passTime = .raise e) (h : s' = takeException e s.passTime)
  /-- The word is illegal. -/
  | reserved (hi : s.passTime.interruptDue = false) (hw : s.passTime.watchHit = false) (w : Word)
      (hf : fetch s.passTime = .ok w) (hd : decodeWord w = .reserved) (h : s' = takeException .ri s.passTime.beginInsn)
  /-- The instruction runs. -/
  | run (hi : s.passTime.interruptDue = false) (hw : s.passTime.watchHit = false) (w : Word) (i : Instr)
      (hf : fetch s.passTime = .ok w) (hd : decodeWord w = .instr i) (h : exec i s.passTime.beginInsn = .next s')

/-- Everything a step can do when it answers a next state. -/
theorem step_cases {s s' : State} (h : step s = .next s') : StepCase s s' := by
  unfold step stepAt at h
  split at h
  · rename_i hi
    exact .interrupt hi (by simpa using h.symm)
  · rename_i hi
    have hi : s.passTime.interruptDue = false := by simpa using hi
    split at h
    · rename_i hw
      exact .watch hi hw (by simpa using h.symm)
    · rename_i hw
      have hw : s.passTime.watchHit = false := by simpa using hw
      split at h
      · rename_i w hf
        unfold runWord at h
        split at h
        · rename_i i hd; exact .run hi hw w i hf hd h
        · rename_i hd; exact .reserved hi hw w hf hd (by simpa using h.symm)
        · simp at h
      · rename_i e hf; exact .fetchRaise hi hw e hf (by simpa using h.symm)
      · simp at h
      · simp at h

/-- The step of an instruction that is fetched and decoded. -/
theorem step_run {s : State} {w : Word} {i : Instr} (hi : s.passTime.interruptDue = false)
    (hw : s.passTime.watchHit = false) (hf : fetch s.passTime = .ok w) (hd : decodeWord w = .instr i) :
    step s = exec i s.passTime.beginInsn := by
  simp [step, stepAt, runWord, hi, hw, hf, hd]

end Sys2Proof.Machine
end

