-- ==== Sys2Proof/Laws/PerInstr.lean ====
section
/-!
SUPPORT. The family of laws that is proved instruction by instruction: the encoder's word has the fixed bits of the
instruction's row of spec/opcode_table.json, `word and mask = match`.
-/
namespace Sys2Proof.Laws.EncodeMatchesTable

/-- The word of `i` matches the row of `i`. -/
def Statement (i : Sys2Proof.Instr) : Prop :=
  Sys2Proof.encode i &&& (Sys2Proof.opcodeRow i).1 = (Sys2Proof.opcodeRow i).2

/-- An R-type word under a mask, field by field. -/
theorem row_r {op mop : BitVec 6} {s t d sa ms mt md msa : BitVec 5} {func mfunc : BitVec 6} {m v : Sys2Proof.Word}
    (hm : m = Sys2Proof.rWord mop ms mt md msa mfunc)
    (hv : v = Sys2Proof.rWord (op &&& mop) (s &&& ms) (t &&& mt) (d &&& md) (sa &&& msa) (func &&& mfunc)) :
    Sys2Proof.rWord op s t d sa func &&& m = v := by
  subst hm hv
  apply BitVec.eq_of_getLsbD_eq
  intro k hk
  simp only [Sys2Proof.rWord, BitVec.getLsbD_and, BitVec.getLsbD_append]
  repeat' split
  all_goals rfl

/-- An I-type word under a mask, field by field. -/
theorem row_i {op mop : BitVec 6} {s t ms mt : BitVec 5} {imm mimm : BitVec 16} {m v : Sys2Proof.Word}
    (hm : m = Sys2Proof.iWord mop ms mt mimm)
    (hv : v = Sys2Proof.iWord (op &&& mop) (s &&& ms) (t &&& mt) (imm &&& mimm)) :
    Sys2Proof.iWord op s t imm &&& m = v := by
  subst hm hv
  apply BitVec.eq_of_getLsbD_eq
  intro k hk
  simp only [Sys2Proof.iWord, BitVec.getLsbD_and, BitVec.getLsbD_append]
  repeat' split
  all_goals rfl

/-- A J-type word under a mask, field by field. -/
theorem row_j {op mop : BitVec 6} {a ma : BitVec 26} {m v : Sys2Proof.Word}
    (hm : m = Sys2Proof.jWord mop ma) (hv : v = Sys2Proof.jWord (op &&& mop) (a &&& ma)) :
    Sys2Proof.jWord op a &&& m = v := by
  subst hm hv
  apply BitVec.eq_of_getLsbD_eq
  intro k hk
  simp only [Sys2Proof.jWord, BitVec.getLsbD_and, BitVec.getLsbD_append]
  repeat' split
  all_goals rfl

theorem addu (s t d : Sys2Proof.Reg) : Statement (.addu s t d) :=
  row_r (mop := 0x3f#6) (ms := 0x0#5) (mt := 0x0#5) (md := 0x0#5) (msa := 0x1f#5) (mfunc := 0x3f#6)
    rfl (by simp only [BitVec.and_zero]; rfl)

theorem addiu (s t : Sys2Proof.Reg) (imm : Sys2Proof.Imm) : Statement (.addiu s t imm) :=
  row_i (mop := 0x3f#6) (ms := 0x0#5) (mt := 0x0#5) (mimm := 0x0#16)
    rfl (by simp only [BitVec.and_zero]; rfl)

theorem subu (s t d : Sys2Proof.Reg) : Statement (.subu s t d) :=
  row_r (mop := 0x3f#6) (ms := 0x0#5) (mt := 0x0#5) (md := 0x0#5) (msa := 0x1f#5) (mfunc := 0x3f#6)
    rfl (by simp only [BitVec.and_zero]; rfl)

theorem slt (s t d : Sys2Proof.Reg) : Statement (.slt s t d) :=
  row_r (mop := 0x3f#6) (ms := 0x0#5) (mt := 0x0#5) (md := 0x0#5) (msa := 0x1f#5) (mfunc := 0x3f#6)
    rfl (by simp only [BitVec.and_zero]; rfl)

theorem slti (s t : Sys2Proof.Reg) (imm : Sys2Proof.Imm) : Statement (.slti s t imm) :=
  row_i (mop := 0x3f#6) (ms := 0x0#5) (mt := 0x0#5) (mimm := 0x0#16)
    rfl (by simp only [BitVec.and_zero]; rfl)

theorem sltu (s t d : Sys2Proof.Reg) : Statement (.sltu s t d) :=
  row_r (mop := 0x3f#6) (ms := 0x0#5) (mt := 0x0#5) (md := 0x0#5) (msa := 0x1f#5) (mfunc := 0x3f#6)
    rfl (by simp only [BitVec.and_zero]; rfl)

theorem sltiu (s t : Sys2Proof.Reg) (imm : Sys2Proof.Imm) : Statement (.sltiu s t imm) :=
  row_i (mop := 0x3f#6) (ms := 0x0#5) (mt := 0x0#5) (mimm := 0x0#16)
    rfl (by simp only [BitVec.and_zero]; rfl)

theorem mult (s t : Sys2Proof.Reg) : Statement (.mult s t) :=
  row_r (mop := 0x3f#6) (ms := 0x0#5) (mt := 0x0#5) (md := 0x1f#5) (msa := 0x1f#5) (mfunc := 0x3f#6)
    rfl (by simp only [BitVec.and_zero]; rfl)

theorem mflo (d : Sys2Proof.Reg) : Statement (.mflo d) :=
  row_r (mop := 0x3f#6) (ms := 0x1f#5) (mt := 0x1f#5) (md := 0x0#5) (msa := 0x1f#5) (mfunc := 0x3f#6)
    rfl (by simp only [BitVec.and_zero]; rfl)

theorem mtlo (s : Sys2Proof.Reg) : Statement (.mtlo s) :=
  row_r (mop := 0x3f#6) (ms := 0x0#5) (mt := 0x1f#5) (md := 0x1f#5) (msa := 0x1f#5) (mfunc := 0x3f#6)
    rfl (by simp only [BitVec.and_zero]; rfl)

theorem mfhi (d : Sys2Proof.Reg) : Statement (.mfhi d) :=
  row_r (mop := 0x3f#6) (ms := 0x1f#5) (mt := 0x1f#5) (md := 0x0#5) (msa := 0x1f#5) (mfunc := 0x3f#6)
    rfl (by simp only [BitVec.and_zero]; rfl)

theorem mthi (s : Sys2Proof.Reg) : Statement (.mthi s) :=
  row_r (mop := 0x3f#6) (ms := 0x0#5) (mt := 0x1f#5) (md := 0x1f#5) (msa := 0x1f#5) (mfunc := 0x3f#6)
    rfl (by simp only [BitVec.and_zero]; rfl)

theorem and (s t d : Sys2Proof.Reg) : Statement (.and s t d) :=
  row_r (mop := 0x3f#6) (ms := 0x0#5) (mt := 0x0#5) (md := 0x0#5) (msa := 0x1f#5) (mfunc := 0x3f#6)
    rfl (by simp only [BitVec.and_zero]; rfl)

theorem andi (s t : Sys2Proof.Reg) (imm : Sys2Proof.Imm) : Statement (.andi s t imm) :=
  row_i (mop := 0x3f#6) (ms := 0x0#5) (mt := 0x0#5) (mimm := 0x0#16)
    rfl (by simp only [BitVec.and_zero]; rfl)

theorem lui (t : Sys2Proof.Reg) (imm : Sys2Proof.Imm) : Statement (.lui t imm) :=
  row_i (mop := 0x3f#6) (ms := 0x1f#5) (mt := 0x0#5) (mimm := 0x0#16)
    rfl (by simp only [BitVec.and_zero]; rfl)

theorem nor (s t d : Sys2Proof.Reg) : Statement (.nor s t d) :=
  row_r (mop := 0x3f#6) (ms := 0x0#5) (mt := 0x0#5) (md := 0x0#5) (msa := 0x1f#5) (mfunc := 0x3f#6)
    rfl (by simp only [BitVec.and_zero]; rfl)

theorem or (s t d : Sys2Proof.Reg) : Statement (.or s t d) :=
  row_r (mop := 0x3f#6) (ms := 0x0#5) (mt := 0x0#5) (md := 0x0#5) (msa := 0x1f#5) (mfunc := 0x3f#6)
    rfl (by simp only [BitVec.and_zero]; rfl)

theorem ori (s t : Sys2Proof.Reg) (imm : Sys2Proof.Imm) : Statement (.ori s t imm) :=
  row_i (mop := 0x3f#6) (ms := 0x0#5) (mt := 0x0#5) (mimm := 0x0#16)
    rfl (by simp only [BitVec.and_zero]; rfl)

theorem xor (s t d : Sys2Proof.Reg) : Statement (.xor s t d) :=
  row_r (mop := 0x3f#6) (ms := 0x0#5) (mt := 0x0#5) (md := 0x0#5) (msa := 0x1f#5) (mfunc := 0x3f#6)
    rfl (by simp only [BitVec.and_zero]; rfl)

theorem xori (s t : Sys2Proof.Reg) (imm : Sys2Proof.Imm) : Statement (.xori s t imm) :=
  row_i (mop := 0x3f#6) (ms := 0x0#5) (mt := 0x0#5) (mimm := 0x0#16)
    rfl (by simp only [BitVec.and_zero]; rfl)

theorem sll (t d : Sys2Proof.Reg) (sa : BitVec 5) : Statement (.sll t d sa) :=
  row_r (mop := 0x3f#6) (ms := 0x1f#5) (mt := 0x0#5) (md := 0x0#5) (msa := 0x0#5) (mfunc := 0x3f#6)
    rfl (by simp only [BitVec.and_zero]; rfl)

theorem sllv (s t d : Sys2Proof.Reg) : Statement (.sllv s t d) :=
  row_r (mop := 0x3f#6) (ms := 0x0#5) (mt := 0x0#5) (md := 0x0#5) (msa := 0x1f#5) (mfunc := 0x3f#6)
    rfl (by simp only [BitVec.and_zero]; rfl)

theorem sra (t d : Sys2Proof.Reg) (sa : BitVec 5) : Statement (.sra t d sa) :=
  row_r (mop := 0x3f#6) (ms := 0x1f#5) (mt := 0x0#5) (md := 0x0#5) (msa := 0x0#5) (mfunc := 0x3f#6)
    rfl (by simp only [BitVec.and_zero]; rfl)

theorem srav (s t d : Sys2Proof.Reg) : Statement (.srav s t d) :=
  row_r (mop := 0x3f#6) (ms := 0x0#5) (mt := 0x0#5) (md := 0x0#5) (msa := 0x1f#5) (mfunc := 0x3f#6)
    rfl (by simp only [BitVec.and_zero]; rfl)

theorem srl (t d : Sys2Proof.Reg) (sa : BitVec 5) : Statement (.srl t d sa) :=
  row_r (mop := 0x3f#6) (ms := 0x1f#5) (mt := 0x0#5) (md := 0x0#5) (msa := 0x0#5) (mfunc := 0x3f#6)
    rfl (by simp only [BitVec.and_zero]; rfl)

theorem srlv (s t d : Sys2Proof.Reg) : Statement (.srlv s t d) :=
  row_r (mop := 0x3f#6) (ms := 0x0#5) (mt := 0x0#5) (md := 0x0#5) (msa := 0x1f#5) (mfunc := 0x3f#6)
    rfl (by simp only [BitVec.and_zero]; rfl)

theorem beq (s t : Sys2Proof.Reg) (imm : Sys2Proof.Imm) : Statement (.beq s t imm) :=
  row_i (mop := 0x3f#6) (ms := 0x0#5) (mt := 0x0#5) (mimm := 0x0#16)
    rfl (by simp only [BitVec.and_zero]; rfl)

theorem bne (s t : Sys2Proof.Reg) (imm : Sys2Proof.Imm) : Statement (.bne s t imm) :=
  row_i (mop := 0x3f#6) (ms := 0x0#5) (mt := 0x0#5) (mimm := 0x0#16)
    rfl (by simp only [BitVec.and_zero]; rfl)

theorem bgez (s : Sys2Proof.Reg) (imm : Sys2Proof.Imm) : Statement (.bgez s imm) :=
  row_i (mop := 0x3f#6) (ms := 0x0#5) (mt := 0x1f#5) (mimm := 0x0#16)
    rfl (by simp only [BitVec.and_zero]; rfl)

theorem bgtz (s : Sys2Proof.Reg) (imm : Sys2Proof.Imm) : Statement (.bgtz s imm) :=
  row_i (mop := 0x3f#6) (ms := 0x0#5) (mt := 0x1f#5) (mimm := 0x0#16)
    rfl (by simp only [BitVec.and_zero]; rfl)

theorem blez (s : Sys2Proof.Reg) (imm : Sys2Proof.Imm) : Statement (.blez s imm) :=
  row_i (mop := 0x3f#6) (ms := 0x0#5) (mt := 0x1f#5) (mimm := 0x0#16)
    rfl (by simp only [BitVec.and_zero]; rfl)

theorem bltz (s : Sys2Proof.Reg) (imm : Sys2Proof.Imm) : Statement (.bltz s imm) :=
  row_i (mop := 0x3f#6) (ms := 0x0#5) (mt := 0x1f#5) (mimm := 0x0#16)
    rfl (by simp only [BitVec.and_zero]; rfl)

theorem j (address : BitVec 26) : Statement (.j address) :=
  row_j (mop := 0x3f#6) (ma := 0x0#26)
    rfl (by simp only [BitVec.and_zero]; rfl)

theorem jal (address : BitVec 26) : Statement (.jal address) :=
  row_j (mop := 0x3f#6) (ma := 0x0#26)
    rfl (by simp only [BitVec.and_zero]; rfl)

theorem jr (s : Sys2Proof.Reg) : Statement (.jr s) :=
  row_r (mop := 0x3f#6) (ms := 0x0#5) (mt := 0x1f#5) (md := 0x1f#5) (msa := 0x1f#5) (mfunc := 0x3f#6)
    rfl (by simp only [BitVec.and_zero]; rfl)

theorem jalr (s d : Sys2Proof.Reg) : Statement (.jalr s d) :=
  row_r (mop := 0x3f#6) (ms := 0x0#5) (mt := 0x1f#5) (md := 0x0#5) (msa := 0x1f#5) (mfunc := 0x3f#6)
    rfl (by simp only [BitVec.and_zero]; rfl)

theorem lw (s t : Sys2Proof.Reg) (imm : Sys2Proof.Imm) : Statement (.lw s t imm) :=
  row_i (mop := 0x3f#6) (ms := 0x0#5) (mt := 0x0#5) (mimm := 0x0#16)
    rfl (by simp only [BitVec.and_zero]; rfl)

theorem sw (s t : Sys2Proof.Reg) (imm : Sys2Proof.Imm) : Statement (.sw s t imm) :=
  row_i (mop := 0x3f#6) (ms := 0x0#5) (mt := 0x0#5) (mimm := 0x0#16)
    rfl (by simp only [BitVec.and_zero]; rfl)

theorem lb (s t : Sys2Proof.Reg) (imm : Sys2Proof.Imm) : Statement (.lb s t imm) :=
  row_i (mop := 0x3f#6) (ms := 0x0#5) (mt := 0x0#5) (mimm := 0x0#16)
    rfl (by simp only [BitVec.and_zero]; rfl)

theorem lbu (s t : Sys2Proof.Reg) (imm : Sys2Proof.Imm) : Statement (.lbu s t imm) :=
  row_i (mop := 0x3f#6) (ms := 0x0#5) (mt := 0x0#5) (mimm := 0x0#16)
    rfl (by simp only [BitVec.and_zero]; rfl)

theorem sb (s t : Sys2Proof.Reg) (imm : Sys2Proof.Imm) : Statement (.sb s t imm) :=
  row_i (mop := 0x3f#6) (ms := 0x0#5) (mt := 0x0#5) (mimm := 0x0#16)
    rfl (by simp only [BitVec.and_zero]; rfl)

theorem syscall : Statement .syscall := rfl

theorem eret : Statement .eret := rfl

theorem mfc0 (t d : Sys2Proof.Reg) : Statement (.mfc0 t d) :=
  row_r (mop := 0x3f#6) (ms := 0x1f#5) (mt := 0x0#5) (md := 0x0#5) (msa := 0x1f#5) (mfunc := 0x3f#6)
    rfl (by simp only [BitVec.and_zero]; rfl)

theorem mtc0 (t d : Sys2Proof.Reg) : Statement (.mtc0 t d) :=
  row_r (mop := 0x3f#6) (ms := 0x1f#5) (mt := 0x0#5) (md := 0x0#5) (msa := 0x1f#5) (mfunc := 0x3f#6)
    rfl (by simp only [BitVec.and_zero]; rfl)

theorem tlbwi : Statement .tlbwi := rfl

end Sys2Proof.Laws.EncodeMatchesTable
end

