-- ==== Sys2Proof/Tests/Slice0.lean ====
section
/-!
SUPPORT. The model's own tests. The words and the values come from spec/95_test_vectors.md, whose row each test names
(section 2: A, B, S, M, T, W, X, E, P), or from the example of the cited rule; the witnesses at the end show, for every
statement of Sys2Proof/Certificates/Slice0/Obligations.lean that has hypotheses, a state and operands that meet them.
-/
namespace Sys2Proof.Tests
open Sys2Proof.Machine

/-! ### Well-formed instructions -/

/-- Register number 1 of coprocessor 0 does not exist (R33). -/
theorem test_wf_mfc0_refused : Instr.wellFormed (.mfc0 2 1) = false := by decide
/-- Register number 31 of coprocessor 0 does not exist (R33). -/
theorem test_wf_mtc0_refused : Instr.wellFormed (.mtc0 2 31) = false := by decide
/-- jalr with one register as target and link (R150, R153). -/
theorem test_wf_jalr_refused : Instr.wellFormed (.jalr 1 1) = false := by decide
/-- The same forms with legal operands. -/
theorem test_wf_accepted : Instr.wellFormed (.mfc0 2 12) = true ∧ Instr.wellFormed (.mtc0 2 19) = true ∧
    Instr.wellFormed (.jalr 1 31) = true ∧ Instr.wellFormed (.jalr 0 0) = true := by decide

/-! ### Decoding -/

/-- Row A1. -/
theorem test_decode_addu : decodeWord 0x00221821 = .instr (.addu 1 2 3) := by decide
/-- Row A5. -/
theorem test_decode_addiu : decodeWord 0x2422ffff = .instr (.addiu 1 2 0xffff) := by decide
/-- Row A8. -/
theorem test_decode_subu : decodeWord 0x00221823 = .instr (.subu 1 2 3) := by decide
/-- Row A10. -/
theorem test_decode_slt : decodeWord 0x0022182a = .instr (.slt 1 2 3) := by decide
/-- Row A13. -/
theorem test_decode_slti : decodeWord 0x2822ffff = .instr (.slti 1 2 0xffff) := by decide
/-- Row A15. -/
theorem test_decode_sltu : decodeWord 0x0022182b = .instr (.sltu 1 2 3) := by decide
/-- Row A19. -/
theorem test_decode_sltiu : decodeWord 0x2c220001 = .instr (.sltiu 1 2 1) := by decide
/-- Row A20. -/
theorem test_decode_mult : decodeWord 0x00220018 = .instr (.mult 1 2) := by decide
/-- Row A24. -/
theorem test_decode_mflo : decodeWord 0x00001812 = .instr (.mflo 3) := by decide
/-- Row A26. -/
theorem test_decode_mtlo : decodeWord 0x00200013 = .instr (.mtlo 1) := by decide
/-- Row A25. -/
theorem test_decode_mfhi : decodeWord 0x00001810 = .instr (.mfhi 3) := by decide
/-- Row A27. -/
theorem test_decode_mthi : decodeWord 0x00200011 = .instr (.mthi 1) := by decide
/-- Row A28. -/
theorem test_decode_and : decodeWord 0x00221824 = .instr (.and 1 2 3) := by decide
/-- Row A29. -/
theorem test_decode_andi : decodeWord 0x3022ffff = .instr (.andi 1 2 0xffff) := by decide
/-- Row A30. -/
theorem test_decode_lui : decodeWord 0x3c02ffff = .instr (.lui 2 0xffff) := by decide
/-- Row A32. -/
theorem test_decode_nor : decodeWord 0x00201827 = .instr (.nor 1 0 3) := by decide
/-- Row A34. -/
theorem test_decode_or : decodeWord 0x00201825 = .instr (.or 1 0 3) := by decide
/-- Row A35. -/
theorem test_decode_ori : decodeWord 0x3422ffff = .instr (.ori 1 2 0xffff) := by decide
/-- Row A36. -/
theorem test_decode_xor : decodeWord 0x00211826 = .instr (.xor 1 1 3) := by decide
/-- Row A37. -/
theorem test_decode_xori : decodeWord 0x38228000 = .instr (.xori 1 2 0x8000) := by decide
/-- Row A39. -/
theorem test_decode_sll : decodeWord 0x00021fc0 = .instr (.sll 2 3 31) := by decide
/-- Row A41. -/
theorem test_decode_sllv : decodeWord 0x00221804 = .instr (.sllv 1 2 3) := by decide
/-- Row A43. -/
theorem test_decode_sra : decodeWord 0x00021fc3 = .instr (.sra 2 3 31) := by decide
/-- Row A45. -/
theorem test_decode_srav : decodeWord 0x00221807 = .instr (.srav 1 2 3) := by decide
/-- Row A46. -/
theorem test_decode_srl : decodeWord 0x00021fc2 = .instr (.srl 2 3 31) := by decide
/-- Row A48. -/
theorem test_decode_srlv : decodeWord 0x00221806 = .instr (.srlv 1 2 3) := by decide
/-- Row B1. -/
theorem test_decode_beq : decodeWord 0x10220003 = .instr (.beq 1 2 3) := by decide
/-- Row B6. -/
theorem test_decode_bne : decodeWord 0x1422fffe = .instr (.bne 1 2 0xfffe) := by decide
/-- Row B8. -/
theorem test_decode_bgez : decodeWord 0x04210004 = .instr (.bgez 1 4) := by decide
/-- Row B10. -/
theorem test_decode_bgtz : decodeWord 0x1c200004 = .instr (.bgtz 1 4) := by decide
/-- Row B12. -/
theorem test_decode_blez : decodeWord 0x18200004 = .instr (.blez 1 4) := by decide
/-- Row B14. -/
theorem test_decode_bltz : decodeWord 0x0420ffff = .instr (.bltz 1 0xffff) := by decide
/-- Row B16. -/
theorem test_decode_j : decodeWord 0x08000400 = .instr (.j 0x400) := by decide
/-- Row B19. -/
theorem test_decode_jal : decodeWord 0x0c000400 = .instr (.jal 0x400) := by decide
/-- Row B20. -/
theorem test_decode_jr : decodeWord 0x00200008 = .instr (.jr 1) := by decide
/-- Row B22. -/
theorem test_decode_jalr : decodeWord 0x0020f809 = .instr (.jalr 1 31) := by decide
/-- Row M2. -/
theorem test_decode_lw : decodeWord 0x8c22fffc = .instr (.lw 1 2 0xfffc) := by decide
/-- Row M12. -/
theorem test_decode_sw : decodeWord 0xac220002 = .instr (.sw 1 2 2) := by decide
/-- Row M7. -/
theorem test_decode_lb : decodeWord 0x8022ffff = .instr (.lb 1 2 0xffff) := by decide
/-- Row M9. -/
theorem test_decode_lbu : decodeWord 0x90220000 = .instr (.lbu 1 2 0) := by decide
/-- Row M14. -/
theorem test_decode_sb : decodeWord 0xa0220003 = .instr (.sb 1 2 3) := by decide
/-- Row T1. -/
theorem test_decode_syscall : decodeWord 0x0000000c = .instr (.syscall) := by decide
/-- Row T5. -/
theorem test_decode_eret : decodeWord 0x42000018 = .instr (.eret) := by decide
/-- Row T9. -/
theorem test_decode_mfc0 : decodeWord 0x40026000 = .instr (.mfc0 2 12) := by decide
/-- Row T15. -/
theorem test_decode_mtc0 : decodeWord 0x40825800 = .instr (.mtc0 2 11) := by decide
/-- Row T19. -/
theorem test_decode_tlbwi : decodeWord 0x42000002 = .instr (.tlbwi) := by decide
/-- Rows W1, W2, W7, W9, W11: illegal words. -/
theorem test_decode_illegal : decodeWord 0xffffffff = .reserved ∧ decodeWord 0x00221820 = .reserved ∧
    decodeWord 0x04110004 = .reserved ∧ decodeWord 0x42000006 = .reserved ∧ decodeWord 0x40420000 = .reserved := by
  decide
/-- Rows W13 to W16: a non-zero unused field. -/
theorem test_decode_unused_field : decodeWord 0x00221861 = .unusedFieldSet ∧ decodeWord 0x0000004c = .unusedFieldSet ∧
    decodeWord 0x40026001 = .unusedFieldSet ∧ decodeWord 0x3c220001 = .unusedFieldSet := by decide

/-! ### Steps -/

/-- The start of the vectors: kernel mode at 0x80000100, `ebase` 0x80000000, the word placed where the step fetches. -/
def start (w : Word) : State :=
  placeFetchWord { State.reset with
    pc := 0x80000100, npc := 0x80000104, cp0 := { resetCp0 with ebase := 0x80000000 } } w

/-- `start` with x[1] and x[2]. -/
def start2 (w a b : Word) : State := ((start w).setReg 1 a).setReg 2 b

/-- The TLB entry MAP3 of the vectors. -/
def map3 : TlbEntry :=
  { vpn := 0x00200, ppn0 := 0x00100, valid0 := true, write0 := true, ppn1 := 0x00101, valid1 := true, write1 := false }

/-- User mode at 0x00400010 with MAP3 in TLB[3]. -/
def startUser (w : Word) : State :=
  placeFetchWord ({ State.reset with
    pc := 0x00400010, npc := 0x00400014,
    cp0 := { resetCp0 with ebase := 0x80000000, status := 0x10 } }.setTlb 3 map3) w

/-- What the step leaves, seen through `f`. -/
def after {α : Type} (f : State → α) (s : State) : Option α :=
  match step s with
  | .next t => some (f t)
  | .fault _ => none
  | .refused _ => none

/-- What the step leaves once time has passed, with all lines down. -/
def afterAt {α : Type} (f : State → α) (s : State) : Option α :=
  match stepAt s with
  | .next t => some (f t)
  | .fault _ => none
  | .refused _ => none

/-- The program counter and the registers that trap entry writes. -/
def trapRegs (s : State) : List Word := [s.pc, s.cp0.epc, s.cp0.cause, s.cp0.status, s.cp0.badaddr]

/-- The three parts of the program counter. -/
def pcs (s : State) : Word × Word × Bool := (s.pc, s.npc, s.ds)

/-- A word of RAM. -/
def ramWord (a : Nat) (s : State) : Word := memGetWord s.mem a

/-- `s` with a word in memory. -/
def withWord (a : Nat) (w : Word) (s : State) : State := s.setMem (memPutWord s.mem a w)

/-- Row A1. -/
theorem test_addu_wraps : after (·.reg 3) (start2 0x00221821 0xffffffff 1) = some 0 := by decide
/-- Row A4. -/
theorem test_addu_same_register : after (·.reg 1) (start2 0x00210821 0x80000001 0) = some 2 := by decide
/-- Row A5. -/
theorem test_addiu_sign_extends : after (·.reg 2) (start2 0x2422ffff 0 7) = some 0xffffffff := by decide
/-- Row A6. -/
theorem test_addiu_wraps : after (·.reg 2) (start2 0x24227fff 0x7fffffff 7) = some 0x80007ffe := by decide
/-- Row A8. -/
theorem test_subu_borrows : after (·.reg 3) (start2 0x00221823 0 1) = some 0xffffffff := by decide
/-- Row A9. -/
theorem test_subu_overflow_ignored : after (·.reg 3) (start2 0x00221823 0x80000000 1) = some 0x7fffffff := by decide
/-- Row A10. -/
theorem test_slt_signed : after (·.reg 3) (start2 0x0022182a 0x80000000 0x7fffffff) = some 1 := by decide
/-- Row A11. -/
theorem test_slt_no_overflow : after (·.reg 3) (start2 0x0022182a 0x7fffffff 0x80000000) = some 0 := by decide
/-- Row A13. -/
theorem test_slti_negative : after (·.reg 2) (start2 0x2822ffff 0xfffffffe 7) = some 1 := by decide
/-- Row A14. -/
theorem test_slti_equal : after (·.reg 2) (start2 0x28228000 0xffff8000 7) = some 0 := by decide
/-- Row A15. -/
theorem test_sltu_unsigned : after (·.reg 3) (start2 0x0022182b 0x7fffffff 0x80000000) = some 1 := by decide
/-- Row A17. -/
theorem test_sltiu_zero_extends : after (·.reg 2) (start2 0x2c22ffff 0x00010000 7) = some 0 := by decide
/-- Row A18. -/
theorem test_sltiu_less : after (·.reg 2) (start2 0x2c22ffff 0x0000fffe 7) = some 1 := by decide
/-- Row A20. -/
theorem test_mult_signed :
    after (fun t => (t.hi, t.lo)) (start2 0x00220018 0xffffffff 0xffffffff) = some (0, 1) := by decide
/-- Row A22. -/
theorem test_mult_mixed_signs :
    after (fun t => (t.hi, t.lo)) (start2 0x00220018 0x00010000 0xffff0000) = some (0xffffffff, 0) := by decide
/-- Row A24. -/
theorem test_mflo :
    after (·.reg 3) (((start2 0x00001812 0x13572468 0).setHi 0xaaaa0000).setLo 0x0000bbbb) =
      some 0x0000bbbb := by decide
/-- Row A25. -/
theorem test_mfhi :
    after (·.reg 3) (((start2 0x00001810 0x13572468 0).setHi 0xaaaa0000).setLo 0x0000bbbb) =
      some 0xaaaa0000 := by decide
/-- Row A26. -/
theorem test_mtlo :
    after (fun t => (t.hi, t.lo)) (((start2 0x00200013 0x13572468 0).setHi 0xaaaa0000).setLo 0x0000bbbb) =
      some (0xaaaa0000, 0x13572468) := by decide
/-- Row A27. -/
theorem test_mthi :
    after (fun t => (t.hi, t.lo)) (((start2 0x00200011 0x13572468 0).setHi 0xaaaa0000).setLo 0x0000bbbb) =
      some (0x13572468, 0x0000bbbb) := by decide
/-- Row A28. -/
theorem test_and : after (·.reg 3) (start2 0x00221824 0xffff0000 0x00ffff00) = some 0x00ff0000 := by decide
/-- Row A29. -/
theorem test_andi_clears_upper_half : after (·.reg 2) (start2 0x3022ffff 0xabcd1234 7) = some 0x00001234 := by decide
/-- Row A30. -/
theorem test_lui : after (·.reg 2) (start2 0x3c02ffff 0 0x12345678) = some 0xffff0000 := by decide
/-- Row A32. -/
theorem test_nor : after (·.reg 3) (start2 0x00201827 0x0f0f0f0f 0) = some 0xf0f0f0f0 := by decide
/-- Row A34. -/
theorem test_or : after (·.reg 3) (start2 0x00201825 0xcafef00d 0) = some 0xcafef00d := by decide
/-- Row A35. -/
theorem test_ori_keeps_upper_half : after (·.reg 2) (start2 0x3422ffff 0xabcd0000 7) = some 0xabcdffff := by decide
/-- Row A36. -/
theorem test_xor_self : after (·.reg 3) (start2 0x00211826 0x5a5a5a5a 0) = some 0 := by decide
/-- Row A37. -/
theorem test_xori : after (·.reg 2) (start2 0x38228000 0x00008000 7) = some 0 := by decide
/-- Row A39. -/
theorem test_sll : after (·.reg 3) (start2 0x00021fc0 0 3) = some 0x80000000 := by decide
/-- Row A41. -/
theorem test_sllv_low_five_bits : after (·.reg 3) (start2 0x00221804 0x21 1) = some 2 := by decide
/-- Row A42. -/
theorem test_sllv_by_thirty_two : after (·.reg 3) (start2 0x00221804 0x20 1) = some 1 := by decide
/-- Row A43. -/
theorem test_sra_sign : after (·.reg 3) (start2 0x00021fc3 0 0x80000000) = some 0xffffffff := by decide
/-- Row A44. -/
theorem test_sra_positive : after (·.reg 3) (start2 0x00021fc3 0 0x7fffffff) = some 0 := by decide
/-- Row A45. -/
theorem test_srav : after (·.reg 3) (start2 0x00221807 0xffffffe4 0xf0000000) = some 0xff000000 := by decide
/-- Row A46. -/
theorem test_srl : after (·.reg 3) (start2 0x00021fc2 0 0x80000000) = some 1 := by decide
/-- Row A48. -/
theorem test_srlv : after (·.reg 3) (start2 0x00221806 8 0xff000000) = some 0x00ff0000 := by decide
/-- Row B1. -/
theorem test_beq_taken : after pcs (start2 0x10220003 5 5) = some (0x80000104, 0x80000110, true) := by decide
/-- Row B2. -/
theorem test_beq_not_taken : after pcs (start2 0x10220003 5 6) = some (0x80000104, 0x80000108, true) := by decide
/-- Row B6. -/
theorem test_bne_backwards : after pcs (start2 0x1422fffe 1 2) = some (0x80000104, 0x800000fc, true) := by decide
/-- Row B7. -/
theorem test_bne_not_taken : after pcs (start2 0x1421fffe 1 0) = some (0x80000104, 0x80000108, true) := by decide
/-- Row B8. -/
theorem test_bgez_zero : after pcs (start2 0x04210004 0 0) = some (0x80000104, 0x80000114, true) := by decide
/-- Row B9. -/
theorem test_bgez_negative :
    after pcs (start2 0x04210004 0x80000000 0) = some (0x80000104, 0x80000108, true) := by decide
/-- Row B10. -/
theorem test_bgtz_zero : after pcs (start2 0x1c200004 0 0) = some (0x80000104, 0x80000108, true) := by decide
/-- Row B11. -/
theorem test_bgtz_positive :
    after pcs (start2 0x1c200004 0x7fffffff 0) = some (0x80000104, 0x80000114, true) := by decide
/-- Row B12. -/
theorem test_blez_zero : after pcs (start2 0x18200004 0 0) = some (0x80000104, 0x80000114, true) := by decide
/-- Row B13. -/
theorem test_blez_positive : after pcs (start2 0x18200004 1 0) = some (0x80000104, 0x80000108, true) := by decide
/-- Row B14. -/
theorem test_bltz_negative :
    after pcs (start2 0x0420ffff 0xffffffff 0) = some (0x80000104, 0x80000100, true) := by decide
/-- Row B15. -/
theorem test_bltz_zero : after pcs (start2 0x0420ffff 0 0) = some (0x80000104, 0x80000108, true) := by decide
/-- Row B16. -/
theorem test_j : after pcs (start2 0x08000400 0 0) = some (0x80000104, 0x80001000, true) := by decide
/-- Row B17. -/
theorem test_j_all_ones : after pcs (start2 0x0bffffff 0 0) = some (0x80000104, 0x8ffffffc, true) := by decide
/-- Row B19. -/
theorem test_jal : after (fun t => (t.npc, t.reg 31)) (start 0x0c000400) = some (0x80001000, 0x80000108) := by decide
/-- Row B21. -/
theorem test_jr_misaligned :
    after pcs (start2 0x00200008 0x80000102 0) = some (0x80000104, 0x80000102, true) := by decide
/-- Row B23. -/
theorem test_jalr_same_register :
    after (fun t => (t.npc, t.reg 1)) (start2 0x00200809 0x80002000 0) = some (0x80002000, 0x80000108) := by decide
/-- Row B24. -/
theorem test_jalr_no_link :
    after pcs (start2 0x00200009 0x80002000 0) = some (0x80000104, 0x80002000, true) := by decide
/-- Row S1. -/
theorem test_delay_slot :
    after pcs { start 0x24420001 with npc := 0x80000200, ds := true } =
      some (0x80000200, 0x80000204, false) := by decide
/-- Row M2. -/
theorem test_lw_negative_offset :
    after (·.reg 2) (withWord 0xffc 0x01020304 (start2 0x8c22fffc 0x80001000 0)) = some 0x01020304 := by decide
/-- Row M4. -/
theorem test_lw_misaligned :
    afterAt trapRegs (start2 0x8c220001 0x80001000 0) = some [0x80000180, 0x80000100, 0x10, 2, 0x80001001] := by decide
/-- Row M6. -/
theorem test_lb_negative :
    after (·.reg 2) (withWord 0x1000 0x80ff7f00 (start2 0x80220000 0x80001003 0)) = some 0xffffff80 := by decide
/-- Row M8. -/
theorem test_lb_positive :
    after (·.reg 2) (withWord 0x1000 0x80ff7f00 (start2 0x8022fffe 0x80001003 0)) = some 0x7f := by decide
/-- Row M9. -/
theorem test_lbu :
    after (·.reg 2) (withWord 0x1000 0x80ff7f00 (start2 0x90220000 0x80001003 0)) = some 0x80 := by decide
/-- Row M11. -/
theorem test_sw :
    after (ramWord 0x1000) (withWord 0x1000 0xffffffff (start2 0xac220000 0x80001000 0x11223344)) =
      some 0x11223344 := by decide
/-- Row X4. -/
theorem test_sw_read_only_page :
    afterAt trapRegs ((start2 0xac220000 0x00401000 0x13579bdf).setTlb 3 map3) =
      some [0x80000180, 0x80000100, 0x14, 2, 0x00401000] := by decide
/-- Row M13. -/
theorem test_sb_byte_zero :
    after (ramWord 0x1000) (withWord 0x1000 0x11223344 (start2 0xa0220000 0x80001000 0x123456aa)) =
      some 0x112233aa := by decide
/-- Row M14. -/
theorem test_sb_byte_three :
    after (ramWord 0x1000) (withWord 0x1000 0x11223344 (start2 0xa0220003 0x80001000 0x123456aa)) =
      some 0xaa223344 := by decide
/-- Row T1. -/
theorem test_syscall : afterAt trapRegs (start 0x0000000c) = some [0x80000180, 0x80000100, 0x20, 2, 0] := by decide
/-- Row T2, with the slot at 0x80000100. -/
theorem test_syscall_in_delay_slot :
    afterAt trapRegs { start 0x0000000c with npc := 0x80000200, ds := true } =
      some [0x80000180, 0x800000fc, 0x80000020, 2, 0] := by decide
/-- Row T5. -/
theorem test_eret :
    after (fun t => (pcs t, t.cp0.status)) ((start 0x42000018).setCp0 { resetCp0 with status := 0x8013, epc := 0x00400014 }) =
      some ((0x00400014, 0x00400018, false), 0x8011) := by decide
/-- Row T10. -/
theorem test_mfc0_ebase : after (·.reg 2) (start 0x40027800) = some 0x80000000 := by decide
/-- Row T13. -/
theorem test_mfc0_user_mode :
    afterAt trapRegs (startUser 0x40026000) = some [0x80000180, 0x00400010, 0x28, 0x12, 0] := by decide
/-- Row T14. -/
theorem test_mtc0_status : after (·.cp0.status) (start2 0x40826000 0 0x00009001) = some 0x00009001 := by decide
/-- Row T15. -/
theorem test_mtc0_compare : after (·.cp0.compare) (start2 0x40825800 0 0x00010000) = some 0x00010000 := by decide
/-- Row T19. -/
theorem test_tlbwi :
    after (fun t => (t.tlb[3], t.tlb[2])) ((start 0x42000002).setCp0 { resetCp0 with index := 3, entryhi := 0x00400000, entrylo0 := 0x4006, entrylo1 := 0x4042 }) =
      some (map3, resetTlbEntry 0x40002) := by decide
/-- Row T21. -/
theorem test_tlbwi_user_mode :
    afterAt trapRegs (startUser 0x42000002) = some [0x80000180, 0x00400010, 0x28, 0x12, 0] := by decide
/-- Row W1. -/
theorem test_illegal_word :
    afterAt trapRegs (start 0xffffffff) = some [0x80000180, 0x80000100, 0x28, 2, 0] := by decide
/-- Row E1. -/
theorem test_fetch_misaligned :
    afterAt trapRegs { start 0 with pc := 0x80000302 } =
      some [0x80000180, 0x80000302, 0x10, 2, 0x80000302] := by decide
/-- Row E9, with the slot at 0x00400010. -/
theorem test_interrupt_in_delay_slot :
    afterAt trapRegs { (startUser 0).setCp0 { resetCp0 with ebase := 0x80000000, status := 0x9011 } with irq := 0x90, ds := true } =
      some [0x80000180, 0x0040000c, 0x80009000, 0x9013, 0] := by decide
/-- Row E12. -/
theorem test_debug :
    afterAt trapRegs ((start 0x24020001).setCp0 { resetCp0 with ebase := 0x80000000, watchlo := 0x80000100 }) =
      some [0x80000180, 0x80000100, 0x5c, 2, 0] := by decide
/-- Rows X6, X2, X13. -/
theorem test_translation :
    afterAt trapRegs ((start2 0x8c220000 0x00402000 0).setTlb 3 map3) = some [0x80000000, 0x80000100, 8, 2, 0x00402000] ∧
    after (·.reg 2) ((withWord 0x101ff0 0x00ddba11 (start2 0x8c220ff0 0x00401000 0)).setTlb 3 map3) = some 0x00ddba11 ∧
    afterAt trapRegs ((startUser 0x8c220000).setReg 1 0x80001000) = some [0x80000180, 0x00400010, 0x10, 0x12, 0x80001000] := by decide
/-- Rows P5, P8, P2, P13, P10. -/
theorem test_devices :
    after (fun t => (t.reg 2, t.serialIn)) ((start2 0x90220000 0xbfd003f8 0).setSerialIn [0x68, 0x69]) = some (0x68, [0x69]) ∧
    after (·.serialOut) (start2 0xa0220000 0xbfd003f8 0x321) = some [0x21] ∧
    after (·.byteAt 0x1000095f) (start2 0xa022095f 0x90000000 0x7a) = some 0x7a ∧
    after (·.reg 2) (withWord 0x1e000004 0xabcd (start2 0x8c220004 0xbe000000 0)) = some 0xabcd ∧
    after (·.reg 2) (withWord 0x1fc00004 0x3c1a8000 (start2 0x8c220004 0xbfc00000 0)) = some 0x3c1a8000 := by decide
/-- Row P12. -/
theorem test_rom_write_refused : step (start2 0xac220000 0xbfc00000 0) = .refused .romWrite := rfl
/-- Row X12. -/
theorem test_no_device : step (start2 0x8c220000 0x80400000 0) = .fault (.noDevice 0x00400000) := rfl
/-- Row T12. -/
theorem test_mfc0_unnamed : step (start 0x40020800) = .refused .cp0NumberUnnamed := rfl
/-- An instruction placed where the machine fetches runs as the first step after reset (R230). -/
theorem test_first_step : after (·.reg 2) (State.reset.withFetchWord 32 0x2402002a) = some 42 := by decide
/-- An illegal word counts as an instruction executed, as a legal one does (R81, R101). -/
theorem test_illegal_word_counts : after (·.insns) (start 0xffffffff) = some 1 ∧ after (·.insns) (start 0) = some 1 := by
  decide
/-- Right after reset the watch registers hold no address that can be executed (R189; R233, item 2; log 2). -/
theorem test_reset_watch : State.reset.cp0.watchlo.toNat % 4 ≠ 0 ∧ State.reset.cp0.watchhi.toNat % 4 ≠ 0 := by decide

/-! ### Witnesses: the hypotheses of the statements can be met -/

/-- The three premises of a step that fetches `w`. -/
def Fetches (s : State) (w : Word) : Prop :=
  s.passTime.interruptDue = false ∧ s.passTime.watchHit = false ∧ fetch s.passTime = .ok w

/-- The machine after reset, at another address. -/
def resetAt (pc : Word) : State := { State.reset with pc := pc }

/-- Kernel mode with four CP0 registers for tlbwi: the entry MAP3 into TLB[3]. -/
def beforeTlbwi (entrylo0 : Word) : State :=
  State.reset.setCp0 { resetCp0 with index := 3, entryhi := 0x00400000, entrylo0 := entrylo0, entrylo1 := 0x4042 }

theorem witness_IllegalWordsRaiseReserved :
    Fetches (start 0xffffffff) 0xffffffff ∧ decodeWord 0xffffffff = .reserved := ⟨⟨rfl, rfl, rfl⟩, by decide⟩

theorem witness_UnusedFieldsRefused :
    Fetches (start 0x0000004c) 0x0000004c ∧ decodeWord 0x0000004c = .unusedFieldSet ∧
      4#6 ∈ [4#6, 6#6, 7#6, 33#6, 35#6, 36#6, 37#6, 38#6, 39#6, 42#6, 43#6] ∧ 0#6 ∈ [0#6, 2#6, 3#6] ∧
      16#6 ∈ [16#6, 18#6] ∧ 19#6 ∈ [17#6, 19#6] ∧ 4#5 ∈ [0#5, 4#5] ∧ 31#5 ≠ 0#5 ∧ 63#6 ≠ 0#6 :=
  ⟨⟨rfl, rfl, rfl⟩, by decide⟩

theorem witness_StepRunsDecodedInstruction :
    Fetches (start 0x00221821) 0x00221821 ∧ decodeWord 0x00221821 = .instr (.addu 1 2 3) :=
  ⟨⟨rfl, rfl, rfl⟩, by decide⟩

/-- The last word of RAM, of ROM and of Flash, and a RAM word inside the window, whatever its length. -/
theorem witness_FetchReadsWord :
    ((0x803ffffc : Word).toNat % 4 = 0 ∧ translateAddr (resetAt 0x803ffffc) 0x803ffffc .fetch = .ok 0x003ffffc ∧
      deviceAt 0x003ffffc = some .ram ∧ storedWithinWindow (resetAt 0x803ffffc) 0x003ffffc = false) ∧
    ((0xbfc001fc : Word).toNat % 4 = 0 ∧ translateAddr (resetAt 0xbfc001fc) 0xbfc001fc .fetch = .ok 0x1fc001fc ∧
      deviceAt 0x1fc001fc = some .rom ∧ storedWithinWindow (resetAt 0xbfc001fc) 0x1fc001fc = false) ∧
    ((0xbefffffc : Word).toNat % 4 = 0 ∧ translateAddr (resetAt 0xbefffffc) 0xbefffffc .fetch = .ok 0x1efffffc ∧
      deviceAt 0x1efffffc = some .flash ∧ storedWithinWindow (resetAt 0xbefffffc) 0x1efffffc = false) ∧
    storedWithinWindow { resetAt 0x803ffffc with storeLog := [(0xfffff, 1)] } 0x003ffffc = true :=
  ⟨by decide, by decide, by decide, decide_eq_true (Nat.le_add_right 1 _)⟩

/-- Kernel mode with line 4 enabled and a byte about to arrive. -/
def arriving : State :=
  { State.reset.setCp0 { resetCp0 with status := 0x1001 } with arrivals := [some 0x41] }

/-- The right side of the equivalence occurs. -/
theorem witness_InterruptTakenIffDue :
    arriving.cp0.status.getLsbD 0 = true ∧ arriving.cp0.status.getLsbD 1 = false ∧
      arriving.passTime.irq &&& arriving.cp0.status.extractLsb' 8 8 ≠ 0#8 := by
  refine ⟨rfl, rfl, fun h => ?_⟩
  have up : arriving.passTime.irq.getLsbD 4 = true := by
    rw [passTime_irq, irqLines_four]
    show (receiveByte 0 [] 0x41).2 = true
    rw [receiveByte, if_pos (show ([] : List Byte).length < Config.serialBufCapacity from serialBufCapacity_pos)]
  have low := congrArg (fun v => v.getLsbD 4) h
  rw [BitVec.getLsbD_and, up] at low
  exact absurd low (by decide)

theorem witness_DebugTakenIffWatched :
    let s := State.reset.setCp0 { resetCp0 with watchhi := 0xbfc00000 }
    s.passTime.interruptDue = false ∧ s.pc = s.cp0.watchhi := ⟨rfl, rfl⟩

/-- A misaligned pc; a kernel pc in user mode; a mapped pc without an entry; one with an entry whose page is not
valid. -/
theorem witness_FetchExceptions :
    (Fetches (start 0) 0 ∧ (resetAt 0x80000001).passTime.watchHit = false ∧
      (resetAt 0x80000001).passTime.interruptDue = false ∧ (0x80000001 : Word).toNat % 4 ≠ 0) ∧
    (let s := (resetAt 0x80000000).setCp0 { resetCp0 with status := 0x10 }
     s.passTime.watchHit = false ∧ s.passTime.interruptDue = false ∧ s.pc.toNat % 4 = 0 ∧ s.userMode = true ∧
       s.pc.getLsbD 31 = true) ∧
    (let s := resetAt 0xc0000000
     s.passTime.watchHit = false ∧ s.passTime.interruptDue = false ∧ s.pc.toNat % 4 = 0 ∧ s.userMode = false ∧
       s.pc.extractLsb' 30 2 ≠ 0b10#2 ∧ ∀ i : Fin 16, s.tlb[i].vpn ≠ s.pc.extractLsb' 13 19) ∧
    (let s := (resetAt 0x00400ffc).setTlb 3 { map3 with valid0 := false }
     s.passTime.watchHit = false ∧ s.passTime.interruptDue = false ∧ s.pc.toNat % 4 = 0 ∧ s.userMode = false ∧
       s.pc.extractLsb' 30 2 ≠ 0b10#2 ∧ s.tlb[(3 : Fin 16)].vpn = s.pc.extractLsb' 13 19 ∧
       (∀ j : Fin 16, s.tlb[j].vpn = s.pc.extractLsb' 13 19 → j = 3) ∧
       (if s.pc.getLsbD 12 then s.tlb[(3 : Fin 16)].valid1 else s.tlb[(3 : Fin 16)].valid0) = false) :=
  ⟨⟨⟨rfl, rfl, rfl⟩, by decide⟩, by decide, by decide, by decide⟩

/-- A byte that arrives at an empty and at a full buffer; a step without one. -/
theorem witness_SerialArrival :
    ({ State.reset with arrivals := [some 0x41] }.arrivals = some 0x41 :: [] ∧
      State.reset.serialIn.length < Config.serialBufCapacity) ∧
    Config.serialBufCapacity ≤ (List.replicate Config.serialBufCapacity (0 : Byte)).length ∧
    State.reset.arrivals.head? = none ∧ { State.reset with arrivals := [none] }.arrivals.head? = some none :=
  ⟨⟨rfl, serialBufCapacity_pos⟩, by simp, rfl, rfl⟩

theorem witness_EretReturns : State.reset.ds = false ∧ State.reset.userMode = false := by decide

theorem witness_PrivilegedInUserModeReserved :
    (startUser 0).cp0.status.getLsbD 4 = true ∧ (startUser 0).cp0.status.getLsbD 1 = false := by decide

/-- Every register has its number. -/
theorem witness_Mfc0ReadsRegister :
    State.reset.userMode = false ∧ cp0RegOfNumber 0 = some .index ∧ cp0RegOfNumber 2 = some .entrylo0 ∧
      cp0RegOfNumber 3 = some .entrylo1 ∧ cp0RegOfNumber 8 = some .badaddr ∧ cp0RegOfNumber 9 = some .count ∧
      cp0RegOfNumber 10 = some .entryhi ∧ cp0RegOfNumber 11 = some .compare ∧ cp0RegOfNumber 12 = some .status ∧
      cp0RegOfNumber 13 = some .cause ∧ cp0RegOfNumber 14 = some .epc ∧ cp0RegOfNumber 15 = some .ebase ∧
      cp0RegOfNumber 18 = some .watchlo ∧ cp0RegOfNumber 19 = some .watchhi := by decide

theorem witness_Mtc0WritesRegister :
    State.reset.userMode = false ∧ cp0RegOfNumber 0 = some .index ∧ cp0RegOfNumber 11 = some .compare ∧
      Cp0Reg.index ≠ .compare := by decide

theorem witness_TlbwiWritesEntry : (startUser 0).userMode = true ∧ State.reset.userMode = false := by decide

theorem witness_PrivilegedStops :
    { State.reset with ds := true }.ds = true ∧ ((startUser 0).ds = false ∧ (startUser 0).userMode = true) ∧
      (State.reset.userMode = false ∧ cp0RegOfNumber 31 = none ∧ cp0RegOfNumber 1 = none) := by decide

theorem witness_LinearTranslation :
    State.reset.userMode = false ∧ 0x80000000 ≤ (0x80000000 : Word).toNat ∧ (0xbfffffff : Word).toNat ≤ 0xbfffffff ∧
      translateAddr State.reset 0x80000000 .load = .ok 0 ∧ translateAddr State.reset 0x9fffffff .load = .ok 0x1fffffff ∧
      translateAddr State.reset 0xa0000000 .store = .ok 0 ∧
      translateAddr State.reset 0xbfffffff .fetch = .ok 0x1fffffff := by decide

/-- A kernel address in user mode; a linear one; a mapped one with no entry, and with one at the end of its pages. -/
theorem witness_TranslateOutcomes :
    ((startUser 0).userMode = true ∧ (0x80000000 : Word).getLsbD 31 = true) ∧
    (State.reset.userMode = false ∧ (0xbfffffff : Word).extractLsb' 30 2 = 0b10#2) ∧
    ((0xc0000000 : Word).extractLsb' 30 2 ≠ 0b10#2 ∧
      ∀ i : Fin 16, State.reset.tlb[i].vpn ≠ (0xc0000000 : Word).extractLsb' 13 19) ∧
    (let s := State.reset.setTlb 3 map3
     s.tlb[(3 : Fin 16)].vpn = (0x00401fff : Word).extractLsb' 13 19 ∧
       ∀ j : Fin 16, s.tlb[j].vpn = (0x00401fff : Word).extractLsb' 13 19 → j = 3) := by decide

/-- A page that may be written; one that may be read alone; one that is not valid. -/
theorem witness_TlbwiThenTranslate :
    ((beforeTlbwi 0x4006).userMode = false ∧
      (∃ s', exec .tlbwi (beforeTlbwi 0x4006) = .next s') ∧
      (0x00400000 : Word).extractLsb' 13 19 = (beforeTlbwi 0x4006).cp0.entryhi.extractLsb' 13 19 ∧
      (0x00401fff : Word).extractLsb' 13 19 = (beforeTlbwi 0x4006).cp0.entryhi.extractLsb' 13 19 ∧
      (0x00400000 : Word).extractLsb' 30 2 ≠ 0b10#2 ∧
      ∀ j : Fin 16, (beforeTlbwi 0x4006).tlb[j].vpn = (0x00400000 : Word).extractLsb' 13 19 →
        j = ((beforeTlbwi 0x4006).cp0.index.extractLsb' 0 4).toFin) ∧
    ((beforeTlbwi 0x4006).cp0.entrylo0.getLsbD 1 = true ∧ (beforeTlbwi 0x4006).cp0.entrylo0.getLsbD 2 = true) ∧
    ((beforeTlbwi 0x4006).cp0.entrylo1.getLsbD 1 = true ∧ (beforeTlbwi 0x4006).cp0.entrylo1.getLsbD 2 = false) ∧
    (beforeTlbwi 0).cp0.entrylo0.getLsbD 1 = false :=
  ⟨⟨by decide, ⟨_, rfl⟩, by decide⟩, by decide⟩

/-- A misaligned address; one that raises; the last word of RAM, of ROM and of Flash. -/
theorem witness_LoadWord :
    (0x80001002 : Word).toNat % 4 ≠ 0 ∧
    ((0xc0000000 : Word).toNat % 4 = 0 ∧ translateAddr State.reset 0xc0000000 .load = .raise (.tlbl 0xc0000000)) ∧
    (translateAddr State.reset 0x803ffffc .load = .ok 0x003ffffc ∧ deviceAt 0x003ffffc = some .ram) ∧
    (translateAddr State.reset 0xbfc001fc .load = .ok 0x1fc001fc ∧ deviceAt 0x1fc001fc = some .rom) ∧
    (translateAddr State.reset 0xbefffffc .load = .ok 0x1efffffc ∧ deviceAt 0x1efffffc = some .flash) := by decide

theorem witness_LoadByte :
    loadByte State.reset 0xffffffff = .raise (.tlbl 0xffffffff) ∧
    loadByte (start 0x41) 0x80000100 = .ok (0x41, start 0x41) ∧
    translateAddr State.reset 0xffffffff .load = .raise (.tlbl 0xffffffff) ∧
    (translateAddr State.reset 0x803fffff .load = .ok 0x003fffff ∧ deviceAt 0x003fffff = some .ram) := by decide

/-- The address that a store computes: misaligned; aligned with a page that raises; the last word of RAM. -/
theorem witness_StoreWord :
    Memory.wf (start2 0 0x80400000 0).mem = true ∧
    (effectiveAddress ((start2 0 0x80400000 0).reg 1) 0xfffe).toNat % 4 ≠ 0 ∧
    ((effectiveAddress ((start2 0 0x00401000 0).reg 1) 0).toNat % 4 = 0 ∧
      translateAddr ((start2 0 0x00401000 0).setTlb 3 map3) 0x00401000 .store = .raise (.ades 0x00401000)) ∧
    (effectiveAddress ((start2 0 0x80400000 0).reg 1) 0xfffc = 0x803ffffc ∧ (0x803ffffc : Word).toNat % 4 = 0 ∧
      translateAddr (start2 0 0x80400000 0) 0x803ffffc .store = .ok 0x003ffffc ∧
      deviceAt 0x003ffffc = some .ram) := by decide

theorem witness_StoreByte :
    Memory.wf (start2 0 0x80400000 0).mem = true ∧
    storeByte (start2 0 0 0) (effectiveAddress ((start2 0 0 0).reg 1) 0xffff) 0 = .raise (.tlbs 0xffffffff) ∧
    storeByte (start2 0 0x80400000 0) (effectiveAddress ((start2 0 0x80400000 0).reg 1) 0xffff) 0 =
      .ok ((start2 0 0x80400000 0).logStore 0x003fffff) ∧
    translateAddr (start2 0 0 0) (effectiveAddress ((start2 0 0 0).reg 1) 0xffff) .store =
      .raise (.tlbs 0xffffffff) ∧
    (effectiveAddress ((start2 0 0x80400000 0).reg 1) 0xffff = 0x803fffff ∧
      translateAddr (start2 0 0x80400000 0) 0x803fffff .store = .ok 0x003fffff ∧
      deviceAt 0x003fffff = some .ram) := by decide

theorem witness_LittleEndianStores :
    Memory.wf State.reset.mem = true ∧ (0x803ffffc : Word).toNat % 4 = 0 ∧ 3 < 4 ∧
      translateAddr State.reset 0x803ffffc .store = .ok 0x003ffffc ∧ deviceAt 0x003ffffc = some .ram := by decide

theorem witness_SerialDataRead :
    translateAddr (start2 0 0xbfd003f8 0) ((start2 0 0xbfd003f8 0).reg 1 + (0 : Imm).signExtend 32) .load =
      .ok 0x1fd003f8#32 ∧
    ((start2 0 0xbfd003f8 0).setSerialIn [0x68]).serialIn = 0x68 :: [] ∧ (start2 0 0xbfd003f8 0).serialIn = [] := by
  decide

theorem witness_SerialStatusRead :
    translateAddr (start2 0 0xbfd003f8 0) ((start2 0 0xbfd003f8 0).reg 1 + (4 : Imm).signExtend 32) .load =
      .ok 0x1fd003fc#32 := by decide

theorem witness_SerialDataWrite :
    translateAddr (start2 0 0xbfd003f8 0) ((start2 0 0xbfd003f8 0).reg 1 + (0 : Imm).signExtend 32) .store =
      .ok 0x1fd003f8#32 := by decide

/-- The first and the last character cell, the first byte behind them and the last byte of the range. -/
theorem witness_VgaWrite :
    Memory.wf (start2 0 0xb0000000 0).mem = true ∧
    translateAddr (start2 0 0xb0000000 0) (effectiveAddress ((start2 0 0xb0000000 0).reg 1) 0) .store =
      .ok 0x10000000 ∧
    translateAddr (start2 0 0xb0000000 0) (effectiveAddress ((start2 0 0xb0000000 0).reg 1) 0x95f) .store =
      .ok 0x1000095f ∧
    translateAddr (start2 0 0xb0000000 0) (effectiveAddress ((start2 0 0xb0000000 0).reg 1) 0x960) .store =
      .ok 0x10000960 ∧
    translateAddr (start2 0 0xb0000000 0) (effectiveAddress ((start2 0 0xb0000000 0).reg 1) 0xfff) .store =
      .ok 0x10000fff := by decide

/-- The premises of a fetch from `pc` that reaches the physical address `pa` on the device `d`. -/
def FetchReaches (pc pa : Word) (d : Option Device) : Prop :=
  (resetAt pc).passTime.interruptDue = false ∧ (resetAt pc).passTime.watchHit = false ∧ pc.toNat % 4 = 0 ∧
    translateAddr (resetAt pc).passTime pc .fetch = .ok pa ∧
    storedWithinWindow (resetAt pc).passTime pa = false ∧ deviceAt pa = d

/-- A fetch at no device, from VGA, at the serial registers, and at a page that two entries hold. -/
theorem witness_UndescribedAccessesStop_fetch :
    FetchReaches 0x80400000 0x00400000 none ∧ FetchReaches 0xb0000ffc 0x10000ffc (some .vga) ∧
    FetchReaches 0xbfd003f8 0x1fd003f8 (some .serial) ∧ FetchReaches 0xbfd003fc 0x1fd003fc (some .serial) ∧
    (let s := ((resetAt 0x00401ffc).setTlb 3 map3).setTlb 9 map3
     s.passTime.interruptDue = false ∧ s.passTime.watchHit = false ∧ s.pc.toNat % 4 = 0 ∧ s.userMode = false ∧
       s.pc.extractLsb' 30 2 ≠ 0b10#2 ∧ (3 : Fin 16) ≠ 9 ∧ s.tlb[(3 : Fin 16)].vpn = s.pc.extractLsb' 13 19 ∧
       s.tlb[(9 : Fin 16)].vpn = s.pc.extractLsb' 13 19) :=
  ⟨⟨rfl, rfl, rfl, rfl, rfl, rfl⟩, ⟨rfl, rfl, rfl, rfl, rfl, rfl⟩, ⟨rfl, rfl, rfl, rfl, rfl, rfl⟩,
    ⟨rfl, rfl, rfl, rfl, rfl, rfl⟩, by decide⟩

/-- An address of each kind, loaded and stored; two entries that match. -/
theorem witness_UndescribedAccessesStop :
    (translateAddr State.reset 0x80400000 .load = .ok 0x00400000 ∧ deviceAt 0x00400000 = none ∧
      (0x80400000 : Word).toNat % 4 = 0) ∧
    (translateAddr State.reset 0xb0000ffc .load = .ok 0x10000ffc ∧ deviceAt 0x10000ffc = some .vga) ∧
    (translateAddr State.reset 0xbe000000 .load = .ok 0x1e000000 ∧ deviceAt 0x1e000000 = some .flash) ∧
    (translateAddr State.reset 0xbfc00000 .load = .ok 0x1fc00000 ∧ deviceAt 0x1fc00000 = some .rom) ∧
    (translateAddr State.reset 0xbfd003ff .load = .ok 0x1fd003ff ∧ deviceAt 0x1fd003ff = some .serial) ∧
    (translateAddr State.reset 0xbfd003fc .store = .ok 0x1fd003fc ∧ deviceAt 0x1fd003fc = some .serial ∧
      (0xbfd003fc : Word).toNat % 4 = 0) ∧
    (translateAddr State.reset 0xbfd003f9 .store = .ok 0x1fd003f9 ∧ deviceAt 0x1fd003f9 = some .serial) ∧
    (translateAddr State.reset 0x9fffffff .store = .ok 0x1fffffff ∧ deviceAt 0x1fffffff = none) ∧
    (translateAddr State.reset 0xb0000000 .store = .ok 0x10000000 ∧ deviceAt 0x10000000 = some .vga) ∧
    (translateAddr State.reset 0xbefffffc .store = .ok 0x1efffffc ∧ deviceAt 0x1efffffc = some .flash) ∧
    (translateAddr State.reset 0xbfc001fc .store = .ok 0x1fc001fc ∧ deviceAt 0x1fc001fc = some .rom) ∧
    (let s := (State.reset.setTlb 3 map3).setTlb 9 map3
     s.userMode = false ∧ (0x00401ffc : Word).extractLsb' 30 2 ≠ 0b10#2 ∧ (0x00401ffc : Word).toNat % 4 = 0 ∧
       (3 : Fin 16) ≠ 9 ∧ s.tlb[(3 : Fin 16)].vpn = (0x00401ffc : Word).extractLsb' 13 19 ∧
       s.tlb[(9 : Fin 16)].vpn = (0x00401ffc : Word).extractLsb' 13 19) := by decide

/-- Each of the six branches, taken or not, with `$0` as operand. -/
theorem witness_ConditionalBranches :
    (start 0).ds = false ∧ (True ↔ (start 0).reg 0 = (start 0).reg 0) ∧
      (False ↔ (start 0).reg 0 ≠ (start 0).reg 0) ∧ (True ↔ 0 ≤ ((start 0).reg 0).toInt) ∧
      (False ↔ 0 < ((start 0).reg 0).toInt) ∧ (True ↔ ((start 0).reg 0).toInt ≤ 0) ∧
      (False ↔ ((start 0).reg 0).toInt < 0) := by decide

theorem witness_JumpsWithoutLink : (start 0).ds = false := by decide

theorem witness_JumpsWithLink : (start 0).ds = false := by decide

theorem witness_ControlInDelaySlotRefused :
    isControl (.j 0x3ffffff) = true ∧ isControl (.jalr 1 1) = true ∧ isControl (.beq 0 0 0x8000) = true ∧
      { start 0 with ds := true }.ds = true := by decide

/-- A delay slot that runs, and one that holds an illegal word. -/
theorem witness_DelaySlotThenTarget :
    (isControl (.j 0x400) = true ∧ (start 0x08000400).npc = (start 0x08000400).pc + 4#32) ∧
    (∃ s1 s2, exec (.j 0x400) (start 0x08000400) = .next s1 ∧ step s1 = .next s2) ∧
    (∃ s1 s2, exec (.j 0x400) (withWord 0x104 0xffffffff (start 0x08000400)) = .next s1 ∧ step s1 = .next s2 ∧
      s2.ds = false ∧ s2.pc = 0x80000180) :=
  ⟨by decide, ⟨_, _, rfl, rfl⟩, ⟨_, _, rfl, rfl, rfl, rfl⟩⟩

/-- A jump that links, executed again with the link it wrote. -/
theorem witness_BranchCanBeRestarted :
    isControl (.jalr 1 31) = true ∧ Instr.wellFormed (.jalr 1 31) = true ∧
    ∃ s1, exec (.jalr 1 31) (start2 0 0x80002000 0) = .next s1 ∧
      ∃ t : State, SameRegs s1 t ∧ t.pc = (start2 0 0x80002000 0).pc ∧ t.npc = (start2 0 0x80002000 0).npc ∧
        t.ds = false :=
  ⟨rfl, rfl, _, rfl, { (start2 0 0x80002000 0).setReg 31 0x80000108 with ds := false }, fun _ => rfl, rfl, rfl, rfl⟩

theorem witness_SequentialAdvance :
    isControl (.addu 1 2 3) = false ∧ isControl .syscall = false ∧ Instr.syscall ≠ .eret ∧
    (∃ s', exec (.addu 1 2 3) (start 0) = .next s') ∧ (∃ s', exec .syscall (start 0) = .next s') :=
  ⟨rfl, rfl, by decide, ⟨_, rfl⟩, ⟨_, rfl⟩⟩

/-- A pc at a boundary; a state of power-up other than reset that spares it; a prepared TLB with an entry in use; a
kernel about to enter user mode. -/
theorem witness_ResetState :
    (0xbfc00000 : Word).toNat % 4 = 0 ∧
    (let s := (State.reset.setReg 5 7).setCp0 { resetCp0 with status := 0xff02, watchlo := 0xbfc00004 }
     atPowerUp s = true ∧ watchSpares s 0xbfc00000 = true) ∧
    (let s := (State.reset.setTlb 3 { map3 with valid0 := false, valid1 := false }).setTlb 4 { map3 with vpn := 0x5ffff }
     tlbPrepared s = true ∧ s.userMode = false ∧ (0x00401fff : Word).extractLsb' 30 2 ≠ 0b10#2) ∧
    (let s := State.reset.setCp0 { resetCp0 with status := 0x13, epc := 0x00400000 }
     s.ds = false ∧ s.cp0.status.getLsbD 4 = true ∧ s.cp0.status.getLsbD 1 = true) := by decide

theorem witness_StepKeepsInvariant :
    Invariant (start 0x0c000400) ∧ ∃ s', step (start 0x0c000400) = .next s' :=
  ⟨⟨by decide, by decide, by decide, by decide, Nat.zero_le _, by decide, by decide, by decide⟩, _, rfl⟩

/-- A step that stays in user mode and one that leaves it. -/
theorem witness_UserModeConfined :
    (startUser 0x24020001).userMode = true ∧ (∃ s', step (startUser 0x24020001) = .next s') ∧
      (startUser 0x0000000c).userMode = true ∧ (∃ s', step (startUser 0x0000000c) = .next s') :=
  ⟨rfl, ⟨_, rfl⟩, rfl, ⟨_, rfl⟩⟩

/-- A byte stored by user code in the last byte of a page. -/
theorem witness_UserStoresInWritablePages :
    let s := ((startUser 0xa0220fff).setReg 1 0x00400000).setReg 2 0x41
    s.userMode = true ∧ ∃ s', step s = .next s' ∧ s'.byteAt 0x00100fff ≠ s.byteAt 0x00100fff :=
  ⟨rfl, _, rfl, by decide⟩

theorem witness_OnlyRamAndVgaChange :
    writableByte 0x00400000 = false ∧ writableByte 0x0fffffff = false ∧ writableByte 0x10000960 = false ∧
      writableByte 0x1e000000 = false ∧ writableByte 0x1fc001ff = false ∧
      ∃ s', step (start2 0xac220000 0x80001000 0x11223344) = .next s' :=
  ⟨by decide, by decide, by decide, by decide, by decide, _, rfl⟩

/-- An instruction outside every exception, and the privileged ones in user mode. -/
theorem witness_SoleWriters :
    (∃ s', exec (.sb 1 2 0) (start2 0 0x80001000 0) = .next s') ∧ (startUser 0).userMode = true ∧
      (∃ s', exec (.mtc0 2 12) (startUser 0) = .next s') ∧ (∃ s', exec .tlbwi (startUser 0) = .next s') :=
  ⟨⟨_, rfl⟩, rfl, ⟨_, rfl⟩, ⟨_, rfl⟩⟩

end Sys2Proof.Tests
end

/-!
The registers, the step and the invariant (spec/10_state.md): what one instruction does, told apart by instruction; the
sole writers of the control state; and that every step keeps the invariant, operation by operation.
-/
namespace Sys2Proof.Machine

/-! ### What each instruction does -/

/-- `t` keeps the next pc, CP0, the TLB, `hi` and `lo` of `s`, as data moved between general registers, memory and the
serial controller does. -/
structure DataOnly (s t : State) : Prop where
  npc : t.npc = s.npc
  cp0 : t.cp0 = s.cp0
  tlb : t.tlb = s.tlb
  hi : t.hi = s.hi
  lo : t.lo = s.lo

theorem dataOnly_refl (s : State) : DataOnly s s := ⟨rfl, rfl, rfl, rfl, rfl⟩

theorem dataOnly_setReg {s t : State} (h : DataOnly s t) (r : Reg) (v : Word) : DataOnly s (t.setReg r v) := by
  constructor <;> simp [h.npc, h.cp0, h.tlb, h.hi, h.lo]

theorem dataOnly_writeVgaByte (s : State) (pa : Word) (b : Byte) : DataOnly s (writeVgaByte s pa b) := by
  constructor <;> simp

/-- A byte load changes at most the serial buffer. -/
theorem dataOnly_loadByte {s t : State} {va : Word} {b : Byte} (h : loadByte s va = .ok (b, t)) : DataOnly s t := by
  obtain ⟨pa, -, hp⟩ := loadByte_ok h
  rcases physReadByte_ok hp with ⟨-, -, rfl⟩ | ⟨-, -, hr⟩ | ⟨-, -, -, rfl⟩
  · exact dataOnly_refl _
  · rcases readSerialData_cases s with ⟨-, hs⟩ | ⟨b', q, -, hs⟩ <;> obtain ⟨-, rfl⟩ := Prod.mk.inj (hr.trans hs)
    · exact dataOnly_refl _
    · exact ⟨rfl, rfl, rfl, rfl, rfl⟩
  · exact dataOnly_refl _

/-- A byte store changes at most memory, its log and the serial output. -/
theorem dataOnly_storeByte {s t : State} {va : Word} {b : Byte} (h : storeByte s va b = .ok t) : DataOnly s t := by
  obtain ⟨pa, -, hp⟩ := storeByte_ok h
  rcases physWriteByte_ok hp with ⟨-, rfl⟩ | ⟨-, rfl⟩ | ⟨-, -, rfl⟩
  · exact ⟨rfl, rfl, rfl, rfl, rfl⟩
  · exact dataOnly_writeVgaByte s pa b
  · exact ⟨rfl, rfl, rfl, rfl, rfl⟩

/-- A word store changes at most memory and its log. -/
theorem dataOnly_storeWord {s t : State} {va w : Word} (h : storeWord s va w = .ok t) : DataOnly s t := by
  obtain ⟨-, pa, -, hp⟩ := storeWord_ok h
  obtain ⟨-, rfl⟩ := physWriteWord_ok hp
  exact ⟨rfl, rfl, rfl, rfl, rfl⟩

/-- Everything instruction `i` begun in `s` can do, with the instructions that alone may do it. `Effect` gives the
next state in more detail and forgets the instruction. -/
inductive InstrCase (i : Instr) (s s' : State) : Prop where
  /-- It writes data and goes on. -/
  | data (t : State) (ht : DataOnly s t) (h : s' = t.advancePc)
  /-- It is a branch or jump, which may link. -/
  | control (hc : isControl i = true) (t : State) (ht : DataOnly s t) (taken : Bool) (target : Word)
      (h : s' = t.branchPc taken target)
  /-- It raises an exception of its own, neither an interrupt nor a debug exception. -/
  | trap (e : Exn) (hint : e ≠ .int) (hdebug : e ≠ .debug) (h : s' = takeException e s)
  | eret (hi : i = .eret) (h : s' = returnFromException s)
  | mult (a b : Reg) (hi : i = .mult a b) (v w : Word) (h : s' = ((s.setHi v).setLo w).advancePc)
  | mthi (a : Reg) (hi : i = .mthi a) (v : Word) (h : s' = (s.setHi v).advancePc)
  | mtlo (a : Reg) (hi : i = .mtlo a) (v : Word) (h : s' = (s.setLo v).advancePc)
  | mtc0 (a d : Reg) (hi : i = .mtc0 a d) (hk : s.userMode = false) (r : Cp0Reg) (v : Word)
      (h : s' = (writeCp0 s r v).advancePc)
  | tlbwi (hi : i = .tlbwi) (hk : s.userMode = false) (k : BitVec 4) (e : TlbEntry) (h : s' = (s.setTlb k e).advancePc)

section Shapes

variable {i : Instr} {s s' : State}

theorem instrCase_writeBack {r : Reg} {v : Word} (h : writeBack s r v = .next s') : InstrCase i s s' :=
  .data (s.setReg r v) (dataOnly_setReg (dataOnly_refl s) r v) (by simpa [writeBack] using h.symm)

theorem instrCase_controlTransfer {t : State} {taken : Bool} {target : Word} (hc : isControl i = true)
    (ht : DataOnly s t) (h : controlTransfer s (t.branchPc taken target) = .next s') : InstrCase i s s' :=
  .control hc t ht taken target (controlTransfer_next h).2

/-- An address-related exception is one of the instruction's own. -/
theorem instrCase_accessTrap {e : Exn} {kind : AccessKind} {va : Word}
    (he : e = addressError kind va ∨ e = tlbMiss kind va) (h : s' = takeException e s) : InstrCase i s s' :=
  .trap e (by rcases he with rfl | rfl <;> cases kind <;> simp [addressError, tlbMiss])
    (by rcases he with rfl | rfl <;> cases kind <;> simp [addressError, tlbMiss]) h

/-- A load or store: it goes on from the state its access leaves, or takes the exception its access raises. -/
theorem instrCase_access {α : Type} {r : Res α} {f : α → State} {kind : AccessKind} {va : Word}
    (hraise : ∀ e, r = .raise e → e = addressError kind va ∨ e = tlbMiss kind va)
    (hok : ∀ a, r = .ok a → DataOnly s (f a))
    (h : finish s (r.bind fun a => .ok (f a).advancePc) = .next s') : InstrCase i s s' := by
  rcases finish_next h with h | ⟨e, h, hs'⟩
  · obtain ⟨a, ha, h⟩ := bind_eq_ok.mp h
    exact .data (f a) (hok a ha) (by simpa using h.symm)
  · rcases bind_eq_raise.mp h with he | ⟨a, -, h⟩
    · exact instrCase_accessTrap (hraise e he) hs'
    · simp at h

theorem instrCase_loadByte {va : Word} {rt : Reg} {f : Byte → Word}
    (h : finish s ((loadByte s va).bind fun r => .ok ((r.2.setReg rt (f r.1)).advancePc)) = .next s') :
    InstrCase i s s' :=
  instrCase_access (fun _ => loadByte_raise) (fun _ hl => dataOnly_setReg (dataOnly_loadByte hl) rt _) h

end Shapes

/-- Everything an instruction can do when it answers a next state, told apart by instruction. -/
theorem exec_cases {i : Instr} {s s' : State} (h : exec i s = .next s') : InstrCase i s s' := by
  have hself := dataOnly_refl s
  cases i with
  | mult a b => exact .mult a b rfl _ _ (by simpa [exec, execMult] using h.symm)
  | mthi a => exact .mthi a rfl _ (by simpa [exec, execMthi] using h.symm)
  | mtlo a => exact .mtlo a rfl _ (by simpa [exec, execMtlo] using h.symm)
  | beq _ _ _ => exact instrCase_controlTransfer rfl hself h
  | bne _ _ _ => exact instrCase_controlTransfer rfl hself h
  | bgez _ _ => exact instrCase_controlTransfer rfl hself h
  | bgtz _ _ => exact instrCase_controlTransfer rfl hself h
  | blez _ _ => exact instrCase_controlTransfer rfl hself h
  | bltz _ _ => exact instrCase_controlTransfer rfl hself h
  | j _ => exact instrCase_controlTransfer rfl hself h
  | jr _ => exact instrCase_controlTransfer rfl hself h
  | jal _ => exact instrCase_controlTransfer rfl (dataOnly_setReg hself _ _) h
  | jalr _ _ => exact instrCase_controlTransfer rfl (dataOnly_setReg hself _ _) h
  | lw _ rt _ => exact instrCase_access (fun _ => loadWord_raise) (fun w _ => dataOnly_setReg hself rt w) h
  | sw _ _ _ => exact instrCase_access (fun _ => storeWord_raise) (fun _ => dataOnly_storeWord) h
  | lb _ _ _ => exact instrCase_loadByte h
  | lbu _ _ _ => exact instrCase_loadByte h
  | sb _ _ _ => exact instrCase_access (fun _ => storeByte_raise) (fun _ => dataOnly_storeByte) h
  | syscall => exact .trap .sys (by simp) (by simp) (by simpa [exec, execSyscall] using h.symm)
  | eret =>
    simp only [exec, execEret] at h
    split at h
    · simp at h
    · split at h
      · simp at h
      · exact .eret rfl (by simpa using h.symm)
  | mfc0 t _ =>
    rcases privileged_cp0_next h with ⟨-, hs'⟩ | ⟨-, r, -, hs'⟩
    · exact .trap .ri (by simp) (by simp) hs'
    · exact .data _ (dataOnly_setReg hself t (readCp0 s r)) hs'
  | mtc0 t d =>
    rcases privileged_cp0_next h with ⟨-, hs'⟩ | ⟨hk, r, -, hs'⟩
    · exact .trap .ri (by simp) (by simp) hs'
    · exact .mtc0 t d rfl hk r _ hs'
  | tlbwi =>
    rcases privileged_next h with ⟨-, hs'⟩ | ⟨hk, h | ⟨e, h, -⟩⟩
    · exact .trap .ri (by simp) (by simp) hs'
    · exact .tlbwi rfl hk _ _ (by simpa using h.symm)
    · simp at h
  | _ => exact instrCase_writeBack h

/-! ### The program counter -/

/-- Settles O52: only the branches, the jumps and eret end otherwise than with `advancePc` or a trap. -/
theorem sequentialAdvance : Obligations.SequentialAdvance := by
  intro i s s' hc he h
  cases exec_cases h with
  | data t ht h => exact .inl (by simp [SequentialPc, h, ht.npc])
  | control hc' => simp [hc] at hc'
  | trap e hint hdebug h => exact .inr ⟨e, hint, hdebug, h⟩
  | eret hi => exact absurd hi he
  | _ => exact .inl (by simp [SequentialPc, *])

/-! ### The sole writers -/

/-- What mtc0 alone changes of CP0: the mode bit `um`, `im`, `ie`, the TLB inputs, `count`, `compare`, `ebase` and the
watch registers. -/
def SameControl (c c' : Cp0) : Prop :=
  c'.um = c.um ∧ c'.im = c.im ∧ c'.ie = c.ie ∧ c'.index = c.index ∧ c'.entrylo0 = c.entrylo0 ∧
    c'.entrylo1 = c.entrylo1 ∧ c'.entryhi = c.entryhi ∧ c'.count = c.count ∧ c'.compare = c.compare ∧
    c'.ebase = c.ebase ∧ c'.watchlo = c.watchlo ∧ c'.watchhi = c.watchhi

theorem sameControl_of_eq {c c' : Cp0} (h : c' = c) : SameControl c c' := by simp [SameControl, h]

theorem sameControl_trapCp0 (e : Exn) (s : State) : SameControl s.cp0 (trapCp0 e s) := by simp [SameControl]

theorem sameControl_exl (c : Cp0) (exl : Bool) :
    SameControl c { c with status := statusWithExl c.status exl } := by simp [SameControl]

/-- Only mtc0, in kernel mode, changes the control registers (R207). -/
theorem exec_sameControl {i : Instr} {s s' : State} (h : exec i s = .next s')
    (hw : (∀ t d, i ≠ .mtc0 t d) ∨ s.userMode = true) : SameControl s.cp0 s'.cp0 := by
  cases exec_cases h with
  | data t ht => exact sameControl_of_eq (by simp [*, ht.cp0])
  | control _ t ht => exact sameControl_of_eq (by simp [*, ht.cp0])
  | trap e _ _ h => exact h ▸ sameControl_trapCp0 e s
  | eret _ h => exact h ▸ sameControl_exl s.cp0 false
  | mtc0 t d hi hk => simp [hi, hk] at hw
  | _ => exact sameControl_of_eq (by simp [*])

/-- Only tlbwi, in kernel mode, changes the TLB (R34, R176). -/
theorem exec_tlb {i : Instr} {s s' : State} (h : exec i s = .next s')
    (hw : i ≠ .tlbwi ∨ s.userMode = true) : s'.tlb = s.tlb := by
  cases exec_cases h with
  | data t ht => simp [*, ht.tlb]
  | control _ t ht => simp [*, ht.tlb]
  | tlbwi hi hk => simp [hi, hk] at hw
  | _ => simp [*]

/-- Only mult and mthi change `hi` (R12). -/
theorem exec_hi {i : Instr} {s s' : State} (h : exec i s = .next s')
    (hmult : ∀ a b, i ≠ .mult a b) (hmthi : ∀ a, i ≠ .mthi a) : s'.hi = s.hi := by
  cases exec_cases h with
  | data t ht => simp [*, ht.hi]
  | control _ t ht => simp [*, ht.hi]
  | mult a b hi => exact absurd hi (hmult a b)
  | mthi a hi => exact absurd hi (hmthi a)
  | _ => simp [*]

/-- Only mult and mtlo change `lo` (R12). -/
theorem exec_lo {i : Instr} {s s' : State} (h : exec i s = .next s')
    (hmult : ∀ a b, i ≠ .mult a b) (hmtlo : ∀ a, i ≠ .mtlo a) : s'.lo = s.lo := by
  cases exec_cases h with
  | data t ht => simp [*, ht.lo]
  | control _ t ht => simp [*, ht.lo]
  | mult a b hi => exact absurd hi (hmult a b)
  | mtlo a hi => exact absurd hi (hmtlo a)
  | _ => simp [*]

/-- Settles O60: the four sole-writer laws together. -/
theorem soleWriters : Obligations.SoleWriters := by
  intro i s s' h
  exact ⟨exec_sameControl h, fun hw k => by rw [exec_tlb h hw], exec_hi h, exec_lo h⟩

/-! ### The invariant, kept by each operation on the state -/

section Operations

variable {s : State}

theorem invariant_setReg (h : Invariant s) (r : Reg) (v : Word) : Invariant (s.setReg r v) where
  memoryCanonical := by simpa using h.memoryCanonical
  memoryHeld := by simpa using h.memoryHeld
  zeroRegister := by simpa [setReg_zeroSlot] using h.zeroRegister
  nextFollows := by simpa using h.nextFollows
  serialFits := by simpa using h.serialFits
  otherLinesDown := by simpa using h.otherLinesDown
  logRising := by simpa using h.logRising
  logPast := by simpa using h.logPast

theorem invariant_setHi (h : Invariant s) (v : Word) : Invariant (s.setHi v) := { h with }

theorem invariant_setLo (h : Invariant s) (v : Word) : Invariant (s.setLo v) := { h with }

theorem invariant_setCp0 (h : Invariant s) (c : Cp0) : Invariant (s.setCp0 c) := { h with }

theorem invariant_dropTimerRequest (h : Invariant s) : Invariant s.dropTimerRequest := { h with }

theorem invariant_setTlb (h : Invariant s) (i : BitVec 4) (e : TlbEntry) : Invariant (s.setTlb i e) := { h with }

theorem invariant_sendSerial (h : Invariant s) (b : Byte) : Invariant (s.sendSerial b) := { h with }

theorem invariant_advancePc (h : Invariant s) : Invariant s.advancePc := { h with nextFollows := fun _ => rfl }

theorem invariant_goto (h : Invariant s) (v : Word) : Invariant (s.goto v) := { h with nextFollows := fun _ => rfl }

theorem invariant_branchPc (h : Invariant s) (taken : Bool) (target : Word) : Invariant (s.branchPc taken target) :=
  { h with nextFollows := fun hds => by simp at hds }

theorem invariant_setSerialIn (h : Invariant s) {q : List Byte} (hq : q.length ≤ Config.serialBufCapacity) :
    Invariant (s.setSerialIn q) := { h with serialFits := hq }

theorem invariant_setMem (h : Invariant s) {m : Memory} (hwf : Memory.wf m = true)
    (hheld : ∀ c ∈ m, holdsData c.1 = true) : Invariant (s.setMem m) :=
  { h with memoryCanonical := hwf, memoryHeld := hheld }

/-- A store to RAM is dated with the current instruction, under a number that RAM has. -/
theorem invariant_logStore (h : Invariant s) {pa : Word} (hd : deviceAt pa = some .ram) : Invariant (s.logStore pa) :=
  { h with
    logRising := rising_logPut _ _ h.logRising
    logPast := fun e he => by
      rcases mem_logPut he with he | rfl
      · exact h.logPast e he
      · have hram := deviceAt_ram.mp hd
        exact ⟨by show pa.toNat / 4 < _; omega, Nat.le_refl _⟩ }

/-- A new instruction is later than every store in the log. -/
theorem invariant_beginInsn (h : Invariant s) : Invariant s.beginInsn :=
  { h with logPast := fun e he => ⟨(h.logPast e he).1, Nat.le_succ_of_le (h.logPast e he).2⟩ }

/-- Time keeps the invariant: the buffer keeps to its capacity and only the lines 4 and 7 are driven. -/
theorem invariant_passTime (h : Invariant s) : Invariant s.passTime :=
  { h with
    serialFits := receive_length h.serialFits
    otherLinesDown := irqLines_others _ _ }

theorem invariant_writeCp0 (h : Invariant s) (r : Cp0Reg) (v : Word) : Invariant (writeCp0 s r v) := by
  unfold writeCp0
  split
  · exact invariant_dropTimerRequest (invariant_setCp0 h _)
  · exact invariant_setCp0 h _

theorem invariant_takeException (h : Invariant s) (e : Exn) : Invariant (takeException e s) :=
  invariant_goto (invariant_setCp0 h _) _

theorem invariant_returnFromException (h : Invariant s) : Invariant (returnFromException s) :=
  invariant_goto (invariant_setCp0 h _) _

end Operations

/-! ### The invariant and memory -/

/-- RAM holds data (R70). -/
theorem holdsData_of_ram {a : Nat} (h : a ≤ 0x003fffff) : holdsData a = true := by simp [holdsData, h]

/-- A VGA character cell holds data (R216). -/
theorem holdsData_of_cell {pa : Word} (hd : deviceAt pa = some .vga) (hc : (vgaOffset pa).toNat < 2400) :
    holdsData pa.toNat = true := by
  obtain ⟨hlow, hhigh⟩ := deviceAt_vga.mp hd
  have hoffset : (vgaOffset pa).toNat = pa.toNat % 4096 := by simp [vgaOffset, BitVec.extractLsb'_toNat]
  have hcell : 0x10000000 ≤ pa.toNat ∧ pa.toNat < 0x10000000 + 2400 := by omega
  simp only [holdsData, decide_eq_true hcell, Bool.or_true, Bool.true_or]

section Stores

variable {s : State}

/-- A byte put where a device holds data. -/
theorem invariant_memPut (h : Invariant s) {a : Nat} (b : Byte) (ha : holdsData a = true) :
    Invariant (s.setMem (memPut s.mem a b)) :=
  invariant_setMem h (memPut_wf _ _ h.memoryCanonical) fun c hc => by
    rcases mem_memPut hc with hc | rfl
    · exact h.memoryHeld c hc
    · exact ha

/-- A word put where a device holds data at each of its four addresses. -/
theorem invariant_memPutWord (h : Invariant s) {a : Nat} (w : Word)
    (ha : ∀ k, a ≤ k → k < a + 4 → holdsData k = true) : Invariant (s.setMem (memPutWord s.mem a w)) :=
  invariant_setMem h (memPutWord_wf _ _ h.memoryCanonical) fun c hc => by
    rcases mem_memPutWord hc with hc | ⟨hlow, hhigh⟩
    · exact h.memoryHeld c hc
    · exact ha c.1 hlow hhigh

theorem invariant_ramByte (h : Invariant s) {pa : Word} (b : Byte) (hd : deviceAt pa = some .ram) :
    Invariant ((s.setMem (memPut s.mem pa.toNat b)).logStore pa) :=
  invariant_logStore (invariant_memPut h b (holdsData_of_ram (deviceAt_ram.mp hd))) hd

/-- An aligned word of RAM lies in RAM whole. -/
theorem invariant_ramWord (h : Invariant s) {pa : Word} (w : Word) (hd : deviceAt pa = some .ram)
    (ha : pa.toNat % 4 = 0) : Invariant ((s.setMem (memPutWord s.mem pa.toNat w)).logStore pa) :=
  have hram := deviceAt_ram.mp hd
  invariant_logStore (invariant_memPutWord h w fun k _ hk => holdsData_of_ram (by omega)) hd

theorem invariant_writeVgaByte (h : Invariant s) {pa : Word} (b : Byte) (hd : deviceAt pa = some .vga) :
    Invariant (writeVgaByte s pa b) := by
  unfold writeVgaByte
  split
  · rename_i hc
    exact invariant_memPut h b (holdsData_of_cell hd hc)
  · exact h

end Stores

/-! ### The invariant and the step -/

/-- Every instruction keeps the invariant, one case for each shape of its next state. -/
theorem invariant_effect {s s' : State} (h : Invariant s) (he : Effect s s') : Invariant s' := by
  cases he with
  | reg r v => exact invariant_advancePc (invariant_setReg h r v)
  | hiLo v w => exact invariant_advancePc (invariant_setLo (invariant_setHi h v) w)
  | branch taken target => exact invariant_branchPc h taken target
  | link r v target => exact invariant_branchPc (invariant_setReg h r v) true target
  | serialPop b q r v hq =>
    have hfits : q.length ≤ Config.serialBufCapacity := by
      have := h.serialFits
      simp only [hq, List.length_cons] at this
      omega
    exact invariant_advancePc (invariant_setReg (invariant_setSerialIn h hfits) r v)
  | ramByte pa b hd => exact invariant_advancePc (invariant_ramByte h b hd)
  | ramWord pa w hd ha => exact invariant_advancePc (invariant_ramWord h w hd ha)
  | vgaByte pa b hd => exact invariant_advancePc (invariant_writeVgaByte h b hd)
  | serialSend b => exact invariant_advancePc (invariant_sendSerial h b)
  | trap e => exact invariant_takeException h e
  | eret => exact invariant_returnFromException h
  | mtc0 r v => exact invariant_advancePc (invariant_writeCp0 h r v)
  | tlbwi => exact invariant_advancePc (invariant_setTlb h _ _)

/-- Settles O56: time keeps the invariant, and so does each of the five events of a step. -/
theorem stepKeepsInvariant : Obligations.StepKeepsInvariant := by
  intro s s' hinv hstep
  have htime := invariant_passTime hinv
  cases step_cases hstep with
  | interrupt _ h => exact h ▸ invariant_takeException htime .int
  | watch _ _ h => exact h ▸ invariant_takeException htime .debug
  | fetchRaise _ _ e _ h => exact h ▸ invariant_takeException htime e
  | reserved _ _ w _ _ h => exact h ▸ invariant_takeException (invariant_beginInsn htime) .ri
  | run _ _ w i _ _ h => exact invariant_effect (invariant_beginInsn htime) (exec_effect h)

/-! ### The step of a decoded instruction -/

/-- Settles O6: `step_run`, and the frame of the time that passes first. -/
theorem stepRunsDecodedInstruction : Obligations.StepRunsDecodedInstruction := by
  intro s w i hi hw hf hd
  refine ⟨step_run hi hw hf hd, ?_⟩
  simp [SameRegs, SameHiLo, SameTlb, SameMemory, State.byteAt, passTime_cp0]

/-! ### The numbers of CP0 and the zero register -/

/-- Settles O17: the 13 numbers one by one, and every number of the 32. -/
theorem cp0RegisterNumbers : Obligations.Cp0RegisterNumbers := by
  have hnone : ∀ d : Reg, cp0RegOfNumber d = none ↔
      d ∉ [0#5, 2#5, 3#5, 8#5, 9#5, 10#5, 11#5, 12#5, 13#5, 14#5, 15#5, 18#5, 19#5] := by decide
  exact ⟨⟨rfl, rfl, rfl, rfl, rfl, rfl, rfl, rfl, rfl, rfl, rfl, rfl, rfl⟩, hnone⟩

/-- Settles O55: the register laws of x[0] (R11). -/
theorem zeroRegister : Obligations.ZeroRegister := fun s => ⟨reg_zero s, setReg_zero s⟩

end Sys2Proof.Machine

/-!
Memory (spec/20_memory.md): the outcomes of a translation, the accesses that stop, byte order, and the bytes that a step
can change.
-/
namespace Sys2Proof.Machine

/-! ### Translation, outcome by outcome -/

theorem addressError_eq (kind : AccessKind) (va : Word) :
    addressError kind va = if kind = .store then .ades va else .adel va := by cases kind <;> rfl

theorem tlbMiss_eq (kind : AccessKind) (va : Word) :
    tlbMiss kind va = if kind = .store then .tlbs va else .tlbl va := by cases kind <;> rfl

/-- The page number that an entry gives its even or its odd page (R61). -/
def TlbEntry.ppnOf (e : TlbEntry) (odd : Bool) : BitVec 20 := if odd then e.ppn1 else e.ppn0

/-- Whether the even or the odd page of an entry is valid (R61). -/
def TlbEntry.validOf (e : TlbEntry) (odd : Bool) : Bool := if odd then e.valid1 else e.valid0

/-- Whether the even or the odd page of an entry may be written (R61). -/
def TlbEntry.writeOf (e : TlbEntry) (odd : Bool) : Bool := if odd then e.write1 else e.write0

theorem translateByEntry_eq (e : TlbEntry) (va : Word) (kind : AccessKind) :
    translateByEntry e va kind =
      if e.validOf (va.getLsbD 12) = false then .raise (if kind = .store then .tlbs va else .tlbl va)
      else if kind = .store ∧ e.writeOf (va.getLsbD 12) = false then .raise (.ades va)
      else .ok (e.ppnOf (va.getLsbD 12) ++ va.extractLsb' 0 12) := by
  rw [← tlbMiss_eq]
  rfl

theorem translateByEntry_ok {e : TlbEntry} {va pa : Word} {kind : AccessKind} :
    translateByEntry e va kind = .ok pa ↔
      e.validOf (va.getLsbD 12) = true ∧ (kind = .store → e.writeOf (va.getLsbD 12) = true) ∧
        pa = e.ppnOf (va.getLsbD 12) ++ va.extractLsb' 0 12 := by
  rw [translateByEntry_eq]
  cases e.validOf (va.getLsbD 12) with
  | false => simp
  | true => cases e.writeOf (va.getLsbD 12) <;> cases kind <;> simp [eq_comm]

theorem translateByEntry_notValid {e : TlbEntry} {va : Word} {kind : AccessKind}
    (hv : e.validOf (va.getLsbD 12) = false) :
    translateByEntry e va kind = .raise (if kind = .store then .tlbs va else .tlbl va) := by
  rw [translateByEntry_eq, if_pos hv]

/-- A valid page that may not be written refuses a store with an address error (R60). -/
theorem translateByEntry_notWritable {e : TlbEntry} {va : Word} (hv : e.validOf (va.getLsbD 12) = true)
    (hw : e.writeOf (va.getLsbD 12) = false) : translateByEntry e va .store = .raise (.ades va) := by
  rw [translateByEntry_eq, if_neg (by rw [hv]; decide), if_pos ⟨rfl, hw⟩]

section Outcomes

variable {s : State} {va : Word} {kind : AccessKind}

/-- In user mode a kernel address is an address error, whatever the TLB holds (R57). -/
theorem translate_kernelFromUser (hu : s.userMode = true) (hk : va.getLsbD 31 = true) :
    translateAddr s va kind = .raise (if kind = .store then .ades va else .adel va) := by
  simp [translateAddr, kernelAddress, hu, hk, addressError_eq]

/-- An address that the mode permits goes on to the linear map or the TLB (R57). -/
theorem translate_permitted (hm : s.userMode = false ∨ va.getLsbD 31 = false) :
    translateAddr s va kind = if linearAddress va then .ok (linearPhysical va) else translateMapped s va kind := by
  have hallowed : (s.userMode && kernelAddress va) = false := by
    rw [Bool.and_eq_false_iff]
    exact hm
  simp [translateAddr, hallowed]

theorem translate_linear (hm : s.userMode = false ∨ va.getLsbD 31 = false) (hl : va.extractLsb' 30 2 = 0b10#2) :
    translateAddr s va kind = .ok (0b000#3 ++ va.extractLsb' 0 29) := by
  have hlinear : linearAddress va = true := decide_eq_true hl
  rw [translate_permitted hm, if_pos hlinear]
  rfl

theorem translate_mapped (hm : s.userMode = false ∨ va.getLsbD 31 = false) (hl : va.extractLsb' 30 2 ≠ 0b10#2) :
    translateAddr s va kind = translateMapped s va kind := by
  rw [translate_permitted hm, if_neg (by simpa [linearAddress] using hl)]

theorem translate_noEntry (hm : s.userMode = false ∨ va.getLsbD 31 = false) (hl : va.extractLsb' 30 2 ≠ 0b10#2)
    (hn : ∀ i : Fin 16, s.tlb[i].vpn ≠ va.extractLsb' 13 19) :
    translateAddr s va kind = .raise (if kind = .store then .tlbs va else .tlbl va) := by
  rw [translate_mapped hm hl, translateMapped, tlbMatches_nil hn, ← tlbMiss_eq]

theorem translate_oneEntry (hm : s.userMode = false ∨ va.getLsbD 31 = false) (hl : va.extractLsb' 30 2 ≠ 0b10#2)
    (i : Fin 16) (hi : s.tlb[i].vpn = va.extractLsb' 13 19)
    (hu : ∀ j : Fin 16, s.tlb[j].vpn = va.extractLsb' 13 19 → j = i) :
    translateAddr s va kind = translateByEntry s.tlb[i] va kind := by
  rw [translate_mapped hm hl, translateMapped, tlbMatches_one i hi hu]

theorem translate_twoEntries (hm : s.userMode = false ∨ va.getLsbD 31 = false) (hl : va.extractLsb' 30 2 ≠ 0b10#2)
    {i j : Fin 16} (hne : i ≠ j) (hi : s.tlb[i].vpn = va.extractLsb' 13 19)
    (hj : s.tlb[j].vpn = va.extractLsb' 13 19) : translateAddr s va kind = .refuse .tlbMultipleMatch := by
  obtain ⟨a, b, t, ht⟩ := tlbMatches_two hne hi hj
  rw [translate_mapped hm hl, translateMapped, ht]

/-- Everything there is to a translation that answers an address: the mode permits it, and it is linear or one entry
matches, whose page is valid and, for a store, may be written. -/
theorem translate_ok_iff {pa : Word} : translateAddr s va kind = .ok pa ↔
    (s.userMode && kernelAddress va) = false ∧
      ((linearAddress va = true ∧ pa = linearPhysical va) ∨
        (linearAddress va = false ∧ ∃ e, tlbMatches s va = [e] ∧ e.validOf (va.getLsbD 12) = true ∧
          (kind = .store → e.writeOf (va.getLsbD 12) = true) ∧
          pa = e.ppnOf (va.getLsbD 12) ++ va.extractLsb' 0 12)) := by
  unfold translateAddr
  cases s.userMode && kernelAddress va with
  | true => simp
  | false =>
    cases linearAddress va with
    | true => simpa using eq_comm
    | false =>
      unfold translateMapped
      match tlbMatches s va with
      | [] => simp
      | [e] => simp [translateByEntry_ok]
      | _ :: _ :: _ => simp

/-- Time changes no translation. -/
@[simp] theorem translate_passTime : translateAddr s.passTime va kind = translateAddr s va kind :=
  translate_congr va kind rfl rfl

end Outcomes

/-- Settles O24: the outcomes one by one. -/
theorem translateOutcomes : Obligations.TranslateOutcomes := fun _ _ _ =>
  ⟨translate_kernelFromUser, fun hm => ⟨translate_linear hm, fun hl => ⟨translate_noEntry hm hl, fun i hi hu =>
    (translate_oneEntry hm hl i hi hu).trans (translateByEntry_eq _ _ _)⟩⟩⟩

/-- Settles O25: the entry written is the only one that matches, and its fields are those of entrylo0 and entrylo1. -/
theorem tlbwiThenTranslate : Obligations.TlbwiThenTranslate := by
  intro s s' va kind hk hexec hvpn hl hu lo hlo
  have hs' : s' = (s.setTlb (tlbIndex s.cp0) (tlbEntryOfCp0 s.cp0)).advancePc := by
    simpa [exec, execTlbwi, privileged, hk] using hexec.symm
  have htlb : ∀ j : Fin 16,
      s'.tlb[j] = if j = (tlbIndex s.cp0).toFin then tlbEntryOfCp0 s.cp0 else s.tlb[j] := fun j => by
    rw [hs']
    exact tlb_setTlb s _ _ j
  have hentry : s'.tlb[(tlbIndex s.cp0).toFin] = tlbEntryOfCp0 s.cp0 := by rw [htlb, if_pos rfl]
  have honly : ∀ j : Fin 16, s'.tlb[j].vpn = va.extractLsb' 13 19 → j = (tlbIndex s.cp0).toFin := fun j hj => by
    by_contra hne
    rw [htlb, if_neg hne] at hj
    exact hne (hu j hj)
  have htrans : translateAddr s' va kind = translateByEntry (tlbEntryOfCp0 s.cp0) va kind := by
    rw [← hentry]
    exact translate_oneEntry (.inl (by simpa [hs'] using hk)) hl _ (by rw [hentry]; exact hvpn.symm) honly
  have hppn : (tlbEntryOfCp0 s.cp0).ppnOf (va.getLsbD 12) = lo.extractLsb' 6 20 := by
    rw [hlo, TlbEntry.ppnOf]
    cases va.getLsbD 12 <;> rfl
  have hvalid : (tlbEntryOfCp0 s.cp0).validOf (va.getLsbD 12) = lo.getLsbD 1 := by
    rw [hlo, TlbEntry.validOf]
    cases va.getLsbD 12 <;> rfl
  have hwrite : (tlbEntryOfCp0 s.cp0).writeOf (va.getLsbD 12) = lo.getLsbD 2 := by
    rw [hlo, TlbEntry.writeOf]
    cases va.getLsbD 12 <;> rfl
  rw [htrans, ← hppn, ← hvalid, ← hwrite]
  refine ⟨fun hv hw => translateByEntry_ok.mpr ⟨hv, hw, rfl⟩, fun hv hkind hw => ?_, translateByEntry_notValid⟩
  rw [hkind]
  exact translateByEntry_notWritable hv hw

/-- A bit vector put above another, as a number. -/
theorem append_toNat {m n : Nat} (x : BitVec m) (y : BitVec n) : (x ++ y).toNat = x.toNat * 2 ^ n + y.toNat := by
  rw [BitVec.toNat_append, ← Nat.shiftLeft_add_eq_or_of_lt y.isLt, Nat.shiftLeft_eq]

/-- Settles O23: by its upper two bits the address is linear, and the map drops its upper three. -/
theorem linearTranslation : Obligations.LinearTranslation := by
  intro s va kind hk hlow hhigh
  have hl : va.extractLsb' 30 2 = 0b10#2 := by
    apply BitVec.eq_of_toNat_eq
    simp only [BitVec.extractLsb'_toNat, Nat.shiftRight_eq_div_pow, BitVec.toNat_ofNat]
    omega
  refine ⟨_, translate_linear (.inl hk) hl, rfl, ?_, fun tlb => translate_linear (.inl hk) hl⟩
  rw [append_toNat, BitVec.extractLsb'_toNat, Nat.shiftRight_zero, BitVec.toNat_ofNat]
  split <;> omega

/-! ### The address map -/

theorem deviceAt_flash {pa : Word} : deviceAt pa = some .flash ↔ 0x1e000000 ≤ pa.toNat ∧ pa.toNat ≤ 0x1effffff := by
  unfold deviceAt
  split_ifs <;> simp <;> omega

theorem deviceAt_serial {pa : Word} : deviceAt pa = some .serial ↔ 0x1fd003f8 ≤ pa.toNat ∧ pa.toNat ≤ 0x1fd003ff := by
  unfold deviceAt
  split_ifs <;> simp <;> omega

theorem deviceAt_rom {pa : Word} : deviceAt pa = some .rom ↔ 0x1fc00000 ≤ pa.toNat ∧ pa.toNat ≤ 0x1fc001ff := by
  unfold deviceAt
  split_ifs <;> simp <;> omega

/-- Settles O22: the ranges device by device. -/
theorem addressMap : Obligations.AddressMap := fun _ =>
  ⟨deviceAt_ram, deviceAt_vga, deviceAt_flash, deviceAt_serial, deviceAt_rom⟩

/-! ### Fetch -/

theorem fetch_misaligned {s : State} (h : s.pc.toNat % 4 ≠ 0) : fetch s = .raise (.adel s.pc) := by
  rw [fetch, if_neg (by rwa [wordAligned_iff])]
  rfl

section Fetch

variable {s : State} (ha : s.pc.toNat % 4 = 0)

include ha

theorem fetch_aligned : fetch s = (translateAddr s s.pc .fetch).bind fun pa =>
    if storedWithinWindow s pa then .refuse .fetchAfterStore else physReadWord s pa := by
  rw [fetch, if_pos ((wordAligned_iff _).mpr ha)]

theorem fetch_raise_of_translate {e : Exn} (ht : translateAddr s s.pc .fetch = .raise e) : fetch s = .raise e := by
  rw [fetch_aligned ha, ht, bind_raise]

theorem fetch_refuse_of_translate {r : Refusal} (ht : translateAddr s s.pc .fetch = .refuse r) :
    fetch s = .refuse r := by
  rw [fetch_aligned ha, ht, bind_refuse]

theorem fetch_insideWindow {pa : Word} (ht : translateAddr s s.pc .fetch = .ok pa)
    (hw : storedWithinWindow s pa = true) : fetch s = .refuse .fetchAfterStore := by
  rw [fetch_aligned ha, ht, bind_ok, if_pos hw]

theorem fetch_outsideWindow {pa : Word} (ht : translateAddr s s.pc .fetch = .ok pa)
    (hw : storedWithinWindow s pa = false) : fetch s = physReadWord s pa := by
  rw [fetch_aligned ha, ht, bind_ok, hw, if_neg Bool.false_ne_true]

end Fetch

/-- The window as the log of stores dates it (R81, log 14). -/
theorem storedWithinWindow_iff (s : State) (pa : Word) : storedWithinWindow s pa = true ↔
    ∃ n, logGet s.storeLog (pa.toNat / 4) = some n ∧ s.insns + 1 ≤ n + Config.ifetchHazardWindow := by
  unfold storedWithinWindow
  cases logGet s.storeLog (pa.toNat / 4) <;> simp

/-- A word of RAM or ROM is its four bytes (R51). -/
theorem physReadWord_bytes {s : State} {pa : Word} (hd : deviceAt pa = some .ram ∨ deviceAt pa = some .rom) :
    physReadWord s pa = .ok (wordOfBytes (s.byteAt pa.toNat) (s.byteAt (pa.toNat + 1)) (s.byteAt (pa.toNat + 2))
      (s.byteAt (pa.toNat + 3))) := by
  rcases hd with hd | hd <;> rw [physReadWord, hd] <;> rfl

/-- A word of Flash is one 16-bit cell (R71). -/
theorem physReadWord_cell {s : State} {pa : Word} (hd : deviceAt pa = some .flash) :
    physReadWord s pa = .ok (wordOfBytes (s.byteAt pa.toNat) (s.byteAt (pa.toNat + 1)) 0#8 0#8) := by
  rw [physReadWord, hd]
  rfl

/-- Settles O7: inside the window by the log, outside it by the device. -/
theorem fetchReadsWord : Obligations.FetchReadsWord := fun s pa ha ht =>
  ⟨storedWithinWindow_iff s pa, fetch_insideWindow ha ht, fun hw => by
    rw [fetch_outsideWindow ha ht hw]
    exact ⟨physReadWord_bytes, physReadWord_cell⟩⟩

section StepOfFetch

variable {s : State} (hi : s.passTime.interruptDue = false) (hw : s.passTime.watchHit = false)

include hi hw

theorem step_fetch_raise {e : Exn} (hf : fetch s.passTime = .raise e) :
    step s = .next (takeException e s.passTime) := by
  simp [step, stepAt, hi, hw, hf]

theorem step_fetch_fault {x : Fault} (hf : fetch s.passTime = .fault x) : step s = .fault x := by
  simp [step, stepAt, hi, hw, hf]

theorem step_fetch_refuse {r : Refusal} (hf : fetch s.passTime = .refuse r) : step s = .refused r := by
  simp [step, stepAt, hi, hw, hf]

end StepOfFetch

/-- Settles O10: a misaligned pc first, then what the translation of an aligned one raises. -/
theorem fetchExceptions : Obligations.FetchExceptions := by
  intro s hi hw
  refine ⟨fun hmis => step_fetch_raise hi hw (fetch_misaligned hmis), fun ha => ?_⟩
  have hraise : ∀ e, translateAddr s s.pc .fetch = .raise e → step s = .next (takeException e s.passTime) :=
    fun e ht => step_fetch_raise hi hw (fetch_raise_of_translate ha (translate_passTime.trans ht))
  exact ⟨fun hu hk => hraise _ (translate_kernelFromUser hu hk), fun hm hl =>
    ⟨fun hn => hraise _ (translate_noEntry hm hl hn), fun i hmatch hu hv =>
      hraise _ ((translate_oneEntry hm hl i hmatch hu).trans (translateByEntry_notValid hv))⟩⟩

/-! ### Accesses that the spec does not describe -/

/-- The serial registers that are described stand at the offsets 0 and 4 (R72, R211). -/
theorem serialOffset_other {pa : Word} (hd : deviceAt pa = some .serial) (h0 : pa ≠ 0x1fd003f8#32)
    (h4 : pa ≠ 0x1fd003fc#32) : serialOffset pa ≠ 0#3 ∧ serialOffset pa ≠ 4#3 := by
  obtain ⟨hlow, hhigh⟩ := deviceAt_serial.mp hd
  rw [ne_eq, ← BitVec.toNat_inj, BitVec.toNat_ofNat] at h0 h4
  simp only [serialOffset, ne_eq, ← BitVec.toNat_inj, BitVec.extractLsb'_toNat, Nat.shiftRight_zero, BitVec.toNat_ofNat]
  omega

/-- Every byte read that the devices are not said to support (R74, R75, R211). -/
theorem physReadByte_undescribed (s : State) (pa : Word) :
    (deviceAt pa = none → physReadByte s pa = .fault (.noDevice pa)) ∧
    (deviceAt pa = some .vga → physReadByte s pa = .refuse .vgaRead) ∧
    (deviceAt pa = some .flash → physReadByte s pa = .refuse .flashByteRead) ∧
    (deviceAt pa = some .rom → physReadByte s pa = .refuse .romByteRead) ∧
    (deviceAt pa = some .serial → pa ≠ 0x1fd003f8#32 → pa ≠ 0x1fd003fc#32 →
      physReadByte s pa = .refuse .serialOffset) := by
  refine ⟨?_, ?_, ?_, ?_, fun hd h0 h4 => ?_⟩
  case refine_5 =>
    obtain ⟨hne0, hne4⟩ := serialOffset_other hd h0 h4
    simp [physReadByte, hd, hne0, hne4]
  all_goals
    intro hd
    simp [physReadByte, hd]

/-- Every word read that the devices are not said to support (R74, R75, R211). -/
theorem physReadWord_undescribed (s : State) (pa : Word) :
    (deviceAt pa = none → physReadWord s pa = .fault (.noDevice pa)) ∧
    (deviceAt pa = some .vga → physReadWord s pa = .refuse .vgaRead) ∧
    (deviceAt pa = some .serial → physReadWord s pa = .refuse .serialWordAccess) := by
  refine ⟨?_, ?_, ?_⟩ <;> intro hd <;> simp [physReadWord, hd]

/-- Every byte write that the devices are not said to support (R74, R75, R211). -/
theorem physWriteByte_undescribed (s : State) (pa : Word) (b : Byte) :
    (deviceAt pa = none → physWriteByte s pa b = .fault (.noDevice pa)) ∧
    (deviceAt pa = some .flash → physWriteByte s pa b = .refuse .flashWrite) ∧
    (deviceAt pa = some .rom → physWriteByte s pa b = .refuse .romWrite) ∧
    (pa = 0x1fd003fc#32 → physWriteByte s pa b = .refuse .serialStatusWrite) ∧
    (deviceAt pa = some .serial → pa ≠ 0x1fd003f8#32 → pa ≠ 0x1fd003fc#32 →
      physWriteByte s pa b = .refuse .serialOffset) := by
  refine ⟨?_, ?_, ?_, fun hpa => hpa ▸ rfl, fun hd h0 h4 => ?_⟩
  case refine_4 =>
    obtain ⟨hne0, hne4⟩ := serialOffset_other hd h0 h4
    simp [physWriteByte, hd, hne0, hne4]
  all_goals
    intro hd
    simp [physWriteByte, hd]

/-- Every word write that the devices are not said to support (R74, R75, R211). -/
theorem physWriteWord_undescribed (s : State) (pa w : Word) :
    (deviceAt pa = none → physWriteWord s pa w = .fault (.noDevice pa)) ∧
    (deviceAt pa = some .vga → physWriteWord s pa w = .refuse .vgaWordWrite) ∧
    (deviceAt pa = some .flash → physWriteWord s pa w = .refuse .flashWrite) ∧
    (deviceAt pa = some .serial → physWriteWord s pa w = .refuse .serialWordAccess) ∧
    (deviceAt pa = some .rom → physWriteWord s pa w = .refuse .romWrite) := by
  refine ⟨?_, ?_, ?_, ?_, ?_⟩ <;> intro hd <;> simp [physWriteWord, hd]

/-- What a fetch does not reach, the step stops at. -/
theorem step_fetch_undescribed {s : State} (hi : s.passTime.interruptDue = false)
    (hw : s.passTime.watchHit = false) (ha : s.pc.toNat % 4 = 0) {pa : Word}
    (ht : translateAddr s.passTime s.pc .fetch = .ok pa) (hwin : storedWithinWindow s.passTime pa = false) :
    (deviceAt pa = none → step s = .fault (.noDevice pa)) ∧
    (deviceAt pa = some .vga → step s = .refused .vgaRead) ∧
    (deviceAt pa = some .serial → step s = .refused .serialWordAccess) := by
  have hread : fetch s.passTime = physReadWord s.passTime pa := fetch_outsideWindow ha ht hwin
  obtain ⟨hnone, hvga, hserial⟩ := physReadWord_undescribed s.passTime pa
  exact ⟨fun hd => step_fetch_fault hi hw (hread.trans (hnone hd)),
    fun hd => step_fetch_refuse hi hw (hread.trans (hvga hd)),
    fun hd => step_fetch_refuse hi hw (hread.trans (hserial hd))⟩

/-- An instruction stops as its access does. -/
theorem finish_bind_fault {α : Type} {s : State} {r : Res α} {f : α → Res State} {x : Fault} (h : r = .fault x) :
    finish s (r.bind f) = .fault x := by
  rw [h, bind_fault, finish_fault]

theorem finish_bind_refuse {α : Type} {s : State} {r : Res α} {f : α → Res State} {x : Refusal} (h : r = .refuse x) :
    finish s (r.bind f) = .refused x := by
  rw [h, bind_refuse, finish_refuse]

/-- The accesses of an aligned address, without the test of its alignment. -/
theorem loadWord_aligned {s : State} {va : Word} (ha : va.toNat % 4 = 0) :
    loadWord s va = (translateAddr s va .load).bind (physReadWord s) := if_pos ((wordAligned_iff va).mpr ha)

theorem storeWord_aligned {s : State} {va : Word} (w : Word) (ha : va.toNat % 4 = 0) :
    storeWord s va w = (translateAddr s va .store).bind fun pa => physWriteWord s pa w :=
  if_pos ((wordAligned_iff va).mpr ha)

section Stops

variable {s : State} {rs rt : Reg} {imm : Imm} {pa : Word}

theorem byteLoads_fault {x : Fault} (h : loadByte s (effectiveAddress (s.reg rs) imm) = .fault x) :
    exec (.lb rs rt imm) s = .fault x ∧ exec (.lbu rs rt imm) s = .fault x :=
  ⟨finish_bind_fault h, finish_bind_fault h⟩

theorem byteLoads_refuse {x : Refusal} (h : loadByte s (effectiveAddress (s.reg rs) imm) = .refuse x) :
    exec (.lb rs rt imm) s = .refused x ∧ exec (.lbu rs rt imm) s = .refused x :=
  ⟨finish_bind_refuse h, finish_bind_refuse h⟩

theorem byteLoads_undescribed (ht : translateAddr s (effectiveAddress (s.reg rs) imm) .load = .ok pa) :
    (deviceAt pa = none →
      exec (.lb rs rt imm) s = .fault (.noDevice pa) ∧ exec (.lbu rs rt imm) s = .fault (.noDevice pa)) ∧
    (deviceAt pa = some .vga →
      exec (.lb rs rt imm) s = .refused .vgaRead ∧ exec (.lbu rs rt imm) s = .refused .vgaRead) ∧
    (deviceAt pa = some .flash →
      exec (.lb rs rt imm) s = .refused .flashByteRead ∧ exec (.lbu rs rt imm) s = .refused .flashByteRead) ∧
    (deviceAt pa = some .rom →
      exec (.lb rs rt imm) s = .refused .romByteRead ∧ exec (.lbu rs rt imm) s = .refused .romByteRead) ∧
    (deviceAt pa = some .serial → pa ≠ 0x1fd003f8#32 → pa ≠ 0x1fd003fc#32 →
      exec (.lb rs rt imm) s = .refused .serialOffset ∧ exec (.lbu rs rt imm) s = .refused .serialOffset) := by
  have hread : loadByte s (effectiveAddress (s.reg rs) imm) = physReadByte s pa := by rw [loadByte, ht, bind_ok]
  obtain ⟨hnone, hvga, hflash, hrom, hserial⟩ := physReadByte_undescribed s pa
  exact ⟨fun hd => byteLoads_fault (hread.trans (hnone hd)), fun hd => byteLoads_refuse (hread.trans (hvga hd)),
    fun hd => byteLoads_refuse (hread.trans (hflash hd)), fun hd => byteLoads_refuse (hread.trans (hrom hd)),
    fun hd h0 h4 => byteLoads_refuse (hread.trans (hserial hd h0 h4))⟩

theorem wordLoad_undescribed (ha : (effectiveAddress (s.reg rs) imm).toNat % 4 = 0)
    (ht : translateAddr s (effectiveAddress (s.reg rs) imm) .load = .ok pa) :
    (deviceAt pa = none → exec (.lw rs rt imm) s = .fault (.noDevice pa)) ∧
    (deviceAt pa = some .vga → exec (.lw rs rt imm) s = .refused .vgaRead) ∧
    (deviceAt pa = some .serial → exec (.lw rs rt imm) s = .refused .serialWordAccess) := by
  have hread : loadWord s (effectiveAddress (s.reg rs) imm) = physReadWord s pa := by
    rw [loadWord_aligned ha, ht, bind_ok]
  obtain ⟨hnone, hvga, hserial⟩ := physReadWord_undescribed s pa
  exact ⟨fun hd => finish_bind_fault (hread.trans (hnone hd)), fun hd => finish_bind_refuse (hread.trans (hvga hd)),
    fun hd => finish_bind_refuse (hread.trans (hserial hd))⟩

theorem byteStore_undescribed (ht : translateAddr s (effectiveAddress (s.reg rs) imm) .store = .ok pa) :
    (deviceAt pa = none → exec (.sb rs rt imm) s = .fault (.noDevice pa)) ∧
    (deviceAt pa = some .flash → exec (.sb rs rt imm) s = .refused .flashWrite) ∧
    (deviceAt pa = some .rom → exec (.sb rs rt imm) s = .refused .romWrite) ∧
    (pa = 0x1fd003fc#32 → exec (.sb rs rt imm) s = .refused .serialStatusWrite) ∧
    (deviceAt pa = some .serial → pa ≠ 0x1fd003f8#32 → pa ≠ 0x1fd003fc#32 →
      exec (.sb rs rt imm) s = .refused .serialOffset) := by
  have hwrite : storeByte s (effectiveAddress (s.reg rs) imm) (lowByte (s.reg rt)) =
      physWriteByte s pa (lowByte (s.reg rt)) := by rw [storeByte, ht, bind_ok]
  obtain ⟨hnone, hflash, hrom, hstatus, hserial⟩ := physWriteByte_undescribed s pa (lowByte (s.reg rt))
  exact ⟨fun hd => finish_bind_fault (hwrite.trans (hnone hd)),
    fun hd => finish_bind_refuse (hwrite.trans (hflash hd)), fun hd => finish_bind_refuse (hwrite.trans (hrom hd)),
    fun hpa => finish_bind_refuse (hwrite.trans (hstatus hpa)),
    fun hd h0 h4 => finish_bind_refuse (hwrite.trans (hserial hd h0 h4))⟩

theorem wordStore_undescribed (ha : (effectiveAddress (s.reg rs) imm).toNat % 4 = 0)
    (ht : translateAddr s (effectiveAddress (s.reg rs) imm) .store = .ok pa) :
    (deviceAt pa = none → exec (.sw rs rt imm) s = .fault (.noDevice pa)) ∧
    (deviceAt pa = some .vga → exec (.sw rs rt imm) s = .refused .vgaWordWrite) ∧
    (deviceAt pa = some .flash → exec (.sw rs rt imm) s = .refused .flashWrite) ∧
    (deviceAt pa = some .serial → exec (.sw rs rt imm) s = .refused .serialWordAccess) ∧
    (deviceAt pa = some .rom → exec (.sw rs rt imm) s = .refused .romWrite) := by
  have hwrite : storeWord s (effectiveAddress (s.reg rs) imm) (s.reg rt) = physWriteWord s pa (s.reg rt) := by
    rw [storeWord_aligned _ ha, ht, bind_ok]
  obtain ⟨hnone, hvga, hflash, hserial, hrom⟩ := physWriteWord_undescribed s pa (s.reg rt)
  exact ⟨fun hd => finish_bind_fault (hwrite.trans (hnone hd)), fun hd => finish_bind_refuse (hwrite.trans (hvga hd)),
    fun hd => finish_bind_refuse (hwrite.trans (hflash hd)), fun hd => finish_bind_refuse (hwrite.trans (hserial hd)),
    fun hd => finish_bind_refuse (hwrite.trans (hrom hd))⟩

/-- A translation that is refused for loads and stores stops all five instructions. -/
theorem accesses_untranslated {x : Refusal}
    (ht : ∀ kind, translateAddr s (effectiveAddress (s.reg rs) imm) kind = .refuse x) :
    exec (.lb rs rt imm) s = .refused x ∧ exec (.lbu rs rt imm) s = .refused x ∧
      exec (.sb rs rt imm) s = .refused x ∧
      ((effectiveAddress (s.reg rs) imm).toNat % 4 = 0 → exec (.lw rs rt imm) s = .refused x ∧
        exec (.sw rs rt imm) s = .refused x) := by
  have hload : loadByte s (effectiveAddress (s.reg rs) imm) = .refuse x := by rw [loadByte, ht, bind_refuse]
  obtain ⟨hlb, hlbu⟩ := byteLoads_refuse (rt := rt) hload
  refine ⟨hlb, hlbu, finish_bind_refuse ?_, fun ha => ⟨finish_bind_refuse ?_, finish_bind_refuse ?_⟩⟩
  · rw [storeByte, ht, bind_refuse]
  · rw [loadWord_aligned ha, ht, bind_refuse]
  · rw [storeWord_aligned _ ha, ht, bind_refuse]

end Stops

/-- Settles O35: the fetch, the loads, the stores, and the translation that several entries match. -/
theorem undescribedAccessesStop : Obligations.UndescribedAccessesStop := by
  refine ⟨fun s pa hi hw ha => ⟨step_fetch_undescribed hi hw ha, fun hm hl i j hne hmi hmj => ?_⟩,
    fun s rs rt imm ea pa hea => ?_⟩
  · have ht : translateAddr s.passTime s.pc .fetch = .refuse .tlbMultipleMatch :=
      translate_passTime.trans (translate_twoEntries hm hl hne hmi hmj)
    exact step_fetch_refuse hi hw (fetch_refuse_of_translate ha ht)
  · obtain rfl : ea = effectiveAddress (s.reg rs) imm := hea
    refine ⟨fun ht => ?_, fun ht => ?_, fun hm hl i j hne hmi hmj =>
      accesses_untranslated fun _ => translate_twoEntries hm hl hne hmi hmj⟩
    · obtain ⟨hnone, hvga, hflash, hrom, hserial⟩ := byteLoads_undescribed (rt := rt) ht
      exact ⟨hnone, hvga, hflash, hrom, hserial, fun ha => wordLoad_undescribed ha ht⟩
    · obtain ⟨hnone, hflash, hrom, hstatus, hserial⟩ := byteStore_undescribed (rt := rt) ht
      exact ⟨hnone, hflash, hrom, hstatus, hserial, fun ha => wordStore_undescribed ha ht⟩

/-! ### Byte order -/

/-- Byte `k` of a word of memory stands at its address plus `k` (R51). -/
theorem byte_memGetWord (m : Memory) (a k : Nat) (hk : k < 4) :
    (memGetWord m a).extractLsb' (8 * k) 8 = memGet m (a + k) := by
  apply BitVec.eq_of_getLsbD_eq
  intro i hi
  interval_cases k <;>
    simp only [memGetWord, BitVec.getLsbD_extractLsb', BitVec.getLsbD_append, hi, decide_true, Bool.true_and]
  · simp [hi]
  · simp [show ¬ 8 + i < 8 by omega, show 8 + i - 8 = i by omega, hi]
  · simp [show ¬ 16 + i < 8 by omega, show 16 + i - 8 - 8 = i by omega, show ¬ 16 + i - 8 < 8 by omega, hi]
  · simp [show ¬ 24 + i < 8 by omega, show ¬ 24 + i - 8 < 8 by omega, show ¬ 24 + i - 8 - 8 < 8 by omega,
      show 24 + i - 8 - 8 - 8 = i by omega]

section WithinWord

variable {va : Word} {k : Nat} (ha : va.toNat % 4 = 0) (hk : k < 4)

include ha hk

theorem toNat_add_byte : (va + BitVec.ofNat 32 k).toNat = va.toNat + k := by
  have := va.isLt
  rw [BitVec.toNat_add, BitVec.toNat_ofNat]
  omega

/-- An address within an aligned word has the word's upper bits. -/
theorem getLsbD_add_byte {i : Nat} (hi : 2 ≤ i) : (va + BitVec.ofNat 32 k).getLsbD i = va.getLsbD i := by
  obtain ⟨j, rfl⟩ := Nat.exists_eq_add_of_le' hi
  rw [BitVec.getLsbD, BitVec.getLsbD, toNat_add_byte ha hk, Nat.testBit_add, Nat.testBit_add,
    show (va.toNat + k) / 2 ^ 2 = va.toNat / 2 ^ 2 by omega]

theorem extract_add_byte {i n : Nat} (hi : 2 ≤ i) :
    (va + BitVec.ofNat 32 k).extractLsb' i n = va.extractLsb' i n := by
  apply BitVec.eq_of_getLsbD_eq
  intro j hj
  rw [BitVec.getLsbD_extractLsb', BitVec.getLsbD_extractLsb', getLsbD_add_byte ha hk (by omega)]

/-- An address within an aligned word keeps its distance to it under a map of pages. -/
theorem append_add_byte {m n : Nat} (p : BitVec m) (hn : 2 ≤ n) :
    p ++ (va + BitVec.ofNat 32 k).extractLsb' 0 n = p ++ va.extractLsb' 0 n + BitVec.ofNat (m + n) k := by
  have hdvd : 4 ∣ 2 ^ n := pow_dvd_pow 2 hn
  have hlow : (va.toNat + k) % 2 ^ n = va.toNat % 2 ^ n + k := by
    have haligned : va.toNat % 2 ^ n % 4 = 0 := (Nat.mod_mod_of_dvd _ hdvd).trans ha
    have hlt := Nat.mod_lt va.toNat (Nat.two_pow_pos n)
    rw [← Nat.mod_add_mod, Nat.mod_eq_of_lt (by omega)]
  apply BitVec.eq_of_toNat_eq
  have hfit := (p ++ (va + BitVec.ofNat 32 k).extractLsb' 0 n).isLt
  rw [BitVec.toNat_add, BitVec.toNat_ofNat, Nat.add_mod_mod]
  rw [append_toNat, BitVec.extractLsb'_toNat, Nat.shiftRight_zero, toNat_add_byte ha hk, hlow] at hfit ⊢
  rw [append_toNat, BitVec.extractLsb'_toNat, Nat.shiftRight_zero, Nat.add_assoc, Nat.mod_eq_of_lt hfit]

/-- What may be stored to may be loaded, byte by byte: one translation serves the whole word. -/
theorem translate_add_byte {s : State} {pa : Word} (ht : translateAddr s va .store = .ok pa) (kind : AccessKind) :
    translateAddr s (va + BitVec.ofNat 32 k) kind = .ok (pa + BitVec.ofNat 32 k) := by
  have hkernel : kernelAddress (va + BitVec.ofNat 32 k) = kernelAddress va := getLsbD_add_byte ha hk (by omega)
  have hlinear : linearAddress (va + BitVec.ofNat 32 k) = linearAddress va := by
    rw [linearAddress, extract_add_byte ha hk (by omega)]
    rfl
  have hmatches : tlbMatches s (va + BitVec.ofNat 32 k) = tlbMatches s va := by
    rw [tlbMatches, extract_add_byte ha hk (by omega)]
    rfl
  have hodd : (va + BitVec.ofNat 32 k).getLsbD 12 = va.getLsbD 12 := getLsbD_add_byte ha hk (by omega)
  rw [translate_ok_iff] at ht ⊢
  rw [hkernel, hlinear, hmatches, hodd]
  obtain ⟨hmode, ⟨hl, rfl⟩ | ⟨hl, e, he, hvalid, hwrite, rfl⟩⟩ := ht
  · exact ⟨hmode, .inl ⟨hl, (append_add_byte ha hk 0b000#3 (by omega)).symm⟩⟩
  · exact ⟨hmode, .inr ⟨hl, e, he, hvalid, fun _ => hwrite rfl, (append_add_byte ha hk _ (by omega)).symm⟩⟩

end WithinWord

section Ram

variable {s : State} {va pa : Word} (hd : deviceAt pa = some .ram)

include hd

/-- A word stored to RAM (R70). -/
theorem storeWord_ram (w : Word) (ha : va.toNat % 4 = 0) (ht : translateAddr s va .store = .ok pa) :
    ∃ t, storeWord s va w = .ok t ∧ t.mem = memPutWord s.mem pa.toNat w ∧
      ∀ v kind, translateAddr t v kind = translateAddr s v kind :=
  ⟨(s.setMem (memPutWord s.mem pa.toNat w)).logStore pa, by
    rw [storeWord_aligned w ha, ht, bind_ok, physWriteWord, hd], rfl, fun v kind => translate_congr v kind rfl rfl⟩

/-- A byte stored to RAM (R70). -/
theorem storeByte_ram (b : Byte) (ht : translateAddr s va .store = .ok pa) :
    ∃ t, storeByte s va b = .ok t ∧ t.mem = memPut s.mem pa.toNat b ∧
      ∀ v kind, translateAddr t v kind = translateAddr s v kind :=
  ⟨(s.setMem (memPut s.mem pa.toNat b)).logStore pa, by rw [storeByte, ht, bind_ok, physWriteByte, hd], rfl,
    fun v kind => translate_congr v kind rfl rfl⟩

theorem loadWord_ram (ha : va.toNat % 4 = 0) (ht : translateAddr s va .load = .ok pa) :
    loadWord s va = .ok (memGetWord s.mem pa.toNat) := by
  rw [loadWord_aligned ha, ht, bind_ok, physReadWord, hd]

theorem loadByte_ram (ht : translateAddr s va .load = .ok pa) : loadByte s va = .ok (memGet s.mem pa.toNat, s) := by
  rw [loadByte, ht, bind_ok, physReadByte, hd]

end Ram

/-- Settles O30: the word stands in RAM byte by byte, and the byte store replaces one of them. -/
theorem littleEndianStores : Obligations.LittleEndianStores := by
  intro s va pa w b k hwf ha hk ht hd
  have hpa : pa.toNat % 4 = 0 := translate_aligned ht ((wordAligned_iff va).mpr ha)
  have hpak : (pa + BitVec.ofNat 32 k).toNat = pa.toNat + k := toNat_add_byte hpa hk
  have hdk : deviceAt (pa + BitVec.ofNat 32 k) = some .ram := by
    rw [deviceAt_ram] at hd ⊢
    omega
  have htk := translate_add_byte ha hk ht
  have hload : translateAddr s va .load = .ok pa := by
    simpa using translate_add_byte ha (show 0 < 4 by decide) ht .load
  obtain ⟨s1, hstore1, hmem1, htrans1⟩ := storeWord_ram hd w ha ht
  have hrising1 : rising s1.mem = true := hmem1 ▸ rising_memPutWord _ w (rising_of_wf hwf)
  have hword1 : memGetWord s1.mem pa.toNat = w := hmem1 ▸ memGetWord_memPutWord_self _ _ w (rising_of_wf hwf)
  have hbyte1 : ∀ j, j < 4 → memGet s1.mem (pa.toNat + j) = w.extractLsb' (8 * j) 8 := fun j hj => by
    rw [← byte_memGetWord _ _ j hj, hword1]
  obtain ⟨s2, hstore2, hmem2, htrans2⟩ := storeByte_ram hdk b ((htrans1 _ _).trans (htk .store))
  refine ⟨s1, hstore1, ?_, ?_, s2, hstore2, _,
    loadWord_ram hd ha ((htrans2 _ _).trans ((htrans1 _ _).trans hload)), fun j hj => ?_⟩
  · rw [loadByte_ram hdk ((htrans1 _ _).trans (htk .load)), hpak, hbyte1 k hk]
  · rw [loadWord_ram hd ha ((htrans1 _ _).trans hload), hword1]
  · rw [byte_memGetWord _ _ j hj, hmem2, hpak, memGet_memPut _ _ _ _ hrising1, hbyte1 j hj]
    simp only [Nat.add_left_cancel_iff]

/-! ### The bytes that a step can change -/

/-- What an instruction begun in `s` does to memory: nothing, or what its store does. -/
inductive MemoryCase (s s' : State) : Prop where
  | kept (h : s'.mem = s.mem)
  | byteStored (va : Word) (b : Byte) (t : State) (ht : storeByte s va b = .ok t) (h : s' = t.advancePc)
  | wordStored (va w : Word) (t : State) (ht : storeWord s va w = .ok t) (h : s' = t.advancePc)

section MemoryShapes

variable {s s' : State}

theorem memoryCase_writeBack {r : Reg} {v : Word} (h : writeBack s r v = .next s') : MemoryCase s s' := by
  simp only [writeBack, Host.Outcome.next.injEq] at h
  exact .kept (by simp [← h])

theorem memoryCase_branch {taken : Bool} {target : Word}
    (h : controlTransfer s (s.branchPc taken target) = .next s') : MemoryCase s s' :=
  .kept (by simp [(controlTransfer_next h).2])

theorem memoryCase_link {r : Reg} {v target : Word}
    (h : controlTransfer s ((s.setReg r v).branchPc true target) = .next s') : MemoryCase s s' :=
  .kept (by simp [(controlTransfer_next h).2])

/-- An access that raises has changed no memory (R197). -/
theorem memoryCase_access {α : Type} {r : Res α} {f : α → State} (hok : ∀ a, r = .ok a → MemoryCase s (f a))
    (h : finish s (r.bind fun a => .ok (f a)) = .next s') : MemoryCase s s' := by
  rcases finish_next h with h | ⟨e, -, rfl⟩
  · obtain ⟨a, ha, h⟩ := bind_eq_ok.mp h
    rw [Res.ok.injEq] at h
    exact h ▸ hok a ha
  · exact .kept rfl

theorem memoryCase_byteLoad {va : Word} {rt : Reg} {f : Byte → Word}
    (h : finish s ((loadByte s va).bind fun r => .ok ((r.2.setReg rt (f r.1)).advancePc)) = .next s') :
    MemoryCase s s' :=
  memoryCase_access (fun _ hl => by
    obtain ⟨pa, -, hp⟩ := loadByte_ok hl
    exact .kept (by simp [physReadByte_mem hp])) h

end MemoryShapes

theorem eret_next {s s' : State} (h : exec .eret s = .next s') : s' = returnFromException s := by
  simp only [exec, execEret] at h
  split_ifs at h
  exact (Host.Outcome.next.inj h).symm

/-- Of all instructions only sb and sw change memory. -/
theorem exec_memory {i : Instr} {s s' : State} (h : exec i s = .next s') : MemoryCase s s' := by
  cases i with
  | sw _ _ _ => exact memoryCase_access (fun t ht => .wordStored _ _ t ht rfl) h
  | sb _ _ _ => exact memoryCase_access (fun t ht => .byteStored _ _ t ht rfl) h
  | lw _ _ _ => exact memoryCase_access (fun _ _ => .kept (by simp)) h
  | lb _ _ _ => exact memoryCase_byteLoad h
  | lbu _ _ _ => exact memoryCase_byteLoad h
  | beq _ _ _ => exact memoryCase_branch h
  | bne _ _ _ => exact memoryCase_branch h
  | bgez _ _ => exact memoryCase_branch h
  | bgtz _ _ => exact memoryCase_branch h
  | blez _ _ => exact memoryCase_branch h
  | bltz _ _ => exact memoryCase_branch h
  | j _ => exact memoryCase_branch h
  | jr _ => exact memoryCase_branch h
  | jal _ => exact memoryCase_link h
  | jalr _ _ => exact memoryCase_link h
  | mult _ _ => cases h; exact .kept rfl
  | mthi _ => cases h; exact .kept rfl
  | mtlo _ => cases h; exact .kept rfl
  | syscall => cases h; exact .kept rfl
  | eret => exact .kept (by rw [eret_next h, returnFromException_mem])
  | mfc0 _ _ => rcases privileged_cp0_next h with ⟨-, rfl⟩ | ⟨-, r, -, rfl⟩ <;> exact .kept (by simp)
  | mtc0 _ _ => rcases privileged_cp0_next h with ⟨-, rfl⟩ | ⟨-, r, -, rfl⟩ <;> exact .kept (by simp)
  | tlbwi =>
    rcases privileged_next h with ⟨-, rfl⟩ | ⟨-, h | ⟨e, h, -⟩⟩
    · exact .kept rfl
    · cases h; exact .kept rfl
    · cases h
  | _ => exact memoryCase_writeBack h

/-- Byte `a` of memory is one that some store from `s` reaches: it is in RAM or a character cell, in the physical page
to which the store's address translates. -/
def StoreReaches (s : State) (a : Nat) : Prop :=
  writableByte a = true ∧ ∃ va pa, translateAddr s va .store = .ok pa ∧ a / 4096 = pa.toNat / 4096

theorem storeReaches_congr {s t : State} {a : Nat} (hu : t.userMode = s.userMode) (ht : t.tlb = s.tlb)
    (h : StoreReaches t a) : StoreReaches s a := by
  obtain ⟨ha, va, pa, hpa, hpage⟩ := h
  exact ⟨ha, va, pa, (translate_congr va .store hu ht).symm.trans hpa, hpage⟩

/-- A VGA character cell is a byte that the machine writes (R216). -/
theorem writableByte_of_cell {pa : Word} (hd : deviceAt pa = some .vga) (hc : (vgaOffset pa).toNat < 2400) :
    writableByte pa.toNat = true := by
  obtain ⟨hlow, hhigh⟩ := deviceAt_vga.mp hd
  have hoffset : (vgaOffset pa).toNat = pa.toNat % 4096 := by simp [vgaOffset, BitVec.extractLsb'_toNat]
  have hcell : 0x10000000 ≤ pa.toNat ∧ pa.toNat < 0x10000000 + 2400 := by omega
  rw [writableByte, decide_eq_true hcell, Bool.or_true]

section Changes

variable {s t : State} {a : Nat} (hne : t.byteAt a ≠ s.byteAt a)

include hne

/-- A changed byte is the one written. -/
theorem changed_memPut {k : Nat} {b : Byte} (h : t.mem = memPut s.mem k b) : a = k := by
  by_contra hk
  exact hne (by rw [State.byteAt, h, memGet_memPut_other _ _ hk, State.byteAt])

/-- A changed byte is one of the four written. -/
theorem changed_memPutWord {k : Nat} {w : Word} (h : t.mem = memPutWord s.mem k w) : k ≤ a ∧ a < k + 4 := by
  by_contra hk
  exact hne (by rw [State.byteAt, h, memGet_memPutWord_other _ _ hk, State.byteAt])

/-- A byte write changes the byte at its address, in RAM or a character cell (R70, R216). -/
theorem changed_physWriteByte {pa : Word} {b : Byte} (h : physWriteByte s pa b = .ok t) :
    a = pa.toNat ∧ writableByte a = true := by
  rcases physWriteByte_ok h with ⟨hd, rfl⟩ | ⟨hd, rfl⟩ | ⟨-, -, rfl⟩
  · have ha : a = pa.toNat := changed_memPut hne rfl
    have hram := deviceAt_ram.mp hd
    exact ⟨ha, by simp [writableByte, ha, hram]⟩
  · unfold writeVgaByte at hne
    split at hne
    · rename_i hcell
      have ha : a = pa.toNat := changed_memPut hne rfl
      exact ⟨ha, ha ▸ writableByte_of_cell hd hcell⟩
    · exact absurd rfl hne
  · exact absurd rfl hne

/-- A word write changes bytes of the word at its address, in RAM (R70). -/
theorem changed_physWriteWord {pa w : Word} (ha : pa.toNat % 4 = 0) (h : physWriteWord s pa w = .ok t) :
    a / 4 = pa.toNat / 4 ∧ writableByte a = true := by
  obtain ⟨hd, rfl⟩ := physWriteWord_ok h
  obtain ⟨hlow, hhigh⟩ := changed_memPutWord hne rfl
  have hram := deviceAt_ram.mp hd
  exact ⟨by omega, by simp [writableByte, show a ≤ 0x003fffff by omega]⟩

theorem changed_storeByte {va : Word} {b : Byte} (h : storeByte s va b = .ok t) : StoreReaches s a := by
  obtain ⟨pa, hpa, hw⟩ := storeByte_ok h
  obtain ⟨rfl, hwritable⟩ := changed_physWriteByte hne hw
  exact ⟨hwritable, va, pa, hpa, rfl⟩

theorem changed_storeWord {va w : Word} (h : storeWord s va w = .ok t) : StoreReaches s a := by
  obtain ⟨ha, pa, hpa, hw⟩ := storeWord_ok h
  obtain ⟨hword, hwritable⟩ := changed_physWriteWord hne (translate_aligned hpa ha) hw
  exact ⟨hwritable, va, pa, hpa, by omega⟩

theorem changed_exec {i : Instr} (h : exec i s = .next t) : StoreReaches s a := by
  cases exec_memory h with
  | kept h => exact absurd (by rw [State.byteAt, h, State.byteAt]) hne
  | byteStored va b u hu h => exact changed_storeByte (by simpa [h] using hne) hu
  | wordStored va w u hu h => exact changed_storeWord (by simpa [h] using hne) hu

/-- Of the five events of a step only the instruction changes memory, and it by a store. -/
theorem changed_step (h : step s = .next t) : StoreReaches s a := by
  cases step_cases h with
  | interrupt _ h => exact absurd (by rw [h]; rfl) hne
  | watch _ _ h => exact absurd (by rw [h]; rfl) hne
  | fetchRaise _ _ e _ h => exact absurd (by rw [h]; rfl) hne
  | reserved _ _ w _ _ h => exact absurd (by rw [h]; rfl) hne
  | run _ _ w i _ _ h => exact storeReaches_congr rfl rfl (changed_exec (s := s.passTime.beginInsn) hne h)

end Changes

/-- Settles O59: what a store reaches is RAM or a character cell. -/
theorem onlyRamAndVgaChange : Obligations.OnlyRamAndVgaChange := by
  intro s s' a hfixed hstep
  by_contra hne
  obtain ⟨hwritable, -⟩ := changed_step hne hstep
  simp [hfixed] at hwritable

theorem mem_tlb_of_match {s : State} {va : Word} {e : TlbEntry} (h : e ∈ tlbMatches s va) :
    ∃ i : Fin 16, s.tlb[i] = e := by
  have he : e ∈ s.tlb := Vector.mem_toList_iff.mp (List.mem_of_mem_filter h)
  obtain ⟨i, hi, rfl⟩ := Vector.mem_iff_getElem.mp he
  exact ⟨⟨i, hi⟩, rfl⟩

/-- A linear address has bit 31 set (R57, R58). -/
theorem kernelAddress_of_linear {va : Word} (h : linearAddress va = true) : kernelAddress va = true := by
  have htop : (va.extractLsb' 30 2).getLsbD 1 = true := by rw [of_decide_eq_true h]; rfl
  rwa [BitVec.getLsbD_extractLsb'] at htop

/-- From user mode a store goes through the TLB alone, since a linear address is a kernel address (R57, R58). -/
theorem translate_store_user {s : State} {va pa : Word} (hu : s.userMode = true)
    (ht : translateAddr s va .store = .ok pa) :
    ∃ (i : Fin 16) (odd : Bool), s.tlb[i].validOf odd = true ∧ s.tlb[i].writeOf odd = true ∧
      pa.toNat / 4096 = (s.tlb[i].ppnOf odd).toNat := by
  obtain ⟨hmode, ⟨hl, -⟩ | ⟨-, e, he, hvalid, hwrite, rfl⟩⟩ := translate_ok_iff.mp ht
  · rw [hu, Bool.true_and, kernelAddress_of_linear hl] at hmode
    cases hmode
  · obtain ⟨i, rfl⟩ := mem_tlb_of_match (he ▸ List.mem_singleton_self e)
    refine ⟨i, _, hvalid, hwrite rfl, ?_⟩
    rw [append_toNat]
    omega

/-- Settles O58: what a store from user mode reaches lies in a page that an entry maps valid and writable. -/
theorem userStoresInWritablePages : Obligations.UserStoresInWritablePages := by
  intro s s' a hu hstep hne
  obtain ⟨-, va, pa, hpa, hpage⟩ := changed_step hne hstep
  obtain ⟨i, odd, hvalid, hwrite, hppn⟩ := translate_store_user hu hpa
  have ha := hpage.trans hppn
  cases odd with
  | false => exact ⟨i, .inl ⟨hvalid, hwrite, ha⟩⟩
  | true => exact ⟨i, .inr ⟨hvalid, hwrite, ha⟩⟩

end Sys2Proof.Machine

/-!
Encoding (spec/30_encoding.md): the decoder undoes the encoder, the decoder against the rows of the opcode table, the
illegal words, and the words whose unused fields are not 0.
-/
namespace Sys2Proof

/-! ### The decoder undoes the encoder -/

/-- A word that mfc0 or mtc0 may have is not the whole word of tlbwi or eret (R99, R100). -/
theorem decodeCop0_of_sField {w : Word} (h : sField w ∈ [0#5, 4#5]) : decodeCop0 w =
    if sField w = 0#5 then some (.mfc0 (tField w) (dField w)) else some (.mtc0 (tField w) (dField w)) := by
  have htlbwi : w ≠ 0x42000002#32 := by rintro rfl; revert h; decide
  have heret : w ≠ 0x42000018#32 := by rintro rfl; revert h; decide
  rw [decodeCop0, if_neg htlbwi, if_neg heret]
  simp only [List.mem_cons, List.not_mem_nil, or_false] at h
  rcases h with h | h <;> simp [h, Config.cop0SMfc0, Config.cop0SMtc0]

/-- The source bits of an instruction's word select it, with its operands (R96 to R100). -/
theorem decodeSource_encode (i : Instr) : decodeSource (encode i) = some i := by
  cases i with
  | syscall | eret | tlbwi => rfl
  | mfc0 t d | mtc0 t d =>
    simp [encode, decodeSource, decodeCop0_of_sField, Config.cop0SMfc0, Config.cop0SMtc0]
  | bgez s imm | bltz s imm => simp [encode, decodeSource, decodeRegimm]
  | _ => simp [encode, decodeSource, decodeRGroup]

theorem decodeWord_encode (i : Instr) : decodeWord (encode i) = .instr i := by
  rw [decodeWord, decodeSource_encode]
  exact if_pos rfl

/-- Settles O1: the source bits select the instruction, and its word is put together again from its bytes. -/
theorem decodeEncodeAgree : Obligations.DecodeEncodeAgree := fun i =>
  ⟨decodeWord_encode i, by rw [decodeBytes, wordOfBytes_byteOfWord, decodeWord_encode]⟩

/-! ### The rows of the opcode table -/

/-- The word of every instruction matches its row (R96), from the laws proved one by one. -/
theorem encode_matches_row : ∀ i : Instr, encode i &&& (opcodeRow i).1 = (opcodeRow i).2
  | .addu s t d => Laws.EncodeMatchesTable.addu s t d
  | .addiu s t imm => Laws.EncodeMatchesTable.addiu s t imm
  | .subu s t d => Laws.EncodeMatchesTable.subu s t d
  | .slt s t d => Laws.EncodeMatchesTable.slt s t d
  | .slti s t imm => Laws.EncodeMatchesTable.slti s t imm
  | .sltu s t d => Laws.EncodeMatchesTable.sltu s t d
  | .sltiu s t imm => Laws.EncodeMatchesTable.sltiu s t imm
  | .mult s t => Laws.EncodeMatchesTable.mult s t
  | .mflo d => Laws.EncodeMatchesTable.mflo d
  | .mtlo s => Laws.EncodeMatchesTable.mtlo s
  | .mfhi d => Laws.EncodeMatchesTable.mfhi d
  | .mthi s => Laws.EncodeMatchesTable.mthi s
  | .and s t d => Laws.EncodeMatchesTable.and s t d
  | .andi s t imm => Laws.EncodeMatchesTable.andi s t imm
  | .lui t imm => Laws.EncodeMatchesTable.lui t imm
  | .nor s t d => Laws.EncodeMatchesTable.nor s t d
  | .or s t d => Laws.EncodeMatchesTable.or s t d
  | .ori s t imm => Laws.EncodeMatchesTable.ori s t imm
  | .xor s t d => Laws.EncodeMatchesTable.xor s t d
  | .xori s t imm => Laws.EncodeMatchesTable.xori s t imm
  | .sll t d sa => Laws.EncodeMatchesTable.sll t d sa
  | .sllv s t d => Laws.EncodeMatchesTable.sllv s t d
  | .sra t d sa => Laws.EncodeMatchesTable.sra t d sa
  | .srav s t d => Laws.EncodeMatchesTable.srav s t d
  | .srl t d sa => Laws.EncodeMatchesTable.srl t d sa
  | .srlv s t d => Laws.EncodeMatchesTable.srlv s t d
  | .beq s t imm => Laws.EncodeMatchesTable.beq s t imm
  | .bne s t imm => Laws.EncodeMatchesTable.bne s t imm
  | .bgez s imm => Laws.EncodeMatchesTable.bgez s imm
  | .bgtz s imm => Laws.EncodeMatchesTable.bgtz s imm
  | .blez s imm => Laws.EncodeMatchesTable.blez s imm
  | .bltz s imm => Laws.EncodeMatchesTable.bltz s imm
  | .j address => Laws.EncodeMatchesTable.j address
  | .jal address => Laws.EncodeMatchesTable.jal address
  | .jr s => Laws.EncodeMatchesTable.jr s
  | .jalr s d => Laws.EncodeMatchesTable.jalr s d
  | .lw s t imm => Laws.EncodeMatchesTable.lw s t imm
  | .sw s t imm => Laws.EncodeMatchesTable.sw s t imm
  | .lb s t imm => Laws.EncodeMatchesTable.lb s t imm
  | .lbu s t imm => Laws.EncodeMatchesTable.lbu s t imm
  | .sb s t imm => Laws.EncodeMatchesTable.sb s t imm
  | .syscall => Laws.EncodeMatchesTable.syscall
  | .eret => Laws.EncodeMatchesTable.eret
  | .mfc0 t d => Laws.EncodeMatchesTable.mfc0 t d
  | .mtc0 t d => Laws.EncodeMatchesTable.mtc0 t d
  | .tlbwi => Laws.EncodeMatchesTable.tlbwi

/-- The instruction of the row of `i` whose operands are the fields of `w`. -/
def Instr.withFields (w : Word) : Instr → Instr
  | .addu _ _ _ => .addu (sField w) (tField w) (dField w)
  | .addiu _ _ _ => .addiu (sField w) (tField w) (immField w)
  | .subu _ _ _ => .subu (sField w) (tField w) (dField w)
  | .slt _ _ _ => .slt (sField w) (tField w) (dField w)
  | .slti _ _ _ => .slti (sField w) (tField w) (immField w)
  | .sltu _ _ _ => .sltu (sField w) (tField w) (dField w)
  | .sltiu _ _ _ => .sltiu (sField w) (tField w) (immField w)
  | .mult _ _ => .mult (sField w) (tField w)
  | .mflo _ => .mflo (dField w)
  | .mtlo _ => .mtlo (sField w)
  | .mfhi _ => .mfhi (dField w)
  | .mthi _ => .mthi (sField w)
  | .and _ _ _ => .and (sField w) (tField w) (dField w)
  | .andi _ _ _ => .andi (sField w) (tField w) (immField w)
  | .lui _ _ => .lui (tField w) (immField w)
  | .nor _ _ _ => .nor (sField w) (tField w) (dField w)
  | .or _ _ _ => .or (sField w) (tField w) (dField w)
  | .ori _ _ _ => .ori (sField w) (tField w) (immField w)
  | .xor _ _ _ => .xor (sField w) (tField w) (dField w)
  | .xori _ _ _ => .xori (sField w) (tField w) (immField w)
  | .sll _ _ _ => .sll (tField w) (dField w) (saField w)
  | .sllv _ _ _ => .sllv (sField w) (tField w) (dField w)
  | .sra _ _ _ => .sra (tField w) (dField w) (saField w)
  | .srav _ _ _ => .srav (sField w) (tField w) (dField w)
  | .srl _ _ _ => .srl (tField w) (dField w) (saField w)
  | .srlv _ _ _ => .srlv (sField w) (tField w) (dField w)
  | .beq _ _ _ => .beq (sField w) (tField w) (immField w)
  | .bne _ _ _ => .bne (sField w) (tField w) (immField w)
  | .bgez _ _ => .bgez (sField w) (immField w)
  | .bgtz _ _ => .bgtz (sField w) (immField w)
  | .blez _ _ => .blez (sField w) (immField w)
  | .bltz _ _ => .bltz (sField w) (immField w)
  | .j _ => .j (addressField w)
  | .jal _ => .jal (addressField w)
  | .jr _ => .jr (sField w)
  | .jalr _ _ => .jalr (sField w) (dField w)
  | .lw _ _ _ => .lw (sField w) (tField w) (immField w)
  | .sw _ _ _ => .sw (sField w) (tField w) (immField w)
  | .lb _ _ _ => .lb (sField w) (tField w) (immField w)
  | .lbu _ _ _ => .lbu (sField w) (tField w) (immField w)
  | .sb _ _ _ => .sb (sField w) (tField w) (immField w)
  | .syscall => .syscall
  | .eret => .eret
  | .mfc0 _ _ => .mfc0 (tField w) (dField w)
  | .mtc0 _ _ => .mtc0 (tField w) (dField w)
  | .tlbwi => .tlbwi

theorem opcodeRow_withFields (w : Word) (i : Instr) : opcodeRow (i.withFields w) = opcodeRow i := by
  cases i <;> rfl

section Match

variable {w m v : Word} (h : w &&& m = v)

include h

/-- A field of a word that matches: the match under the mask, the word's own bits elsewhere. -/
theorem extract_of_match (a n : Nat) :
    v.extractLsb' a n ||| (w.extractLsb' a n &&& ~~~m.extractLsb' a n) = w.extractLsb' a n := by
  rw [← h, BitVec.extractLsb'_and, ← BitVec.and_or_distrib_left, BitVec.or_not_self, BitVec.and_allOnes]

theorem rWord_of_match : rWord (opField v ||| (opField w &&& ~~~opField m)) (sField v ||| (sField w &&& ~~~sField m))
    (tField v ||| (tField w &&& ~~~tField m)) (dField v ||| (dField w &&& ~~~dField m))
    (saField v ||| (saField w &&& ~~~saField m)) (funcField v ||| (funcField w &&& ~~~funcField m)) = w := by
  simp only [opField, sField, tField, dField, saField, funcField, extract_of_match h]
  exact rWord_fields w

theorem iWord_of_match : iWord (opField v ||| (opField w &&& ~~~opField m)) (sField v ||| (sField w &&& ~~~sField m))
    (tField v ||| (tField w &&& ~~~tField m)) (immField v ||| (immField w &&& ~~~immField m)) = w := by
  simp only [opField, sField, tField, immField, extract_of_match h]
  exact iWord_fields w

theorem jWord_of_match : jWord (opField v ||| (opField w &&& ~~~opField m))
    (addressField v ||| (addressField w &&& ~~~addressField m)) = w := by
  simp only [opField, addressField, extract_of_match h]
  exact jWord_fields w

end Match

/-- All ones, at the widths of a field and of a word: what the complement of a mask is where the mask is 0. -/
theorem and_ones : (∀ x : BitVec 5, x &&& 31#5 = x) ∧ (∀ x : BitVec 16, x &&& 65535#16 = x) ∧
    (∀ x : BitVec 26, x &&& 67108863#26 = x) ∧ ∀ x : BitVec 32, x &&& 4294967295#32 = x :=
  ⟨fun _ => BitVec.and_allOnes, fun _ => BitVec.and_allOnes, fun _ => BitVec.and_allOnes,
    fun _ => BitVec.and_allOnes⟩

/-- A word that matches the row of `i` is the word of an instruction of that row: its own fields stand where the mask
is 0, and the row fixes the others (R96). -/
theorem encode_withFields {w : Word} {i : Instr} (h : w &&& (opcodeRow i).1 = (opcodeRow i).2) :
    encode (i.withFields w) = w := by
  cases i <;> simp only [opcodeRow] at h <;> simp only [encode, Instr.withFields]
  case syscall | eret | tlbwi => simpa [and_ones] using h.symm
  case j | jal => simpa [opField, addressField, and_ones] using jWord_of_match h
  case addiu | slti | sltiu | andi | lui | ori | xori | beq | bne | bgez | bgtz | blez | bltz | lw | sw | lb | lbu
    | sb => simpa [opField, sField, tField, immField, and_ones] using iWord_of_match h
  all_goals
    simpa [opField, sField, tField, dField, saField, funcField, and_ones, Config.cop0SMfc0, Config.cop0SMtc0]
      using rWord_of_match h

/-- Settles O2: a word that matches a row is encoded from that row, and what the decoder answers is encoded to the
word. -/
theorem decoderIsOpcodeTable : Obligations.DecoderIsOpcodeTable := by
  intro w i
  constructor
  · intro hmatch
    have hdecode := decodeWord_encode (i.withFields w)
    rw [encode_withFields hmatch] at hdecode
    exact ⟨i.withFields w, hdecode, opcodeRow_withFields w i⟩
  · rintro ⟨j, hdecode, hrow⟩
    rw [← hrow, ← encode_of_decodeWord hdecode]
    exact encode_matches_row j

/-! ### The illegal words -/

/-- Only a word whose source bits select nothing is illegal (R101). -/
theorem decodeWord_reserved_iff (w : Word) : decodeWord w = .reserved ↔ decodeSource w = none := by
  rcases decodeWord_cases w with ⟨i, hs, -, hd⟩ | ⟨hs, hd⟩ | ⟨i, hs, -, hd⟩ <;> simp [hs, hd]

theorem decodeRGroup_eq_none_iff (w : Word) : decodeRGroup w = none ↔
    funcField w ∉ [0#6, 2#6, 3#6, 4#6, 6#6, 7#6, 8#6, 9#6, 12#6, 16#6, 17#6, 18#6, 19#6, 24#6, 33#6, 35#6, 36#6, 37#6,
      38#6, 39#6, 42#6, 43#6] := by
  unfold decodeRGroup
  split <;> simp_all

theorem decodeRegimm_eq_none_iff (w : Word) : decodeRegimm w = none ↔ tField w ∉ [0#5, 1#5] := by
  unfold decodeRegimm
  split <;> simp_all

theorem decodeCop0_eq_none_iff (w : Word) : decodeCop0 w = none ↔
    sField w ∉ [0#5, 4#5] ∧ w ≠ 0x42000002#32 ∧ w ≠ 0x42000018#32 := by
  unfold decodeCop0
  split_ifs <;> simp_all [Config.cop0SMfc0, Config.cop0SMtc0]

theorem decodeSource_eq_none_iff (w : Word) : decodeSource w = none ↔
    opField w ∉ [0#6, 1#6, 2#6, 3#6, 4#6, 5#6, 6#6, 7#6, 9#6, 10#6, 11#6, 12#6, 13#6, 14#6, 15#6, 16#6, 32#6, 35#6,
        36#6, 40#6, 43#6] ∨
      (opField w = 0#6 ∧ decodeRGroup w = none) ∨ (opField w = 1#6 ∧ decodeRegimm w = none) ∨
      (opField w = 16#6 ∧ decodeCop0 w = none) := by
  unfold decodeSource
  split <;> simp_all

/-! ### Unused fields that are not 0 -/

/-- A word that selects an instruction whose own word `u` is another has an unused field that is not 0 (R102). -/
theorem decodeWord_unused {w u : Word} (hu : (decodeSource w).map encode = some u) (hne : u ≠ w) :
    decodeWord w = .unusedFieldSet := by
  rcases decodeWord_cases w with ⟨i, hs, he, -⟩ | ⟨hs, -⟩ | ⟨i, -, -, hd⟩
  · rw [hs, Option.map_some, he, Option.some.injEq] at hu
    exact absurd hu.symm hne
  · rw [hs, Option.map_none] at hu
    cases hu
  · exact hd

theorem rWord_inj {op op' : BitVec 6} {s s' t t' d d' : Reg} {sa sa' : BitVec 5} {func func' : BitVec 6} :
    rWord op s t d sa func = rWord op' s' t' d' sa' func' ↔
      op = op' ∧ s = s' ∧ t = t' ∧ d = d' ∧ sa = sa' ∧ func = func' := by
  constructor
  · intro h
    exact ⟨by simpa using congrArg opField h, by simpa using congrArg sField h, by simpa using congrArg tField h,
      by simpa using congrArg dField h, by simpa using congrArg saField h, by simpa using congrArg funcField h⟩
  · rintro ⟨rfl, rfl, rfl, rfl, rfl, rfl⟩
    rfl

theorem iWord_inj {op op' : BitVec 6} {s s' t t' : Reg} {imm imm' : Imm} :
    iWord op s t imm = iWord op' s' t' imm' ↔ op = op' ∧ s = s' ∧ t = t' ∧ imm = imm' := by
  constructor
  · intro h
    exact ⟨by simpa using congrArg opField h, by simpa using congrArg sField h, by simpa using congrArg tField h,
      by simpa using congrArg immField h⟩
  · rintro ⟨rfl, rfl, rfl, rfl⟩
    rfl

/-- The same of R-type words, which differ in some field. -/
theorem rWord_unused {op : BitVec 6} {s t d s' t' d' : Reg} {sa sa' : BitVec 5} {func func' : BitVec 6}
    (hu : (decodeSource (rWord op s t d sa func)).map encode = some (rWord op s' t' d' sa' func'))
    (hne : s ≠ s' ∨ t ≠ t' ∨ d ≠ d' ∨ sa ≠ sa' ∨ func ≠ func') :
    decodeWord (rWord op s t d sa func) = .unusedFieldSet := by
  refine decodeWord_unused hu fun heq => ?_
  obtain ⟨-, rfl, rfl, rfl, rfl, rfl⟩ := rWord_inj.mp heq
  simp at hne

/-! The own word of the instruction that a word selects, group by group (R97, R99, R102). -/

section Selected

variable (s t d : Reg) (sa : BitVec 5) (func : BitVec 6) (imm : Imm)

theorem selected_threeRegisters (hf : func ∈ [4#6, 6#6, 7#6, 33#6, 35#6, 36#6, 37#6, 38#6, 39#6, 42#6, 43#6]) :
    (decodeSource (rWord 0#6 s t d sa func)).map encode = some (rWord 0#6 s t d 0#5 func) := by
  fin_cases hf <;> simp [decodeSource, decodeRGroup, encode]

theorem selected_shift (hf : func ∈ [0#6, 2#6, 3#6]) :
    (decodeSource (rWord 0#6 s t d sa func)).map encode = some (rWord 0#6 0#5 t d sa func) := by
  fin_cases hf <;> simp [decodeSource, decodeRGroup, encode]

theorem selected_jr : (decodeSource (rWord 0#6 s t d sa 8#6)).map encode = some (rWord 0#6 s 0#5 0#5 0#5 8#6) := by
  simp [decodeSource, decodeRGroup, encode]

theorem selected_jalr : (decodeSource (rWord 0#6 s t d sa 9#6)).map encode = some (rWord 0#6 s 0#5 d 0#5 9#6) := by
  simp [decodeSource, decodeRGroup, encode]

theorem selected_syscall :
    (decodeSource (rWord 0#6 s t d sa 12#6)).map encode = some (rWord 0#6 0#5 0#5 0#5 0#5 12#6) := by
  simp only [decodeSource, opField_rWord, decodeRGroup, funcField_rWord, Option.map_some]
  rfl

theorem selected_moveFrom (hf : func ∈ [16#6, 18#6]) :
    (decodeSource (rWord 0#6 s t d sa func)).map encode = some (rWord 0#6 0#5 0#5 d 0#5 func) := by
  fin_cases hf <;> simp [decodeSource, decodeRGroup, encode]

theorem selected_moveTo (hf : func ∈ [17#6, 19#6]) :
    (decodeSource (rWord 0#6 s t d sa func)).map encode = some (rWord 0#6 s 0#5 0#5 0#5 func) := by
  fin_cases hf <;> simp [decodeSource, decodeRGroup, encode]

theorem selected_mult : (decodeSource (rWord 0#6 s t d sa 24#6)).map encode = some (rWord 0#6 s t 0#5 0#5 24#6) := by
  simp [decodeSource, decodeRGroup, encode]

theorem selected_lui : (decodeSource (iWord 15#6 s t imm)).map encode = some (iWord 15#6 0#5 t imm) := by
  simp [decodeSource, encode]

theorem selected_branchOnZero (op : BitVec 6) (hop : op ∈ [6#6, 7#6]) :
    (decodeSource (iWord op s t imm)).map encode = some (iWord op s 0#5 imm) := by
  fin_cases hop <;> simp [decodeSource, encode]

theorem selected_moveCp0 (hs : s ∈ [0#5, 4#5]) :
    (decodeSource (rWord 16#6 s t d sa func)).map encode = some (rWord 16#6 s t d 0#5 0#6) := by
  fin_cases hs <;> simp [decodeSource, decodeCop0_of_sField, encode, Config.cop0SMfc0, Config.cop0SMtc0]

end Selected

theorem lui_unused {s t : Reg} {imm : Imm} (h : s ≠ 0#5) : decodeWord (iWord 15#6 s t imm) = .unusedFieldSet :=
  decodeWord_unused (selected_lui s t imm) fun heq =>
    let ⟨_, hs, _⟩ := iWord_inj.mp heq
    h hs.symm

theorem branchOnZero_unused {op : BitVec 6} {s t : Reg} {imm : Imm} (hop : op ∈ [6#6, 7#6]) (h : t ≠ 0#5) :
    decodeWord (iWord op s t imm) = .unusedFieldSet :=
  decodeWord_unused (selected_branchOnZero s t imm op hop) fun heq =>
    let ⟨_, _, ht, _⟩ := iWord_inj.mp heq
    h ht.symm

end Sys2Proof

namespace Sys2Proof.Machine

section StepOfWord

variable {s : State} {w : Word} (hi : s.passTime.interruptDue = false) (hw : s.passTime.watchHit = false)
  (hf : fetch s.passTime = .ok w)

include hi hw hf

theorem step_fetched : step s = runWord s.passTime w := by
  simp [step, stepAt, hi, hw, hf]

theorem step_reserved (hd : decodeWord w = .reserved) : step s = .next (takeException .ri s.passTime.beginInsn) := by
  rw [step_fetched hi hw hf, runWord, hd]

theorem step_unusedFieldSet (hd : decodeWord w = .unusedFieldSet) : step s = .refused .unusedFieldSet := by
  rw [step_fetched hi hw hf, runWord, hd]

end StepOfWord

/-- Settles O4: the words for which each level of the decoder selects nothing. -/
theorem illegalWordsRaiseReserved : Obligations.IllegalWordsRaiseReserved := by
  refine ⟨fun w => ?_, fun _ _ => step_reserved⟩
  rw [decodeWord_reserved_iff, decodeSource_eq_none_iff, decodeRGroup_eq_none_iff, decodeRegimm_eq_none_iff,
    decodeCop0_eq_none_iff]

/-- Settles O5: each group's own word has 0 in the unused fields, so another word of the group is not it. -/
theorem unusedFieldsRefused : Obligations.UnusedFieldsRefused :=
  ⟨fun s t d sa func _ =>
    ⟨fun hf h => rWord_unused (selected_threeRegisters s t d sa func hf) (by simpa using h),
      fun hf h => rWord_unused (selected_shift s t d sa func hf) (by simpa using h),
      fun h => rWord_unused (selected_jr s t d sa) (by simpa using h),
      fun h => rWord_unused (selected_jalr s t d sa) (by simpa using h),
      fun h => rWord_unused (selected_syscall s t d sa) (by simpa using h),
      fun hf h => rWord_unused (selected_moveFrom s t d sa func hf) (by simpa using h),
      fun hf h => rWord_unused (selected_moveTo s t d sa func hf) (by simpa using h),
      fun h => rWord_unused (selected_mult s t d sa) (by simpa using h),
      lui_unused,
      fun h => ⟨branchOnZero_unused (by decide) h, branchOnZero_unused (by decide) h⟩,
      fun hs h => rWord_unused (selected_moveCp0 s t d sa func hs) (by simpa using h)⟩,
    fun _ _ => step_unusedFieldSet⟩

end Sys2Proof.Machine

/-!
Arithmetic, logic, shifts and the multiply registers (spec/40_arithmetic.md): the words of the instructions, what the
machine's operators on words are as arithmetic and as halves, the two ways in which these instructions end, and the
results themselves.
-/
namespace Sys2Proof

/-! ### The words of the instructions -/

/-- A word decodes to an instruction exactly when it is that instruction's own word (R96). -/
theorem decodeWord_eq_instr_iff {w : Word} {i : Instr} : decodeWord w = .instr i ↔ encode i = w :=
  ⟨encode_of_decodeWord, fun h => h ▸ decodeWord_encode i⟩

/-- Settles O3: each sample word is the encoder's word of its instruction. -/
theorem sampleWordsDecode : Obligations.SampleWordsDecode := by
  simp only [Obligations.SampleWordsDecode, decodeWord_eq_instr_iff]
  decide

end Sys2Proof

namespace Sys2Proof.Machine

/-! ### Addition, subtraction and comparison as arithmetic (R137) -/

/-- Addition is modulo 2^32, and does not depend on how its operands are read. -/
theorem add_eq_ofNat (a b : Word) : a + b = BitVec.ofNat 32 (a.toNat + b.toNat) :=
  BitVec.eq_of_toNat_eq (by simp)

theorem add_eq_ofInt (a b : Word) : a + b = BitVec.ofInt 32 (a.toInt + b.toInt) := by
  rw [BitVec.ofInt_add, BitVec.ofInt_toInt, BitVec.ofInt_toInt]

theorem sub_eq_ofInt (a b : Word) : a - b = BitVec.ofInt 32 (a.toNat - b.toNat) := by
  rw [Int.sub_eq_add_neg, BitVec.ofInt_add, BitVec.ofInt_neg, BitVec.ofInt_natCast, BitVec.ofInt_natCast,
    BitVec.ofNat_toNat, BitVec.ofNat_toNat, BitVec.setWidth_eq, BitVec.setWidth_eq, BitVec.sub_eq_add_neg]

theorem truthWord_lessSigned (a b : Word) :
    truthWord (lessSigned a b) = if a.toInt < b.toInt then 1#32 else 0#32 := by
  simp [truthWord, lessSigned]

theorem truthWord_lessUnsigned (a b : Word) :
    truthWord (lessUnsigned a b) = if a.toNat < b.toNat then 1#32 else 0#32 := by
  simp [truthWord, lessUnsigned]

/-! ### The immediates (R95) -/

/-- Sign extension keeps the signed value. -/
theorem toInt_signExtImm (imm : Imm) : (signExtImm imm).toInt = imm.toInt :=
  BitVec.toInt_signExtend_of_le (by decide)

/-- sltiu's immediate keeps the unsigned value: it is zero-extended (R117). -/
theorem toNat_sltiuImm (imm : Imm) : (sltiuImm imm).toNat = imm.toNat :=
  BitVec.toNat_setWidth_of_le (by decide)

theorem zeroExtImm_eq_append (imm : Imm) : zeroExtImm imm = 0#16 ++ imm :=
  BitVec.setWidth_eq_append (by decide)

theorem upperImm_eq_ofNat (imm : Imm) : upperImm imm = BitVec.ofNat 32 (imm.toNat * 65536) := by
  refine BitVec.eq_of_toNat_eq ?_
  have hfits : imm.toNat * 65536 < 2 ^ 32 := by omega
  rw [upperImm, BitVec.toNat_append, BitVec.toNat_ofNat, BitVec.toNat_ofNat, Nat.zero_mod, Nat.or_zero,
    Nat.shiftLeft_eq, Nat.mod_eq_of_lt hfits]

/-! ### Logic with a zero-extended immediate, half by half -/

/-- A word is put together again from its halves. -/
theorem halves_append (a : Word) : a.extractLsb' 16 16 ++ a.extractLsb' 0 16 = a :=
  BitVec.extractLsb'_append_extractLsb'

/-- The upper half of the result is 0 (R124). -/
theorem and_zeroExtImm (a : Word) (imm : Imm) : a &&& zeroExtImm imm = 0#16 ++ (a.extractLsb' 0 16 &&& imm) := by
  conv_lhs => rw [← halves_append a, zeroExtImm_eq_append, BitVec.and_append, BitVec.and_zero]

/-- The upper half is the operand's (R128). -/
theorem or_zeroExtImm (a : Word) (imm : Imm) :
    a ||| zeroExtImm imm = a.extractLsb' 16 16 ++ (a.extractLsb' 0 16 ||| imm) := by
  conv_lhs => rw [← halves_append a, zeroExtImm_eq_append, BitVec.or_append, BitVec.or_zero]

/-- The upper half is the operand's (R130). -/
theorem xor_zeroExtImm (a : Word) (imm : Imm) :
    a ^^^ zeroExtImm imm = a.extractLsb' 16 16 ++ (a.extractLsb' 0 16 ^^^ imm) := by
  conv_lhs => rw [← halves_append a, zeroExtImm_eq_append, BitVec.xor_append, BitVec.xor_zero]

/-! ### Shifts as arithmetic (R131 to R136) -/

theorem shiftLeft_eq_ofNat (a : Word) (n : Nat) : a <<< n = BitVec.ofNat 32 (a.toNat * 2 ^ n) :=
  BitVec.eq_of_toNat_eq (by simp [Nat.shiftLeft_eq])

theorem ushiftRight_eq_ofNat (a : Word) (n : Nat) : a >>> n = BitVec.ofNat 32 (a.toNat / 2 ^ n) := by
  rw [← Nat.shiftRight_eq_div_pow, ← BitVec.toNat_ushiftRight, BitVec.ofNat_toNat, BitVec.setWidth_eq]

/-- The quotient is rounded towards minus infinity, as `Int`'s division by a positive number is. -/
theorem sshiftRight_eq_ofInt (a : Word) (n : Nat) : a.sshiftRight n = BitVec.ofInt 32 (a.toInt / 2 ^ n) := by
  rw [← BitVec.ofInt_toInt (x := a.sshiftRight n), BitVec.toInt_sshiftRight, Int.shiftRight_eq_div_pow, Nat.cast_pow,
    Nat.cast_ofNat]

/-- The amount of a variable shift is the register modulo 32 (decision D4). -/
theorem shiftAmount_eq_mod (w : Word) : shiftAmount w = w.toNat % 32 := by
  simp [shiftAmount, BitVec.extractLsb'_toNat]

/-! ### The product (R118) -/

/-- The product of two signed words fits in 64 bits, the square of -2^31 included. -/
theorem toInt_signedProduct (a b : Word) : (signedProduct a b).toInt = a.toInt * b.toInt := by
  have hlow : -2 ^ 62 ≤ a.toInt * b.toInt := BitVec.le_toInt_mul_toInt
  have hhigh : a.toInt * b.toInt ≤ 2 ^ 62 := BitVec.toInt_mul_toInt_le
  exact BitVec.toInt_ofInt_eq_self (by decide) (by omega) (by omega)

/-! ### How these instructions end -/

/-- An instruction that ends with `writeBack` completes, and writes its one register. -/
theorem writeBack_completes (s : State) (r : Reg) {v w : Word} (h : v = w) :
    ∃ s', writeBack s r v = .next s' ∧ OnlyRegWritten r w s s' :=
  ⟨_, rfl, h ▸ (writeBack_onlyRegWritten s r v).2⟩

theorem setHi_self (s : State) : s.setHi s.hi = s := rfl

theorem setLo_self (s : State) : s.setLo s.lo = s := rfl

/-- `hi` and `lo` written, and on to the next instruction. -/
theorem setHi_setLo_onlyHiLoWritten (s : State) (h l : Word) :
    OnlyHiLoWritten h l s ((s.setHi h).setLo l).advancePc := by
  constructor <;> simp [SameRegs, SameCp0, SameTlb, SameMemory, SameSerial, SameClock, State.byteAt]

/-- `hi` alone written. -/
theorem setHi_onlyHiLoWritten (s : State) (h : Word) : OnlyHiLoWritten h s.lo s (s.setHi h).advancePc := by
  simpa only [← setHi_lo s h, setLo_self] using setHi_setLo_onlyHiLoWritten s h s.lo

/-- `lo` alone written. -/
theorem setLo_onlyHiLoWritten (s : State) (l : Word) : OnlyHiLoWritten s.hi l s (s.setLo l).advancePc := by
  simpa only [setHi_self] using setHi_setLo_onlyHiLoWritten s s.hi l

/-! ### The results -/

/-- Settles O44: the halves of the product put together again are the product, which fits. -/
theorem multiplyIsExact : Obligations.MultiplyIsExact := by
  intro s rs rt
  have hhalves := BitVec.extractLsb'_append_extractLsb' (w := 32) (len := 32) (x := signedProduct (s.reg rs) (s.reg rt))
  refine ⟨decodeWord_encode (.mult rs rt), _, _, _, rfl, setHi_setLo_onlyHiLoWritten s _ _, ?_⟩
  rw [hhalves, toInt_signedProduct]

/-- Settles O36: each result is `writeBack`'s value, read as the arithmetic of the statement. -/
theorem addAndCompare : Obligations.AddAndCompare := fun s rs rt rd =>
  ⟨decodeWord_encode (.addu rs rt rd), decodeWord_encode (.slt rs rt rd), decodeWord_encode (.sltu rs rt rd),
    writeBack_completes s rd (add_eq_ofNat _ _), writeBack_completes s rd (truthWord_lessSigned _ _),
    writeBack_completes s rd (truthWord_lessUnsigned _ _)⟩

/-- Settles O37: the difference is taken between unsigned values; or and nor are the operators themselves. -/
theorem subtractOrNor : Obligations.SubtractOrNor := fun s rs rt rd =>
  ⟨decodeWord_encode (.subu rs rt rd), decodeWord_encode (.or rs rt rd), decodeWord_encode (.nor rs rt rd),
    writeBack_completes s rd (sub_eq_ofInt _ _), writeBack_completes s rd rfl, writeBack_completes s rd rfl⟩

/-- Settles O38: both results are the operators themselves. -/
theorem andXor : Obligations.AndXor := fun s rs rt rd =>
  ⟨decodeWord_encode (.and rs rt rd), decodeWord_encode (.xor rs rt rd), writeBack_completes s rd rfl,
    writeBack_completes s rd rfl⟩

/-- Settles O39: the immediate enters with its signed value. -/
theorem signedImmediates : Obligations.SignedImmediates := fun s rs rt imm =>
  ⟨decodeWord_encode (.addiu rs rt imm), decodeWord_encode (.slti rs rt imm),
    writeBack_completes s rt (by rw [add_eq_ofInt, toInt_signExtImm]),
    writeBack_completes s rt (by rw [truthWord_lessSigned, toInt_signExtImm])⟩

/-- Settles O40: each half of the result apart, and lui as a product. -/
theorem logicImmediates : Obligations.LogicImmediates := fun s rs rt imm =>
  ⟨decodeWord_encode (.andi rs rt imm), decodeWord_encode (.ori rs rt imm), decodeWord_encode (.xori rs rt imm),
    decodeWord_encode (.lui rt imm), writeBack_completes s rt (and_zeroExtImm _ imm),
    writeBack_completes s rt (or_zeroExtImm _ imm), writeBack_completes s rt (xor_zeroExtImm _ imm),
    writeBack_completes s rt (upperImm_eq_ofNat imm)⟩

/-- Settles O41: the immediate enters with its unsigned value. -/
theorem compareUnsignedImmediate : Obligations.CompareUnsignedImmediate := fun s rs rt imm =>
  ⟨decodeWord_encode (.sltiu rs rt imm),
    writeBack_completes s rt (by rw [truthWord_lessUnsigned, toNat_sltiuImm])⟩

/-- Settles O42: each shift as a product or a quotient. -/
theorem shiftsByAmount : Obligations.ShiftsByAmount := fun s rt rd sa =>
  ⟨decodeWord_encode (.sll rt rd sa), decodeWord_encode (.sra rt rd sa), decodeWord_encode (.srl rt rd sa),
    writeBack_completes s rd (shiftLeft_eq_ofNat _ _), writeBack_completes s rd (sshiftRight_eq_ofInt _ _),
    writeBack_completes s rd (ushiftRight_eq_ofNat _ _)⟩

/-- Settles O43: the shifts of O42, by the register modulo 32. -/
theorem shiftsByRegister : Obligations.ShiftsByRegister := fun s rs rt rd =>
  ⟨decodeWord_encode (.sllv rs rt rd), decodeWord_encode (.srav rs rt rd), decodeWord_encode (.srlv rs rt rd),
    writeBack_completes s rd (by rw [shiftLeft_eq_ofNat, shiftAmount_eq_mod]),
    writeBack_completes s rd (by rw [sshiftRight_eq_ofInt, shiftAmount_eq_mod]),
    writeBack_completes s rd (by rw [ushiftRight_eq_ofNat, shiftAmount_eq_mod])⟩

/-- Settles O45: a move from `hi` or `lo` ends with `writeBack`, a move to one of them writes it alone. -/
theorem hiLoMoves : Obligations.HiLoMoves := fun s r =>
  ⟨decodeWord_encode (.mflo r), decodeWord_encode (.mtlo r), decodeWord_encode (.mfhi r), decodeWord_encode (.mthi r),
    writeBack_completes s r rfl, ⟨_, rfl, setLo_onlyHiLoWritten s _⟩, writeBack_completes s r rfl,
    ⟨_, rfl, setHi_onlyHiLoWritten s _⟩⟩

end Sys2Proof.Machine

/-!
Branches and jumps (spec/41_branch.md): all ten as one control transfer, what each leaves unchanged, the delay slot
after one, and a second execution of it; and where the privileged instructions stop by name (spec/44_privileged.md).
-/
namespace Sys2Proof.Machine

/-! ### The control transfer -/

@[simp] theorem controlTransfer_of_free {s : State} (hds : s.ds = false) (t : State) :
    controlTransfer s t = .next t := by simp [controlTransfer, hds]

@[simp] theorem controlTransfer_of_delaySlot {s : State} (hds : s.ds = true) (t : State) :
    controlTransfer s t = .refused .controlInDelaySlot := by simp [controlTransfer, hds]

/-- A transfer writes no more than the program counter. -/
theorem branchPc_onlyPcWritten (s : State) (taken : Bool) (target : Word) :
    OnlyPcWritten s (s.branchPc taken target) := by
  constructor <;> simp [SameRegs, SameHiLo, SameCp0, SameTlb, SameMemory, SameSerial, SameClock, State.byteAt]

/-- A transfer that links writes the link register besides. -/
theorem link_onlyRegWritten (s : State) (r : Reg) (v : Word) (taken : Bool) (target : Word) :
    OnlyRegWritten r v s ((s.setReg r v).branchPc taken target) where
  target := reg_setReg_self s r v
  others _ h := reg_setReg_other s v h
  hiLo := by simp [SameHiLo]
  cp0 := by simp [SameCp0]
  tlb := by simp [SameTlb]
  memory := by simp [SameMemory, State.byteAt]
  serial := by simp [SameSerial]
  clock := by simp [SameClock]
  stores := by simp

/-! ### The ten branches and jumps as one -/

/-- The register that a branch or jump links to; x[0] stands for no link. -/
def linkReg : Instr → Reg
  | .jal _ => 31#5
  | .jalr _ d => d
  | _ => 0#5

/-- Whether a branch is taken, by what the registers read; a jump always is. -/
def takesTransfer (x : Reg → Word) : Instr → Bool
  | .beq a b _ => x a == x b
  | .bne a b _ => x a != x b
  | .bgez a _ => atLeastZero (x a)
  | .bgtz a _ => aboveZero (x a)
  | .blez a _ => atMostZero (x a)
  | .bltz a _ => belowZero (x a)
  | _ => true

/-- Where a branch or jump at `pc` goes if taken, by what the registers read. -/
def transferTarget (x : Reg → Word) (pc : Word) : Instr → Word
  | .beq _ _ imm | .bne _ _ imm | .bgez _ imm | .bgtz _ imm | .blez _ imm | .bltz _ imm => branchTarget pc imm
  | .j address | .jal address => jumpTarget pc address
  | .jr a | .jalr a _ => x a
  | _ => pc

/-- The state after a branch or jump. -/
def afterTransfer (i : Instr) (s : State) : State :=
  (s.setReg (linkReg i) (linkValue s.pc)).branchPc (takesTransfer s.reg i) (transferTarget s.reg s.pc i)

/-- Every branch and jump is a control transfer to `afterTransfer`. -/
theorem exec_control {i : Instr} (hc : isControl i = true) (s : State) :
    exec i s = controlTransfer s (afterTransfer i s) := by
  cases i with
  | beq | bne | bgez | bgtz | blez | bltz | j | jal | jr | jalr => rfl
  | _ => simp [isControl] at hc

theorem exec_control_next {i : Instr} {s s' : State} (hc : isControl i = true) (h : exec i s = .next s') :
    s.ds = false ∧ s' = afterTransfer i s :=
  controlTransfer_next (exec_control hc s ▸ h)

@[simp] theorem afterTransfer_pc (i : Instr) (s : State) : (afterTransfer i s).pc = s.npc := by simp [afterTransfer]
@[simp] theorem afterTransfer_ds (i : Instr) (s : State) : (afterTransfer i s).ds = true := rfl
@[simp] theorem afterTransfer_npc (i : Instr) (s : State) : (afterTransfer i s).npc =
    if takesTransfer s.reg i then transferTarget s.reg s.pc i else s.npc + 4#32 := by simp [afterTransfer]
@[simp] theorem afterTransfer_reg (i : Instr) (s : State) (r : Reg) :
    (afterTransfer i s).reg r = (s.setReg (linkReg i) (linkValue s.pc)).reg r := rfl

/-! ### In a delay slot -/

theorem exec_eret_of_delaySlot {s : State} (hds : s.ds = true) : exec .eret s = .refused .controlInDelaySlot := by
  simp [exec, execEret, hds]

/-- Settles O49: `controlTransfer` refuses the ten branches and jumps, and eret refuses itself. -/
theorem controlInDelaySlotRefused : Obligations.ControlInDelaySlotRefused := by
  rintro i s (hc | rfl) hds
  · rw [exec_control hc, controlTransfer_of_delaySlot hds]
  · exact exec_eret_of_delaySlot hds

/-- An instruction that completes in a delay slot goes on at npc, the target of the branch, or takes an exception. -/
theorem exec_of_delaySlot {i : Instr} {s s' : State} (hds : s.ds = true) (h : exec i s = .next s') :
    SequentialPc s s' ∨ ∃ e, s' = takeException e s := by
  by_cases hc : isControl i = true ∨ i = .eret
  · simp [controlInDelaySlotRefused i s hc hds] at h
  · obtain ⟨hcontrol, heret⟩ := not_or.mp hc
    exact (sequentialAdvance i s s' (by simpa using hcontrol) heret h).imp_right fun ⟨e, _, _, hs'⟩ => ⟨e, hs'⟩

/-- `s'` is a state in the handler of an exception that recorded the branch at `branch`, in front of its delay slot. -/
structure BranchRecorded (branch ebase : Word) (s' : State) : Prop where
  epc : s'.cp0.epc = branch
  bd : s'.cp0.cause.getLsbD 31 = true
  exl : s'.cp0.status.getLsbD 1 = true
  ds : s'.ds = false
  pc : s'.pc = ebase ∨ s'.pc = ebase + 0x180#32

/-- The two entry points (R196). -/
theorem exnVector_cases (ebase : Word) (e : Exn) : exnVector ebase e = ebase ∨ exnVector ebase e = ebase + 0x180#32 := by
  cases e <;> simp [exnVector]

/-- An exception in a delay slot records the branch, 4 in front of it (R195). -/
theorem takeException_of_delaySlot {s : State} (hds : s.ds = true) (e : Exn) :
    BranchRecorded (s.pc - 4#32) s.cp0.ebase (takeException e s) where
  epc := by simp [restartAddress, hds]
  bd := (trapCp0_bd e s).trans hds
  exl := trapCp0_exl e s
  ds := rfl
  pc := takeException_pc e s ▸ exnVector_cases s.cp0.ebase e

/-- A step in a delay slot, whatever its event. -/
theorem step_of_delaySlot {s s' : State} (hds : s.ds = true) (h : step s = .next s') :
    SequentialPc s s' ∨ BranchRecorded (s.pc - 4#32) s.cp0.ebase s' := by
  have htime : ∀ e, BranchRecorded (s.pc - 4#32) s.cp0.ebase (takeException e s.passTime) :=
    takeException_of_delaySlot (s := s.passTime) hds
  have hbegun : ∀ e, BranchRecorded (s.pc - 4#32) s.cp0.ebase (takeException e s.passTime.beginInsn) :=
    takeException_of_delaySlot (s := s.passTime.beginInsn) hds
  cases step_cases h with
  | interrupt _ h => exact .inr (h ▸ htime .int)
  | watch _ _ h => exact .inr (h ▸ htime .debug)
  | fetchRaise _ _ e _ h => exact .inr (h ▸ htime e)
  | reserved _ _ _ _ _ h => exact .inr (h ▸ hbegun .ri)
  | run _ _ w i _ _ h =>
    rcases exec_of_delaySlot (s := s.passTime.beginInsn) hds h with hseq | ⟨e, rfl⟩
    · exact .inl hseq
    · exact .inr (hbegun e)

/-- Settles O50: after a branch or jump the machine stands in its delay slot, 4 behind it. -/
theorem delaySlotThenTarget : Obligations.DelaySlotThenTarget := by
  intro s s1 s2 i hc hnpc hexec hstep
  obtain ⟨-, rfl⟩ := exec_control_next hc hexec
  rcases step_of_delaySlot (afterTransfer_ds i s) hstep with hseq | hrec
  · exact .inl hseq
  · rw [afterTransfer_pc, hnpc, BitVec.add_sub_cancel] at hrec
    exact .inr ⟨hrec.epc, hrec.bd, hrec.exl, hrec.ds, hrec.pc⟩

/-! ### A branch or jump executed again -/

/-- Registers that agree but for the link decide a well-formed branch or jump alike (R153). -/
theorem transfer_congr {i : Instr} {x y : Reg → Word} (hwf : i.wellFormed = true)
    (hxy : ∀ r, linkSparesTarget r (linkReg i) = true → y r = x r) :
    takesTransfer y i = takesTransfer x i ∧ ∀ pc, transferTarget y pc i = transferTarget x pc i := by
  cases i with
  | jalr a d => exact ⟨rfl, fun _ => hxy a hwf⟩
  | jal => exact ⟨rfl, fun _ => rfl⟩
  | _ =>
    obtain rfl : y = x := funext fun r => hxy r (by simp [linkReg, linkSparesTarget])
    exact ⟨rfl, fun _ => rfl⟩

/-- A register write leaves every register that a link there spares. -/
theorem reg_setReg_of_spared (s : State) {r d : Reg} (v : Word) (h : linkSparesTarget r d = true) :
    (s.setReg d v).reg r = s.reg r := by
  obtain hne | rfl : d ≠ r ∨ d = 0#5 := by simpa [linkSparesTarget] using h
  · exact reg_setReg_other s v hne.symm
  · rw [setReg_zero]

/-- The same register write made again changes no register. -/
theorem sameRegs_setReg_again {s t : State} {r : Reg} {v : Word} (h : SameRegs (s.setReg r v) t) :
    SameRegs (s.setReg r v) (t.setReg r v) := by
  intro q
  by_cases hq : q = r
  · rw [hq, reg_setReg_self, reg_setReg_self]
  · rw [reg_setReg_other t v hq, h q]

/-- Settles O51: the second execution reads what the first one read, and writes the same link. -/
theorem branchCanBeRestarted : Obligations.BranchCanBeRestarted := by
  intro i s s1 t hc hwf hexec hregs hpc hnpc hds
  obtain ⟨-, rfl⟩ := exec_control_next hc hexec
  have hread : ∀ r, linkSparesTarget r (linkReg i) = true → t.reg r = s.reg r := fun r hr =>
    (hregs r).trans (reg_setReg_of_spared s (linkValue s.pc) hr)
  obtain ⟨htaken, htarget⟩ := transfer_congr hwf hread
  refine ⟨afterTransfer i t, by rw [exec_control hc, controlTransfer_of_free hds], ?_, ?_, rfl, ?_⟩
  · rw [afterTransfer_pc, afterTransfer_pc, hnpc]
  · rw [afterTransfer_npc, afterTransfer_npc, htaken, htarget, hpc, hnpc]
  · intro r
    rw [afterTransfer_reg, afterTransfer_reg, hpc]
    exact sameRegs_setReg_again hregs r

/-! ### The results of the branches and jumps -/

/-- The offset counts instructions (R151, decision D5). -/
theorem branchTarget_eq_ofInt (pc : Word) (imm : Imm) :
    branchTarget pc imm = pc + 4#32 + BitVec.ofInt 32 (imm.toInt * 4) := by
  rw [branchTarget, Config.branchOffsetShift, BitVec.shiftLeft_eq_mul_twoPow, ← toInt_signExtImm, BitVec.ofInt_mul,
    BitVec.ofInt_toInt]
  rfl

/-- A conditional branch outside a delay slot, whatever its condition. -/
theorem branch_completes {s : State} (hds : s.ds = false) {taken : Prop} {c : Bool} (hc : taken ↔ c = true)
    (target : Word) :
    ∃ s', controlTransfer s (s.branchPc c target) = .next s' ∧ OnlyPcWritten s s' ∧ s'.pc = s.npc ∧ s'.ds = true ∧
      (taken → s'.npc = target) ∧ (¬ taken → s'.npc = s.npc + 4#32) :=
  ⟨_, controlTransfer_of_free hds _, branchPc_onlyPcWritten s c target, rfl, rfl,
    fun h => by simp [hc.mp h], fun h => by simp [Bool.eq_false_iff.mpr fun h' => h (hc.mpr h')]⟩

/-- Settles O46: each branch is `branch_completes` with its own condition. -/
theorem conditionalBranches : Obligations.ConditionalBranches := by
  intro s rs rt imm T hds hT i taken hi
  obtain rfl : T = branchTarget s.pc imm := hT.trans (branchTarget_eq_ofInt s.pc imm).symm
  rcases hi with ⟨rfl, h⟩ | ⟨rfl, h⟩ | ⟨rfl, h⟩ | ⟨rfl, h⟩ | ⟨rfl, h⟩ | ⟨rfl, h⟩
  · exact branch_completes hds (h.trans beq_iff_eq.symm) _
  · exact branch_completes hds (h.trans bne_iff_ne.symm) _
  · exact branch_completes hds (h.trans decide_eq_true_iff.symm) _
  · exact branch_completes hds (h.trans decide_eq_true_iff.symm) _
  · exact branch_completes hds (h.trans decide_eq_true_iff.symm) _
  · exact branch_completes hds (h.trans decide_eq_true_iff.symm) _

/-- Settles O47: both are transfers that write the program counter alone. -/
theorem jumpsWithoutLink : Obligations.JumpsWithoutLink := fun s rs address hds =>
  ⟨decodeWord_encode (.j address), decodeWord_encode (.jr rs),
    ⟨_, controlTransfer_of_free hds _, branchPc_onlyPcWritten s true _, rfl, rfl, rfl⟩,
    ⟨_, controlTransfer_of_free hds _, branchPc_onlyPcWritten s true _, rfl, rfl, rfl⟩⟩

/-- A jump that links, outside a delay slot. -/
theorem link_completes {s : State} (hds : s.ds = false) (r : Reg) (v target : Word) :
    ∃ s', controlTransfer s ((s.setReg r v).branchPc true target) = .next s' ∧ OnlyRegWritten r v s s' ∧
      s'.pc = s.npc ∧ s'.ds = true ∧ s'.npc = target :=
  ⟨_, controlTransfer_of_free hds _, link_onlyRegWritten s r v true target, setReg_npc s r v, rfl, rfl⟩

/-- Settles O48: both are `link_completes`, the target taken from the state before the link. -/
theorem jumpsWithLink : Obligations.JumpsWithLink := fun s rs rd address hds =>
  ⟨decodeWord_encode (.jal address), decodeWord_encode (.jalr rs rd),
    link_completes hds 31#5 (s.pc + 8#32) (jumpTarget s.pc address), link_completes hds rd (s.pc + 8#32) (s.reg rs)⟩

/-! ### The stops of the privileged instructions -/

theorem privileged_of_kernel {s : State} (hk : s.userMode = false) (r : Res State) : privileged s r = finish s r := by
  simp [privileged, hk]

/-- Settles O21: eret tests the delay slot, then the mode; a number that names no register is refused in kernel mode. -/
theorem privilegedStops : Obligations.PrivilegedStops := by
  refine fun s t d => ⟨exec_eret_of_delaySlot, fun hds hu => ?_, fun hk hnone => ⟨?_, ?_⟩⟩
  · simp [exec, execEret, hds, hu]
  · rw [exec, execMfc0, privileged_of_kernel hk, hnone, finish_refuse]
  · rw [exec, execMtc0, privileged_of_kernel hk, hnone, finish_refuse]

end Sys2Proof.Machine

/-!
Loads and stores (spec/42_load_store.md): how an access ends its instruction, the words and bytes that RAM, ROM and Flash
answer, and the frame and the date of a store to RAM.
-/
namespace Sys2Proof.Machine

/-! ### How an access ends its instruction -/

/-- An exception that the access raises is taken (R197). -/
theorem finish_bind_raise {α : Type} {s : State} {r : Res α} {f : α → Res State} {e : Exn} (h : r = .raise e) :
    finish s (r.bind f) = .next (takeException e s) := by
  rw [h, bind_raise, finish_raise]

/-- An access that answers completes its instruction. -/
theorem finish_bind_ok {α : Type} {s : State} {r : Res α} {a : α} {f : α → State} (h : r = .ok a) :
    finish s (r.bind fun a => .ok (f a)) = .next (f a) := by
  rw [h, bind_ok, finish_ok]

/-- Going on to the next instruction writes no more than the program counter. -/
theorem advancePc_onlyPcWritten (s : State) : OnlyPcWritten s s.advancePc := by
  constructor <;> simp [SameRegs, SameHiLo, SameCp0, SameTlb, SameMemory, SameSerial, SameClock]

/-- A misaligned word access is an address error before it is translated (R54, R61). -/
theorem loadWord_misaligned {s : State} {va : Word} (h : va.toNat % 4 ≠ 0) : loadWord s va = .raise (.adel va) :=
  if_neg (by rwa [wordAligned_iff])

theorem storeWord_misaligned {s : State} {va : Word} (w : Word) (h : va.toNat % 4 ≠ 0) :
    storeWord s va w = .raise (.ades va) :=
  if_neg (by rwa [wordAligned_iff])

/-- What the translation raises, the access raises (R60). -/
theorem loadWord_raise_of_translate {s : State} {va : Word} {e : Exn} (ha : va.toNat % 4 = 0)
    (ht : translateAddr s va .load = .raise e) : loadWord s va = .raise e := by
  rw [loadWord_aligned ha, ht, bind_raise]

theorem storeWord_raise_of_translate {s : State} {va : Word} {e : Exn} (w : Word) (ha : va.toNat % 4 = 0)
    (ht : translateAddr s va .store = .raise e) : storeWord s va w = .raise e := by
  rw [storeWord_aligned w ha, ht, bind_raise]

theorem loadByte_raise_of_translate {s : State} {va : Word} {e : Exn} (ht : translateAddr s va .load = .raise e) :
    loadByte s va = .raise e := by
  rw [loadByte, ht, bind_raise]

theorem storeByte_raise_of_translate {s : State} {va : Word} {e : Exn} (b : Byte)
    (ht : translateAddr s va .store = .raise e) : storeByte s va b = .raise e := by
  rw [storeByte, ht, bind_raise]

/-! ### Loads -/

section Loads

variable {s : State} {rs rt : Reg} {imm : Imm}

/-- A word that the load answers is written to the register, and nothing else. -/
theorem wordLoad_completes {w : Word} (h : loadWord s (effectiveAddress (s.reg rs) imm) = .ok w) :
    ∃ s', exec (.lw rs rt imm) s = .next s' ∧ OnlyRegWritten rt w s s' :=
  ⟨_, finish_bind_ok h, (writeBack_onlyRegWritten s rt w).2⟩

/-- A byte that the load answers is extended into the register, on top of what the read did to a device (R163, R164). -/
theorem byteLoads_complete {b : Byte} {t : State} (h : loadByte s (effectiveAddress (s.reg rs) imm) = .ok (b, t)) :
    (∃ s', exec (.lb rs rt imm) s = .next s' ∧ OnlyRegWritten rt (b.signExtend 32) t s') ∧
      ∃ s', exec (.lbu rs rt imm) s = .next s' ∧ OnlyRegWritten rt (b.setWidth 32) t s' :=
  ⟨⟨_, finish_bind_ok h, (writeBack_onlyRegWritten t rt _).2⟩, _, finish_bind_ok h, (writeBack_onlyRegWritten t rt _).2⟩

theorem byteLoads_raise {e : Exn} (h : loadByte s (effectiveAddress (s.reg rs) imm) = .raise e) :
    exec (.lb rs rt imm) s = .next (takeException e s) ∧ exec (.lbu rs rt imm) s = .next (takeException e s) :=
  ⟨finish_bind_raise h, finish_bind_raise h⟩

/-- lw at an aligned address that translates: the device decides what it loads (R70, R71). -/
theorem wordLoad_described {pa : Word} (ha : (effectiveAddress (s.reg rs) imm).toNat % 4 = 0)
    (ht : translateAddr s (effectiveAddress (s.reg rs) imm) .load = .ok pa) :
    (deviceAt pa = some .ram ∨ deviceAt pa = some .rom → ∃ s', exec (.lw rs rt imm) s = .next s' ∧
      OnlyRegWritten rt (wordOfBytes (s.byteAt pa.toNat) (s.byteAt (pa.toNat + 1)) (s.byteAt (pa.toNat + 2))
        (s.byteAt (pa.toNat + 3))) s s') ∧
    (deviceAt pa = some .flash → ∃ s', exec (.lw rs rt imm) s = .next s' ∧
      OnlyRegWritten rt (wordOfBytes (s.byteAt pa.toNat) (s.byteAt (pa.toNat + 1)) 0#8 0#8) s s') := by
  have hread : loadWord s (effectiveAddress (s.reg rs) imm) = physReadWord s pa := by
    rw [loadWord_aligned ha, ht, bind_ok]
  exact ⟨fun hd => wordLoad_completes (hread.trans (physReadWord_bytes hd)),
    fun hd => wordLoad_completes (hread.trans (physReadWord_cell hd))⟩

end Loads

/-! ### Stores to RAM -/

/-- Byte `k` of a word stands at its address plus `k` once it is written (R51). -/
theorem memGet_memPutWord_byte {m : Memory} (a : Nat) (w : Word) {k : Nat} (hk : k < 4) (h : rising m = true) :
    memGet (memPutWord m a w) (a + k) = w.extractLsb' (8 * k) 8 := by
  rw [← byte_memGetWord _ _ k hk, memGetWord_memPutWord_self m a w h]

/-- The state after an instruction that leaves memory `m` by a store to the RAM address `pa`. -/
def afterRamStore (s : State) (pa : Word) (m : Memory) : State := ((s.setMem m).logStore pa).advancePc

section RamStores

variable {s : State} {pa : Word} {m : Memory}

@[simp] theorem afterRamStore_byteAt (a : Nat) : (afterRamStore s pa m).byteAt a = memGet m a := rfl

/-- A store to RAM changes no more than the bytes in which the new memory differs. -/
theorem afterRamStore_onlyMemoryWritten {n : Nat}
    (hm : ∀ a, ¬ (pa.toNat ≤ a ∧ a < pa.toNat + n) → memGet m a = s.byteAt a) :
    OnlyMemoryWritten pa.toNat n s (afterRamStore s pa m) where
  regs _ := rfl
  hiLo := ⟨rfl, rfl⟩
  cp0 := rfl
  tlb _ := rfl
  memory := hm
  serial := ⟨rfl, rfl⟩
  clock := ⟨rfl, rfl, rfl, rfl, rfl⟩

/-- A store to RAM dates its word with the current instruction, and no other word (R81). -/
theorem afterRamStore_dated :
    logGet (afterRamStore s pa m).storeLog (pa.toNat / 4) = some s.insns ∧
      ∀ k, k ≠ pa.toNat / 4 → logGet (afterRamStore s pa m).storeLog k = logGet s.storeLog k :=
  ⟨logGet_logPut_self _ _ _, fun _ hk => logGet_logPut_other _ _ hk⟩

variable {rs rt : Reg} {imm : Imm} (hd : deviceAt pa = some .ram)
  (ht : translateAddr s (effectiveAddress (s.reg rs) imm) .store = .ok pa)

include hd ht

/-- sw to RAM (R162). -/
theorem exec_sw_ram (ha : (effectiveAddress (s.reg rs) imm).toNat % 4 = 0) :
    exec (.sw rs rt imm) s = .next (afterRamStore s pa (memPutWord s.mem pa.toNat (s.reg rt))) :=
  finish_bind_ok (by rw [storeWord_aligned _ ha, ht, bind_ok, physWriteWord, hd])

/-- sb to RAM (R165). -/
theorem exec_sb_ram :
    exec (.sb rs rt imm) s = .next (afterRamStore s pa (memPut s.mem pa.toNat (lowByte (s.reg rt)))) :=
  finish_bind_ok (by rw [storeByte, ht, bind_ok, physWriteByte, hd])

end RamStores

end Sys2Proof.Machine

/-! The obligations stand under a name of their own, since the model's accesses have the names of the instructions. -/
namespace Sys2Proof.LoadStore

open Sys2Proof.Machine

/-- Settles O26: the test of alignment, then the translation, then the device. -/
theorem loadWord : Obligations.LoadWord := by
  intro s rs rt imm ea hea
  obtain rfl : ea = effectiveAddress (s.reg rs) imm := hea
  exact ⟨decodeWord_encode (.lw rs rt imm), fun hmis => finish_bind_raise (loadWord_misaligned hmis), fun ha =>
    ⟨fun e ht => finish_bind_raise (loadWord_raise_of_translate ha ht), fun pa ht => wordLoad_described ha ht⟩⟩

/-- Settles O27: lb and lbu end as their one byte read does. -/
theorem loadByte : Obligations.LoadByte := by
  intro s rs rt imm ea hea
  obtain rfl : ea = effectiveAddress (s.reg rs) imm := hea
  exact ⟨decodeWord_encode (.lb rs rt imm), decodeWord_encode (.lbu rs rt imm), fun e => byteLoads_raise,
    fun b t => byteLoads_complete, fun e => loadByte_raise_of_translate, fun pa ht hd => loadByte_ram hd ht⟩

/-- Settles O28: the test of alignment, then the translation, then the four bytes in RAM. -/
theorem storeWord : Obligations.StoreWord := by
  refine fun s rs rt imm hwf => ⟨decodeWord_encode (.sw rs rt imm), rfl,
    fun hmis => finish_bind_raise (storeWord_misaligned _ hmis), fun ha =>
    ⟨fun e ht => finish_bind_raise (storeWord_raise_of_translate _ ha ht), fun pa ht hd => ?_⟩⟩
  have hbyte : ∀ k, k < 4 → memGet (memPutWord s.mem pa.toNat (s.reg rt)) (pa.toNat + k) =
      (s.reg rt).extractLsb' (8 * k) 8 :=
    fun k hk => memGet_memPutWord_byte pa.toNat (s.reg rt) hk (rising_of_wf hwf)
  exact ⟨_, exec_sw_ram hd ht ha, afterRamStore_onlyMemoryWritten fun a hout => memGet_memPutWord_other _ _ hout,
    hbyte 0 (by omega), hbyte 1 (by omega), hbyte 2 (by omega), hbyte 3 (by omega), afterRamStore_dated⟩

/-- Settles O29: sb ends as its one byte write does, and to RAM it is the byte put at its address. -/
theorem storeByte : Obligations.StoreByte := by
  refine fun s rs rt imm hwf => ⟨decodeWord_encode (.sb rs rt imm), rfl, fun e => finish_bind_raise,
    fun t hstore => ⟨_, finish_bind_ok hstore, advancePc_onlyPcWritten t⟩,
    fun e b => storeByte_raise_of_translate b, fun pa ht hd => ?_⟩
  have hother : ∀ a, ¬ (pa.toNat ≤ a ∧ a < pa.toNat + 1) →
      memGet (memPut s.mem pa.toNat (lowByte (s.reg rt))) a = s.byteAt a :=
    fun a hout => memGet_memPut_other _ _ (by omega)
  exact ⟨_, exec_sb_ram hd ht, afterRamStore_onlyMemoryWritten hother,
    memGet_memPut_self _ _ _ (rising_of_wf hwf), afterRamStore_dated⟩

end Sys2Proof.LoadStore

/-!
The trap instruction (spec/43_trap.md): syscall raises Sys and reads nothing of the state, neither the mode nor the delay
slot.
-/
namespace Sys2Proof.Machine

theorem exec_syscall (s : State) : exec .syscall s = .next (takeException .sys s) := by
  rw [exec, execSyscall, finish_raise]

/-- Settles O14: the word is the encoder's word of syscall, and `exec_syscall` holds of every state. -/
theorem syscallTraps : Obligations.SyscallTraps :=
  ⟨decodeWord_encode .syscall, exec_syscall⟩

end Sys2Proof.Machine

/-!
The privileged instructions and the mode (spec/44_privileged.md): what a step from user mode can do, and what eret,
mfc0, mtc0 and tlbwi do in each mode.
-/
namespace Sys2Proof.Machine

/-! ### The mode (R205) -/

theorem userMode_iff (s : State) :
    s.userMode = true ↔ s.cp0.status.getLsbD 4 = true ∧ s.cp0.status.getLsbD 1 = false := by
  simp [State.userMode, Cp0.um, Cp0.exl]

/-- The mode is read from CP0 alone, and time does not touch it. -/
theorem userMode_of_cp0_eq {s t : State} (h : t.cp0 = s.passTime.cp0) : t.userMode = s.userMode := by
  rw [State.userMode, h]
  rfl

/-! ### A step from user mode -/

/-- An instruction begun in user mode leaves CP0 and the TLB, or takes an exception (R172, R206). -/
theorem exec_of_user {i : Instr} {s s' : State} (hu : s.userMode = true) (h : exec i s = .next s') :
    (s'.cp0 = s.cp0 ∧ s'.tlb = s.tlb) ∨ ∃ e, s' = takeException e s := by
  cases exec_effect h with
  | trap e => exact .inr ⟨e, rfl⟩
  | eret _ hk => simp [hk] at hu
  | mtc0 _ _ hk => simp [hk] at hu
  | tlbwi hk => simp [hk] at hu
  | _ => exact .inl (by simp)

/-- `s'` is the entry of an exception taken in a step from `s`: after the time of the step, before or after an
instruction is begun. -/
def TrapFrom (s s' : State) : Prop :=
  ∃ e t, (t = s.passTime ∨ t = s.passTime.beginInsn) ∧ s' = takeException e t

/-- A step from user mode changes `count` alone of CP0 and nothing of the TLB, or takes an exception: four of its five
events are exceptions, and the fifth is an instruction begun in user mode. -/
theorem step_of_user {s s' : State} (hu : s.userMode = true) (h : step s = .next s') :
    (s'.cp0 = s.passTime.cp0 ∧ s'.tlb = s.tlb) ∨ TrapFrom s s' := by
  cases step_cases h with
  | interrupt _ h => exact .inr ⟨_, _, .inl rfl, h⟩
  | watch _ _ h => exact .inr ⟨_, _, .inl rfl, h⟩
  | fetchRaise _ _ e _ h => exact .inr ⟨e, _, .inl rfl, h⟩
  | reserved _ _ _ _ _ h => exact .inr ⟨_, _, .inr rfl, h⟩
  | run _ _ _ _ _ _ h =>
    rcases exec_of_user (s := s.passTime.beginInsn) hu h with hkept | ⟨e, h⟩
    · exact .inl hkept
    · exact .inr ⟨e, _, .inr rfl, h⟩

/-- `s'` stands in kernel mode at one of the two vectors of `s`, with `exl` 1 and what a handler relies on unchanged. -/
structure HandlerEntered (s s' : State) : Prop where
  tlb : SameTlb s s'
  um : s'.cp0.um = s.cp0.um
  kernel : s'.userMode = false
  exl : s'.cp0.exl = true
  regs : SameRegs s s'
  hiLo : SameHiLo s s'
  memory : SameMemory s s'
  pc : s'.pc = s.cp0.ebase ∨ s'.pc = s.cp0.ebase + 0x180#32

/-- Neither time nor the beginning of an instruction touches what trap entry keeps (R195, R196). -/
theorem handlerEntered_of_trapFrom {s s' : State} (h : TrapFrom s s') : HandlerEntered s s' := by
  obtain ⟨e, t, rfl | rfl, rfl⟩ := h <;> exact
    { tlb := fun _ => rfl
      um := trapCp0_um e _
      kernel := takeException_userMode e _
      exl := trapCp0_exl e _
      regs := fun _ => rfl
      hiLo := ⟨rfl, rfl⟩
      memory := fun _ => rfl
      pc := takeException_pc e _ ▸ exnVector_cases s.cp0.ebase e }

/-- Settles O57: the two outcomes of `step_of_user`, and the exception's frame. -/
theorem userModeConfined : Obligations.UserModeConfined := by
  intro s s' hu h
  have hum : s.cp0.um = true := ((userMode_iff s).mp hu).1
  rcases step_of_user hu h with ⟨hcp0, htlb⟩ | htrap
  · have hum' : s'.cp0.um = true := by rw [hcp0]; exact hum
    exact ⟨fun i => by rw [htlb], hum', .inl ⟨(userMode_of_cp0_eq hcp0).trans hu, hcp0⟩⟩
  · have hentry := handlerEntered_of_trapFrom htrap
    exact ⟨hentry.tlb, hentry.um.trans hum,
      .inr ⟨hentry.kernel, hentry.exl, hentry.regs, hentry.hiLo, hentry.memory, hentry.pc⟩⟩

/-! ### eret (R173) -/

theorem exec_eret_of_kernel {s : State} (hds : s.ds = false) (hk : s.userMode = false) :
    exec .eret s = .next (returnFromException s) := by
  simp [exec, execEret, hds, hk]

/-- With `exl` cleared the mode is `um`. -/
theorem returnFromException_userMode (s : State) : (returnFromException s).userMode = s.cp0.um := by
  simp [State.userMode]

/-- Settles O15: `returnFromException`, field by field and status bit by bit. -/
theorem eretReturns : Obligations.EretReturns :=
  ⟨decodeWord_encode .eret, fun s hds hk =>
    ⟨_, exec_eret_of_kernel hds hk, getLsbD_statusWithExl s.cp0.status false, rfl, rfl, rfl, rfl,
      returnFromException_userMode s, fun _ => rfl, ⟨rfl, rfl⟩, fun _ => rfl, fun _ => rfl, ⟨rfl, rfl⟩,
      ⟨rfl, rfl, rfl, rfl, rfl⟩, rfl⟩⟩

/-! ### Reserved in user mode (R172) -/

theorem privileged_of_user {s : State} (hu : s.userMode = true) (r : Res State) :
    privileged s r = .next (takeException .ri s) := by
  simp [privileged, hu]

/-- Settles O16: each of the three is a privileged operation, whatever its result. -/
theorem privilegedInUserModeReserved : Obligations.PrivilegedInUserModeReserved := by
  intro s t d hum hexl
  have hu : s.userMode = true := (userMode_iff s).mpr ⟨hum, hexl⟩
  exact ⟨privileged_of_user hu _, privileged_of_user hu _, privileged_of_user hu _⟩

/-! ### mfc0 (R174) -/

theorem exec_mfc0_of_kernel {s : State} {d : Reg} {r : Cp0Reg} (hk : s.userMode = false)
    (hr : cp0RegOfNumber d = some r) (t : Reg) : exec (.mfc0 t d) s = writeBack s t (readCp0 s r) := by
  rw [exec, execMfc0, privileged_of_kernel hk, hr, finish_ok, writeBack]

/-- A register that is described whole reads as it is held (R19). -/
theorem readCp0_whole {s : State} {r q : Cp0Reg} (hq : cp0DescribedBits q = 0xffffffff#32) (h : r = q) :
    readCp0 s r = cp0Get s.cp0 q := by
  rw [h, readCp0, if_pos hq]

/-- The described bits read as they are held, whatever the others read as (R19, log 17). -/
theorem readCp0_described {s : State} {r q : Cp0Reg} {m : Word} (hq : cp0DescribedBits q = m) (h : r = q) :
    readCp0 s r &&& m = cp0Get s.cp0 q &&& m := by
  rw [h, readCp0, hq]
  split
  · rfl
  · ext i hi
    simp only [BitVec.getElem_and, BitVec.getElem_or, BitVec.getElem_not]
    cases m[i] <;> simp

/-- Settles O18: mfc0 ends with `writeBack`, and its value has the described bits of the register. -/
theorem mfc0ReadsRegister : Obligations.Mfc0ReadsRegister := fun s t d r hk hr =>
  ⟨decodeWord_encode (.mfc0 t d), readCp0 s r, _, exec_mfc0_of_kernel hk hr t,
    (writeBack_onlyRegWritten s t (readCp0 s r)).2, readCp0_described rfl, readCp0_described rfl, readCp0_described rfl,
    readCp0_described rfl, readCp0_described rfl, readCp0_described rfl, readCp0_whole rfl, readCp0_whole rfl,
    readCp0_whole rfl, readCp0_whole rfl, readCp0_whole rfl, readCp0_whole rfl, readCp0_whole rfl⟩

/-! ### mtc0 (R175) -/

theorem exec_mtc0_of_kernel {s : State} {d : Reg} {r : Cp0Reg} (hk : s.userMode = false)
    (hr : cp0RegOfNumber d = some r) (t : Reg) : exec (.mtc0 t d) s = .next (writeCp0 s r (s.reg t)).advancePc := by
  rw [exec, execMtc0, privileged_of_kernel hk, hr, finish_ok]

theorem writeCp0_onlyCp0Written (s : State) (r : Cp0Reg) (v : Word) :
    OnlyCp0Written (cp0Set s.cp0 r v) s (writeCp0 s r v).advancePc := by
  constructor <;> simp [SameRegs, SameHiLo, SameTlb, SameMemory, SameSerial, State.byteAt]

/-- Settles O19: `cp0Set` writes the named register and keeps the others. -/
theorem mtc0WritesRegister : Obligations.Mtc0WritesRegister := by
  intro s t d r hk hr
  refine ⟨decodeWord_encode (.mtc0 t d), _, exec_mtc0_of_kernel hk hr t, ?_⟩
  rw [advancePc_cp0, writeCp0_cp0]
  exact ⟨writeCp0_onlyCp0Written s r (s.reg t), by rw [cp0Get_cp0Set, if_pos rfl],
    fun q hq => by rw [cp0Get_cp0Set, if_neg hq], writeCp0_timerHeld s r (s.reg t)⟩

/-! ### tlbwi (R176) -/

theorem exec_tlbwi_of_kernel {s : State} (hk : s.userMode = false) :
    exec .tlbwi s = .next (s.setTlb (tlbIndex s.cp0) (tlbEntryOfCp0 s.cp0)).advancePc := by
  rw [exec, execTlbwi, privileged_of_kernel hk, finish_ok]

theorem setTlb_onlyTlbWritten (s : State) (i : BitVec 4) (e : TlbEntry) :
    OnlyTlbWritten i.toFin e s (s.setTlb i e).advancePc where
  target := (tlb_setTlb s i e i.toFin).trans (if_pos rfl)
  others j hj := (tlb_setTlb s i e j).trans (if_neg hj)
  regs := fun _ => rfl
  hiLo := ⟨rfl, rfl⟩
  cp0 := rfl
  memory := fun _ => rfl
  serial := ⟨rfl, rfl⟩
  clock := ⟨rfl, rfl, rfl, rfl, rfl⟩
  stores := rfl

/-- Settles O20: in kernel mode the entry of the four registers is written whole. -/
theorem tlbwiWritesEntry : Obligations.TlbwiWritesEntry :=
  ⟨decodeWord_encode .tlbwi, fun s => ⟨fun hu => privileged_of_user hu _, fun hk =>
    ⟨_, exec_tlbwi_of_kernel hk, setTlb_onlyTlbWritten s (tlbIndex s.cp0) (tlbEntryOfCp0 s.cp0)⟩⟩⟩

end Sys2Proof.Machine

/-!
The events before an instruction, trap entry and the clock (spec/60_exceptions.md R186 to R215): which event a step took
can be read off its next state, since an instruction counts itself and each exception leaves its own code in cause.
-/
namespace Sys2Proof.Machine

/-! ### The interrupt and the debug exception (R189, R191, R194) -/

/-- No instruction changes the number of instructions begun. -/
theorem exec_insns {i : Instr} {s s' : State} (h : exec i s = .next s') : s'.insns = s.insns := by
  cases exec_effect h <;> simp

/-- Two exceptions that have the same effect have the same code, which cause shows (R180). -/
theorem exnCode_of_takeException_eq {e f : Exn} {s : State} (h : takeException e s = takeException f s) :
    exnCode e = exnCode f := by
  have hec : (trapCp0 e s).ec = (trapCp0 f s).ec := congrArg (fun t => t.cp0.ec) h
  rwa [trapCp0_ec, trapCp0_ec] at hec

/-- An exception that a step takes before it begins an instruction is an interrupt, a debug exception or one of the
fetch, and its code says which (R194). -/
theorem step_trap_cases {e : Exn} {s : State} (h : step s = .next (takeException e s.passTime)) :
    (s.passTime.interruptDue = true ∧ exnCode e = 0#5) ∨
      (s.passTime.interruptDue = false ∧ s.passTime.watchHit = true ∧ exnCode e = 23#5) ∨
      exnCode e = 4#5 ∨ exnCode e = 2#5 := by
  cases step_cases h with
  | interrupt hi h => exact .inl ⟨hi, exnCode_of_takeException_eq h⟩
  | watch hi hw h => exact .inr (.inl ⟨hi, hw, exnCode_of_takeException_eq h⟩)
  | fetchRaise _ _ f hf h =>
    have hcode : exnCode e = exnCode f := exnCode_of_takeException_eq h
    rcases fetch_raise hf with rfl | rfl
    · exact .inr (.inr (.inl hcode))
    · exact .inr (.inr (.inr hcode))
  | reserved _ _ _ _ _ h =>
    have hinsns : s.insns = s.insns + 1 := congrArg State.insns h
    omega
  | run _ _ _ _ _ _ h =>
    have hinsns : s.insns = s.insns + 1 := exec_insns h
    omega

theorem step_of_interruptDue {s : State} (hi : s.passTime.interruptDue = true) :
    step s = .next (takeException .int s.passTime) := by
  rw [step, stepAt, if_pos hi]

theorem step_of_watchHit {s : State} (hi : s.passTime.interruptDue = false) (hw : s.passTime.watchHit = true) :
    step s = .next (takeException .debug s.passTime) := by
  rw [step, stepAt, if_neg (by simp [hi]), if_pos hw]

theorem step_interrupt_iff (s : State) :
    step s = .next (takeException .int s.passTime) ↔ s.passTime.interruptDue = true := by
  refine ⟨fun h => ?_, step_of_interruptDue⟩
  rcases step_trap_cases h with ⟨hi, -⟩ | ⟨-, -, hcode⟩ | hcode | hcode
  · exact hi
  all_goals exact absurd hcode (by decide)

theorem step_debug_iff (s : State) :
    step s = .next (takeException .debug s.passTime) ↔
      s.passTime.interruptDue = false ∧ s.passTime.watchHit = true := by
  refine ⟨fun h => ?_, fun ⟨hi, hw⟩ => step_of_watchHit hi hw⟩
  rcases step_trap_cases h with ⟨-, hcode⟩ | ⟨hi, hw, -⟩ | hcode | hcode
  case inr.inl => exact ⟨hi, hw⟩
  all_goals exact absurd hcode (by decide)

/-- Time changes the lines, and neither the enable bits nor the mask of status. -/
theorem interruptDue_passTime_iff (s : State) : s.passTime.interruptDue = true ↔
    s.cp0.status.getLsbD 0 = true ∧ s.cp0.status.getLsbD 1 = false ∧
      s.passTime.irq &&& s.cp0.status.extractLsb' 8 8 ≠ 0#8 := by
  simp [State.interruptDue, Cp0.ie, Cp0.exl, Cp0.im, and_assoc]

/-- Time changes neither the pc nor a watch register. -/
theorem watchHit_passTime_iff (s : State) :
    s.passTime.watchHit = true ↔ s.pc = s.cp0.watchlo ∨ s.pc = s.cp0.watchhi := by
  have hsame : s.passTime.watchHit = s.watchHit := rfl
  rw [hsame, State.watchHit, Bool.or_eq_true, decide_eq_true_eq, decide_eq_true_eq]

/-- Settles O8: no other event of a step ends as an interrupt does, by the codes and the count of instructions. -/
theorem interruptTakenIffDue : Obligations.InterruptTakenIffDue := fun s =>
  (step_interrupt_iff s).trans (interruptDue_passTime_iff s)

/-- Settles O9: no other event of a step ends as a debug exception does, by the codes and the count of instructions. -/
theorem debugTakenIffWatched : Obligations.DebugTakenIffWatched := fun s =>
  (step_debug_iff s).trans (and_congr_right' (watchHit_passTime_iff s))

/-! ### Trap entry (R195) -/

/-- cause keeps the bits outside its three fields (R199). -/
theorem trapCp0_cause_kept (e : Exn) (s : State) {k : Nat} (hbd : k < 31) (hec : ¬ (2 ≤ k ∧ k < 7))
    (hip : ¬ (8 ≤ k ∧ k < 16)) : (trapCp0 e s).cause.getLsbD k = s.cp0.cause.getLsbD k := by
  rw [trapCp0_cause, getLsbD_causeWith _ _ _ _ _ (by omega), if_neg (by omega), if_neg hip, if_neg hec]

/-- Settles O13: the registers of `trapCp0` one by one, the vector of the exception, and the frame of
`takeException`. -/
theorem trapEntryEffect : Obligations.TrapEntryEffect := by
  intro e s
  refine ⟨trapCp0_epc e s, trapCp0_bd e s, (trapCp0_ec e s).trans ?code, trapCp0_ip e s,
    (trapCp0_badaddr e s).trans ?badaddr, getLsbD_statusWithExl s.cp0.status true,
    fun k hbd hec hip => trapCp0_cause_kept e s hbd hec hip, (takeException_pc e s).trans ?vector, rfl, rfl, rfl,
    fun _ => rfl, ⟨rfl, rfl⟩, fun _ => rfl, fun _ => rfl, ⟨rfl, rfl⟩, ⟨rfl, rfl, rfl, rfl, rfl⟩⟩
  all_goals cases e <;> rfl

/-! ### The timer (R208, R210) -/

/-- `compare` is reached when it is one of the k values that `count` passes, count + 1 to count + k. -/
theorem timerReached_iff_passed (count compare : Word) (k : Nat) :
    timerReached count compare k = true ↔ ∃ j, 1 ≤ j ∧ j ≤ k ∧ compare = count + BitVec.ofNat 32 j := by
  have hsucc : ∀ j, count + 1#32 + BitVec.ofNat 32 j = count + BitVec.ofNat 32 (j + 1) := fun j => by
    rw [BitVec.add_assoc, BitVec.add_comm 1#32, ← BitVec.ofNat_add]
  rw [timerReached_iff]
  constructor
  · rintro ⟨j, hj, hc⟩
    exact ⟨j + 1, by omega, hj, hc.trans (hsucc j)⟩
  · rintro ⟨_ | j, hpos, hj, hc⟩
    · omega
    · exact ⟨j, hj, hc.trans (hsucc j).symm⟩

/-- A request is held from the step in which `compare` is reached (R210). -/
theorem passTime_timerHeld (s : State) : s.passTime.timerHeld =
    (s.timerHeld || timerReached s.cp0.count s.cp0.compare (Config.cyclesPerStep s.ticks)) := rfl

/-- Settles O11: the amount is the step's number of cycles, and the lines are `irqLines`. -/
theorem timePassesInStep : Obligations.TimePassesInStep := fun s => by
  refine ⟨Config.cyclesPerStep s.ticks, cyclesPerStep_pos _, passTime_cp0 s, ?_, ?_, ?_⟩
  · rw [passTime_irq, irqLines_seven, Bool.or_eq_true, Bool.and_eq_true, timerReached_iff_passed]
  · rw [passTime_timerHeld, Bool.or_eq_true, timerReached_iff_passed]
  · rw [passTime_irq, irqLines_others]

/-! ### The serial arrivals (R215) -/

/-- The lines show the serial controller on line 4. -/
theorem passTime_irq_four (s : State) :
    s.passTime.irq.getLsbD 4 = (receive s.ticks s.serialIn s.arrivals).2 := by
  rw [passTime_irq, irqLines_four]

theorem receive_none {n : Nat} {q : List Byte} {l : List (Option Byte)}
    (h : l.head? = none ∨ l.head? = some none) : receive n q l = (q, false) := by
  match l, h with
  | [], _ => rfl
  | none :: _, _ => rfl

/-- Settles O12: a byte is received as `receiveByte_cases` says, and without one nothing is. -/
theorem serialArrival : Obligations.SerialArrival := by
  intro s
  rw [passTime_serialIn, passTime_irq_four]
  refine ⟨fun b rest harr => ?_, fun hnone => ?_⟩
  · have hreceive : receive s.ticks s.serialIn s.arrivals = receiveByte s.ticks s.serialIn b := by rw [harr, receive]
    refine ⟨by rw [passTime_arrivals, harr, List.tail_cons], ?_⟩
    rcases receiveByte_cases s.ticks s.serialIn b with ⟨hroom, hr⟩ | ⟨hfull, hr⟩ | ⟨hfull, hr⟩ <;>
      rw [hreceive, hr]
    · exact ⟨fun _ => ⟨rfl, rfl⟩, fun hfull => absurd hroom (by omega)⟩
    · exact ⟨fun hroom => absurd hfull (by omega), fun _ => .inl ⟨rfl, rfl⟩⟩
    · exact ⟨fun hroom => absurd hfull (by omega), fun _ => .inr ⟨rfl, rfl⟩⟩
  · rw [receive_none hnone]
    exact ⟨rfl, rfl⟩

/-! ### The serial registers (R212 to R214) -/

section Serial

variable {s : State} {va : Word}

theorem loadByte_serialData (ht : translateAddr s va .load = .ok 0x1fd003f8#32) :
    loadByte s va = .ok (readSerialData s) := by
  rw [loadByte, ht]
  rfl

theorem loadByte_serialStatus (ht : translateAddr s va .load = .ok 0x1fd003fc#32) :
    loadByte s va = .ok (readSerialStatus s, s) := by
  rw [loadByte, ht]
  rfl

theorem storeByte_serialData (b : Byte) (ht : translateAddr s va .store = .ok 0x1fd003f8#32) :
    storeByte s va b = .ok (s.sendSerial b) := by
  rw [storeByte, ht]
  rfl

end Serial

/-- Settles O31: the oldest byte with the buffer behind it, or 0xff, extended by the load. -/
theorem serialDataRead : Obligations.SerialDataRead := by
  intro s rs rt imm ht
  have hload := loadByte_serialData ht
  refine ⟨fun b q hq => ?_, fun hempty => ?_⟩
  · rw [readSerialData, hq] at hload
    exact byteLoads_complete hload
  · rw [readSerialData, hempty] at hload
    exact byteLoads_complete hload

/-- The two fixed status bytes differ (log 16). -/
theorem serialStatusDataByte_ne : Config.serialStatusDataByte ≠ Config.serialStatusEmptyByte := by
  have hoffset : Config.serialStatusOffset % 255 < 255 := Nat.mod_lt _ (by omega)
  rw [Config.serialStatusDataByte]
  bv_omega

/-- The status byte says whether the buffer holds data, whatever the free values are (R214, log 16). -/
theorem hasData_serialStatusByte (n : Nat) (notEmpty : Bool) :
    Config.serialStatusHasData (Config.serialStatusByte n notEmpty) = notEmpty := by
  unfold Config.serialStatusByte
  split
  · assumption
  · cases notEmpty
    · simp [Config.serialStatusHasData, serialStatusDataByte_ne.symm]
    · simp [Config.serialStatusHasData]

/-- Settles O32: the byte is `readSerialStatus`, and the load writes it and nothing else. -/
theorem serialStatusRead : Obligations.SerialStatusRead := fun s rs rt imm ht =>
  ⟨readSerialStatus s, by rw [readSerialStatus, hasData_serialStatusByte]; simp,
    byteLoads_complete (loadByte_serialStatus ht)⟩

/-- Settles O33: the byte sent is the register's low byte, and then only the program counter moves. -/
theorem serialDataWrite : Obligations.SerialDataWrite := fun s _ rt _ ht =>
  ⟨_, finish_bind_ok (storeByte_serialData (lowByte (s.reg rt)) ht), advancePc_onlyPcWritten _⟩

/-! ### The VGA controller (R216) -/

section Vga

variable {s : State} {pa : Word} (hd : deviceAt pa = some .vga)

include hd

/-- The character cells are the first 2400 bytes of the range (R73). -/
theorem vgaOffset_lt_iff : (vgaOffset pa).toNat < 2400 ↔ pa.toNat < 0x10000960 := by
  obtain ⟨hlow, hhigh⟩ := deviceAt_vga.mp hd
  have hoffset : (vgaOffset pa).toNat = pa.toNat % 4096 := by simp [vgaOffset, BitVec.extractLsb'_toNat]
  omega

theorem writeVgaByte_cell (hc : pa.toNat < 0x10000960) (b : Byte) :
    writeVgaByte s pa b = s.setMem (memPut s.mem pa.toNat b) :=
  if_pos ((vgaOffset_lt_iff hd).mpr hc)

theorem writeVgaByte_rest (hc : 0x10000960 ≤ pa.toNat) (b : Byte) : writeVgaByte s pa b = s :=
  if_neg (by rw [vgaOffset_lt_iff hd]; omega)

/-- sb to the VGA range (R165, R216). -/
theorem exec_sb_vga {rs rt : Reg} {imm : Imm}
    (ht : translateAddr s (effectiveAddress (s.reg rs) imm) .store = .ok pa) :
    exec (.sb rs rt imm) s = .next (writeVgaByte s pa (lowByte (s.reg rt))).advancePc :=
  finish_bind_ok (by rw [storeByte, ht, bind_ok, physWriteByte, hd])

end Vga

/-- One byte put in memory changes nothing else but the program counter. -/
theorem setMem_memPut_onlyMemoryWritten (s : State) (a : Nat) (b : Byte) :
    OnlyMemoryWritten a 1 s (s.setMem (memPut s.mem a b)).advancePc where
  regs _ := rfl
  hiLo := ⟨rfl, rfl⟩
  cp0 := rfl
  tlb _ := rfl
  memory _ hout := memGet_memPut_other _ _ (by omega)
  serial := ⟨rfl, rfl⟩
  clock := ⟨rfl, rfl, rfl, rfl, rfl⟩

/-- Settles O34: below the boundary the cell is put in memory, from it on the state stays. -/
theorem vgaWrite : Obligations.VgaWrite := by
  intro s rs rt imm pa hwf ht hlow hhigh
  have hd : deviceAt pa = some .vga := deviceAt_vga.mpr ⟨hlow, hhigh⟩
  refine ⟨_, exec_sb_vga hd ht, fun hcell => ?_, fun hrest => ?_⟩
  · rw [writeVgaByte_cell hd hcell]
    exact ⟨setMem_memPut_onlyMemoryWritten s pa.toNat _, memGet_memPut_self _ _ _ (rising_of_wf hwf), rfl⟩
  · rw [writeVgaByte_rest hd hrest]
    exact advancePc_onlyPcWritten s

end Sys2Proof.Machine

/-!
Reset and the boot program (spec/70_reset_and_hazards.md): the machine after reset, the first step from every state of
power-up, and the two things a boot program prepares, the TLB and the entry into user mode.
-/
namespace Sys2Proof.Machine

/-- Settles O54: memory, the buffer and the log are empty, and the other fields are those of `State.reset`. -/
theorem resetHasInvariant : Obligations.ResetHasInvariant where
  memoryCanonical := reset_memory_wf
  memoryHeld := nofun
  zeroRegister := rfl
  nextFollows _ := rfl
  serialFits := Nat.zero_le _
  otherLinesDown := rfl
  logRising := rfl
  logPast := nofun

/-! ### The first step (R230, R233) -/

/-- The value that log 2 gives the watch registers is no multiple of 4 (R233, item 2). -/
theorem reset_watchSpares {pc : Word} (ha : pc.toNat % 4 = 0) : watchSpares State.reset pc = true := by
  have hne : pc ≠ 1#32 := by
    rintro rfl
    exact absurd ha (by decide)
  simp [watchSpares, State.reset, resetCp0, hne]

theorem interruptDue_passTime_of_disabled {s : State} (hie : s.cp0.ie = false) : s.passTime.interruptDue = false := by
  rw [← Bool.not_eq_true, interruptDue_passTime_iff]
  rintro ⟨henabled, -⟩
  exact absurd (hie.symm.trans henabled) Bool.false_ne_true

theorem watchHit_passTime_of_spared {s : State} (h : watchSpares s s.pc = true) : s.passTime.watchHit = false := by
  rw [← Bool.not_eq_true, watchHit_iff, watchSpares_passTime]
  exact fun hhit => absurd (h.symm.trans hhit) (by decide)

theorem userMode_of_um_clear {s : State} (hum : s.cp0.um = false) : s.userMode = false := by
  rw [State.userMode, hum, Bool.false_and]

/-- Before the first store every word may be fetched (R81). -/
theorem storedWithinWindow_of_noStore {s : State} (h : s.storeLog = []) (pa : Word) :
    storedWithinWindow s pa = false := by
  rw [storedWithinWindow, h]
  rfl

/-- In kernel mode the reset pc is linear, and its physical address is the first of ROM (R58, R67). -/
theorem fetch_resetPc {s : State} (hpc : s.pc = 0xbfc00000#32) (hk : s.userMode = false) (hlog : s.storeLog = []) :
    fetch s = .ok (wordOfBytes (s.byteAt 0x1fc00000) (s.byteAt 0x1fc00001) (s.byteAt 0x1fc00002)
      (s.byteAt 0x1fc00003)) := by
  have ha : s.pc.toNat % 4 = 0 := by rw [hpc]; rfl
  have ht : translateAddr s s.pc .fetch = .ok 0x1fc00000#32 := by
    rw [hpc]
    exact translate_linear (.inl hk) rfl
  rw [fetch_outsideWindow ha ht (storedWithinWindow_of_noStore hlog _)]
  exact physReadWord_bytes (.inr (deviceAt_rom.mpr (by decide)))

/-! ### The prepared TLB (R233, item 4) -/

theorem translate_prepared_miss {s : State} {va : Word} (kind : AccessKind) (h : tlbPrepared s = true)
    (hm : s.userMode = false ∨ va.getLsbD 31 = false) (hl : va.extractLsb' 30 2 ≠ 0b10#2) :
    translateAddr s va kind = .raise (if kind = .store then .tlbs va else .tlbl va) := by
  rw [translate_mapped hm hl, translateMapped_prepared h kind (decide_eq_false hl), tlbMiss_eq]

/-- An address that the mode forbids raises, a linear one is mapped without the TLB, and any other misses. -/
theorem translate_prepared_ne_multipleMatch {s : State} (va : Word) (kind : AccessKind) (h : tlbPrepared s = true) :
    translateAddr s va kind ≠ .refuse .tlbMultipleMatch := by
  by_cases hm : s.userMode = false ∨ va.getLsbD 31 = false
  · by_cases hl : va.extractLsb' 30 2 = 0b10#2
    · rw [translate_linear hm hl]
      nofun
    · rw [translate_prepared_miss kind h hm hl]
      nofun
  · obtain ⟨hu, hk⟩ := not_or.mp hm
    rw [translate_kernelFromUser (Bool.eq_true_of_not_eq_false hu) (Bool.eq_true_of_not_eq_false hk)]
    nofun

/-! ### The entry into user mode (R233, item 7) -/

theorem eret_enters_userMode {s : State} (hds : s.ds = false) (hum : s.cp0.um = true) (hexl : s.cp0.exl = true) :
    ∃ s', exec .eret s = .next s' ∧ s'.userMode = true ∧ s'.pc = s.cp0.epc := by
  have hk : s.userMode = false := by simp [State.userMode, hexl]
  exact ⟨_, exec_eret_of_kernel hds hk, (returnFromException_userMode s).trans hum, rfl⟩

/-- Settles O53: the fields of `State.reset`, the first step, the prepared TLB and the entry into user mode. -/
theorem resetState : Obligations.ResetState := by
  refine ⟨rfl, rfl, rfl, rfl, rfl, rfl, rfl, rfl, reset_tlbPrepared, fun _ => reset_watchSpares, fun s hs hw => ?_,
    fun s va kind h => ⟨translate_prepared_ne_multipleMatch va kind h, fun hk => translate_prepared_miss kind h (.inl hk)⟩,
    fun _ => eret_enters_userMode⟩
  obtain ⟨hpc, -, -, -, hum, hie, hlog⟩ := (atPowerUp_iff s).mp hs
  exact ⟨interruptDue_passTime_of_disabled hie, watchHit_passTime_of_spared (hpc ▸ hw),
    fetch_resetPc (s := s.passTime) hpc (userMode_of_um_clear hum) hlog⟩

end Sys2Proof.Machine
